-- ==== Sys2Proof/Word.lean ====
section
/-! DEFINITION. The data types of PSKCORE: the 32-bit port word, Bit, Num and the complex symbol. -/

namespace Sys2Proof

/-- The 32-bit value of an integer register and of the command word (R10, R62, R90). -/
abbrev Word := BitVec 32

/-- A Bit, "value in {0,1}" (R37); `true` is 1. -/
abbrev Bit := Bool

/-- A Num as State and the port hold it: the formula that a rule writes for it (log entry 17). R103 writes Num values as
decimal numbers or as expressions in `π` and `sqrt`; this type closes that notation under the operations of R7. `rat`
is a number a rule or the host writes; `ofWord` is the Num a 32-bit value presents to a Num register; `sym` is a value
that comes from outside and that no formula names. WHICH Num a formula is, and how two of them compare, is no matter of
this type: the parameter `NUM` says it (`Numeric.eval` of `Sys2Proof/Config.lean`). -/
inductive NumVal where
  | rat (q : Rat)
  | pi
  | sym (n : Nat)
  | ofWord (w : Word)
  | add (a b : NumVal)
  | sub (a b : NumVal)
  | mul (a b : NumVal)
  | div (a b : NumVal)
  | sqrt (a : NumVal)
  | sin (a : NumVal)
  | cos (a : NumVal)
  | arccos (a : NumVal)
  | atan2 (y x : NumVal)
  | floor (a : NumVal)
  deriving DecidableEq, Repr, Inhabited

/-- The Num value 0: what every Num register holds after reset (R45), what an absent element reads as (R71) and
what the sign tests of the rules compare with. -/
abbrev NumVal.zero : NumVal := .rat 0

/-- A complex symbol: real part, then imaginary part (R15, R102). -/
structure Cplx where
  re : NumVal
  im : NumVal
  deriving DecidableEq, Repr, Inhabited

end Sys2Proof
end

