-- ==== Sys2Proof/Config.lean ====
section
/-! DEFINITION. What an implementation of PSKCORE fixes and the specification leaves open: the parameters `NUM` (R7),
`ALPHABET` (R8) and the capacities (R9), and the Gaussian input stream (R170). Every function of the model takes them
as an argument; the machine of `Sys2Proof.core` has them as opaque constants, so no proof can see a value of one. -/

namespace Sys2Proof

/-- Parameter `NUM` (R7): "a type `Num`, an encoding `NUM.enc` of `Num` values on the host port, the constant `π`, and
the operations `+ − × ÷ < ≤ = sqrt sin cos arccos atan2 floor`". `lit q` is the Num of a number `q` that a rule or the
host writes; `floor` answers an integer; `enc` is the 32-bit value a Num presents to an integer register and `dec` the
Num a 32-bit value presents to a Num register (log entry 7); `outside n` is the value named `sym n`; `regionOutside` is
the region of a phase whose quotient in R125 rounding has left below 0 or above `M` (log entry 12). `finite` tells the
numbers from the infinities and the not-a-number values of a `NUM` "that has them" (U5). The last nine fields say that
`<`, `≤` and `=` compare the finite values as one total order, in which the finite numbers −1, 0, 1 stand so (log entry
11); of a value that is not finite they say nothing. The tactics after `:=` build the one example that shows the type
to have an element (the operations it needs no value of are any); no definition of the model uses them. -/
structure Numeric where
  Num : Type := Rat
  lit : Rat → Num := by exact fun q => q
  pi : Num := by exact (3 : Rat)
  add : Num → Num → Num := by exact fun a _ => a
  sub : Num → Num → Num := by exact fun a _ => a
  mul : Num → Num → Num := by exact fun a _ => a
  div : Num → Num → Num := by exact fun a _ => a
  sqrt : Num → Num := by exact fun a => a
  sin : Num → Num := by exact fun a => a
  cos : Num → Num := by exact fun a => a
  arccos : Num → Num := by exact fun a => a
  atan2 : Num → Num → Num := by exact fun a _ => a
  floor : Num → Int := by exact fun _ => 0
  lt : Num → Num → Bool := by exact fun a b : Rat => decide (a < b)
  le : Num → Num → Bool := by exact fun a b : Rat => decide (a ≤ b)
  eq : Num → Num → Bool := by exact fun a b : Rat => decide (a = b)
  enc : Num → Word := by exact fun _ => 0
  dec : Word → Num := by exact fun _ => (0 : Rat)
  outside : Nat → Num := by exact fun _ => (0 : Rat)
  regionOutside : Num → Nat := by exact fun _ => 0
  finite : Num → Bool := by exact fun _ => true
  lt_irrefl : ∀ a, finite a = true → lt a a = false := by simp
  lt_trans : ∀ a b c, finite a = true → finite b = true → finite c = true →
      lt a b = true → lt b c = true → lt a c = true := by
    intro a b c _ _ _ h k; simp only [decide_eq_true_eq] at *; exact lt_trans h k
  le_eq : ∀ a b, finite a = true → finite b = true → le a b = !lt b a := by intro a b _ _; simp [← not_lt]
  eq_eq : ∀ a b, finite a = true → finite b = true → eq a b = (le a b && le b a) := by
    intro a b _ _; simp [le_antisymm_iff]
  finite_zero : finite (lit 0) = true := by rfl
  finite_one : finite (lit 1) = true := by rfl
  finite_neg_one : finite (lit (-1)) = true := by rfl
  zero_lt_one : lt (lit 0) (lit 1) = true := by decide
  neg_one_lt_zero : lt (lit (-1)) (lit 0) = true := by decide
  deriving Inhabited

/-- The Num that a formula is: "every rule is read with `NUM`'s operations in place of the real ones, evaluated in the
order the pseudocode writes them" (R7). -/
def Numeric.eval (num : Numeric) : NumVal → num.Num
  | .rat q => num.lit q
  | .pi => num.pi
  | .sym n => num.outside n
  | .ofWord w => num.dec w
  | .add a b => num.add (num.eval a) (num.eval b)
  | .sub a b => num.sub (num.eval a) (num.eval b)
  | .mul a b => num.mul (num.eval a) (num.eval b)
  | .div a b => num.div (num.eval a) (num.eval b)
  | .sqrt a => num.sqrt (num.eval a)
  | .sin a => num.sin (num.eval a)
  | .cos a => num.cos (num.eval a)
  | .arccos a => num.arccos (num.eval a)
  | .atan2 y x => num.atan2 (num.eval y) (num.eval x)
  | .floor a => num.lit (num.floor (num.eval a) : Rat)

/-- `NUM` computes as the reals do when each Num `x` is read as the real number `r x`: each operation is the real one
of R15, and every value is finite: "Under `Num = ℝ` they do not exist" (U5). A division by zero, the square root of a
negative number, the inverse cosine outside `[−1, 1]` and the angle of `(0, 0)` are left unconstrained, as R15 defines
none of them. With `Num = ℝ` and `r` the identity this is the reference semantics of R7 to the letter. -/
structure Numeric.ComputesReals (num : Numeric) (r : num.Num → ℝ) : Prop where
  lit : ∀ q : Rat, r (num.lit q) = q
  pi : r num.pi = Real.pi
  add : ∀ a b, r (num.add a b) = r a + r b
  sub : ∀ a b, r (num.sub a b) = r a - r b
  mul : ∀ a b, r (num.mul a b) = r a * r b
  div : ∀ a b, r b ≠ 0 → r (num.div a b) = r a / r b
  sqrt : ∀ a, 0 ≤ r a → r (num.sqrt a) = Real.sqrt (r a)
  sin : ∀ a, r (num.sin a) = Real.sin (r a)
  cos : ∀ a, r (num.cos a) = Real.cos (r a)
  arccos : ∀ a, -1 ≤ r a → r a ≤ 1 → r (num.arccos a) = Real.arccos (r a)
  atan2 : ∀ y x, (r x ≠ 0 ∨ r y ≠ 0) → r (num.atan2 y x) = Complex.arg ⟨r x, r y⟩
  floor : ∀ a, num.floor a = ⌊r a⌋
  lt : ∀ a b, num.lt a b = true ↔ r a < r b
  le : ∀ a b, num.le a b = true ↔ r a ≤ r b
  eq : ∀ a b, num.eq a b = true ↔ r a = r b
  finite : ∀ a, num.finite a = true

/-- The reference semantics of R7, "exact real arithmetic: `Num = ℝ`": `v` is the real number of every formula under a
`NUM` that computes as the reals do. -/
def Numeric.IsReal (num : Numeric) (v : NumVal → ℝ) : Prop :=
  ∃ r : num.Num → ℝ, num.ComputesReals r ∧ ∀ x, v x = r (num.eval x)

/-- Parameter `ALPHABET` (R8): for each order a bijection from group values to phase indices, `M = 2^(BPS1 + 1)`. -/
abbrev Alphabet := (bps1 : BitVec 2) → Equiv.Perm (Fin (2 ^ (bps1.toNat + 1)))

/-- The default table of R8, natural binary: `ASSIGN_M(g) = g`. -/
def Alphabet.default : Alphabet := fun _ => Equiv.refl _

/-- Parameters `BIT_CAP`, `SIG_CAP`, `SYM_CAP`, `BITOUT_CAP` with the constraints of R9. -/
structure Capacities where
  bitCap : Nat := 0
  sigCap : Nat := 0
  symCap : Nat := 0
  bitoutCap : Nat := 0
  bit_bound : bitCap < 2 ^ 32 := by decide
  sig_bound : sigCap < 2 ^ 32 := by decide
  sym_bound : symCap < 2 ^ 32 := by decide
  bitout_bound : bitoutCap < 2 ^ 32 := by decide
  sym_fits : sigCap / 3 ≤ symCap := by decide
  bitout_fits : 4 * symCap ≤ bitoutCap := by decide
  deriving Inhabited

/-- All parameters of the block, and the oracle `γ_0, γ_1, γ_2, …` behind the Gaussian input port (R170): an
arbitrary sequence, "under no law". -/
structure Params where
  num : Numeric
  alphabet : Alphabet
  caps : Capacities
  gauss : Nat → NumVal
  deriving Inhabited

/-- The machine's number system: a free value (log entry 1). -/
opaque Config.num : Numeric

/-- The machine's phase alphabet: a free value, any bijection for each order (log entry 2). -/
opaque Config.alphabet : Alphabet

/-- The machine's buffer capacities: a free value within the constraints of R9 (log entry 3). -/
opaque Config.caps : Capacities

/-- The values the Gaussian port delivers, by position in the stream: a free value (log entry 4). -/
opaque Config.gauss : Nat → NumVal

/-- The parameters of the machine `Sys2Proof.core`. -/
def Config.machine : Params :=
  { num := Config.num, alphabet := Config.alphabet, caps := Config.caps, gauss := Config.gauss }

end Sys2Proof
end

