-- ==== Sys2Proof/Syntax.lean ====
section
/-! DEFINITION. The twelve commands of PSKCORE (R93), one constructor per row of the opcode table. -/

namespace Sys2Proof

/-- A command. Only CLR and ENC carry an operand, the four bits `word[11:8]` (R90, R91); the operands of every other
command are the fixed registers and buffers its rule names. -/
inductive Instr where
  /-- NOP, R230. -/
  | nop
  /-- SRST, soft reset, R231. -/
  | srst
  /-- CLR `mask`, empty selected buffers, R232. -/
  | clr (mask : BitVec 4)
  /-- ENC `g`, alphabet encode, R130. -/
  | enc (g : BitVec 4)
  /-- DEC, alphabet decode of a phase, R131. -/
  | dec
  /-- DECXY, alphabet decode of a complex point, R132. -/
  | decxy
  /-- MOD, modulate, R158. -/
  | mod
  /-- NOISEW, waveform-domain noise, R174. -/
  | noisew
  /-- NOISES, symbol-domain noise, R176. -/
  | noises
  /-- DETECT, demodulator step 1, R202. -/
  | detect
  /-- DECIDE, demodulator steps 3 and 4, R209. -/
  | decide
  /-- DEMOD, the whole demodulator, R210. -/
  | demod
  deriving DecidableEq, Repr

end Sys2Proof
end

