-- ==== Sys2Proof/WellFormed.lean ====
section
/-! DEFINITION. When a command is legal for an order: the one check of R92 that a command word cannot answer by itself. -/

namespace Sys2Proof

/-- The check of R92 and R94 under order `bps1` (the value of `CFG_ORDER` when the command executes): ENC is legal
exactly when `g < M`, every other command always. Reserved immediate bits have no place in `Instr`; the decoder
refuses a word that sets one. -/
def Instr.wellFormed (bps1 : BitVec 2) : Instr → Bool
  | .enc g => Decidable.decide (g.toNat < 2 ^ (bps1.toNat + 1))
  | .nop => true
  | .srst => true
  | .clr _ => true
  | .dec => true
  | .decxy => true
  | .mod => true
  | .noisew => true
  | .noises => true
  | .detect => true
  | .decide => true
  | .demod => true

end Sys2Proof
end

