-- ==== Sys2Proof/Decode.lean ====
section
/-! DEFINITION. The command word (R90 to R96): its fields, the decoder and the encoder. -/

namespace Sys2Proof

/-- Why a word is no command (R94); the block answers both with CMDERR (R242). -/
inductive DecodeError where
  /-- `OPC` is not in the table of R93. -/
  | unknownOpcode (opc : BitVec 8)
  /-- A reserved immediate bit is not zero. -/
  | reservedImmediate (imm : BitVec 24)
  deriving DecidableEq, Repr

/-- `OPC = word[7:0]` (R90). -/
def opcField (w : Word) : BitVec 8 := w.extractLsb' 0 8

/-- `IMM = word[31:8]` (R90, R91). -/
def immField (w : Word) : BitVec 24 := w.extractLsb' 8 24

/-- `IMM[3:0] = word[11:8]`, the operand of ENC and of CLR (R91). -/
def operandField (w : Word) : BitVec 4 := w.extractLsb' 8 4

/-- `IMM[23:4] = word[31:12]`, reserved in every command (R91). -/
def reservedField (w : Word) : BitVec 20 := w.extractLsb' 12 20

/-- The OPC column of R93. -/
def Instr.opcode : Instr → BitVec 8
  | .nop => 0x00
  | .srst => 0x01
  | .clr _ => 0x02
  | .enc _ => 0x10
  | .dec => 0x11
  | .decxy => 0x12
  | .mod => 0x20
  | .noisew => 0x30
  | .noises => 0x31
  | .detect => 0x40
  | .decide => 0x41
  | .demod => 0x42

/-- The operand the command carries in `IMM[3:0]`; a command without one has zero there (R90). -/
def Instr.operand : Instr → BitVec 4
  | .clr mask => mask
  | .enc g => g
  | .nop => 0
  | .srst => 0
  | .dec => 0
  | .decxy => 0
  | .mod => 0
  | .noisew => 0
  | .noises => 0
  | .detect => 0
  | .decide => 0
  | .demod => 0

/-- The row of R93 that an operation code selects, with the word's `IMM[3:0]` as its operand where it takes one. -/
def rowOf (opc : BitVec 8) (operand : BitVec 4) : Option Instr :=
  match opc with
  | 0x00 => some .nop
  | 0x01 => some .srst
  | 0x02 => some (.clr operand)
  | 0x10 => some (.enc operand)
  | 0x11 => some .dec
  | 0x12 => some .decxy
  | 0x20 => some .mod
  | 0x30 => some .noisew
  | 0x31 => some .noises
  | 0x40 => some .detect
  | 0x41 => some .decide
  | 0x42 => some .demod
  | _ => none

/-- The decoder of R92, total on the 32-bit words. The check `g < M` of ENC needs `CFG_ORDER` and is made when ENC
executes (`Instr.wellFormed`). A command that takes no operand has all of `IMM` reserved. -/
def decode (w : Word) : Except DecodeError Instr :=
  match rowOf (opcField w) (operandField w) with
  | none => .error (.unknownOpcode (opcField w))
  | some i =>
    if reservedField w = 0 ∧ operandField w = i.operand then .ok i
    else .error (.reservedImmediate (immField w))

/-- The command word of a command (R93, R103): `OPC OR (operand << 8)`. -/
def encode (i : Instr) : Word :=
  i.opcode.setWidth 32 ||| (i.operand.setWidth 32 <<< 8)

/-- What the decoder reads from an instruction of the opcode table whose bits are `w`: every row is one 32-bit word,
bit 0 the least significant (R12, R90); bits above `nbits` are 0. The port is word-addressed, so no byte order
arises (R65). -/
def decodeTableWord (nbits w : Nat) : Option Instr :=
  match decode (BitVec.ofNat 32 (w % 2 ^ nbits)) with
  | .ok i => some i
  | .error _ => none

end Sys2Proof
end

