-- ==== Sys2Proof/Machine/State.lean ====
section
/-! DEFINITION. The architectural state of PSKCORE (R22), its reset value (R45), and the outcomes of a step. -/

namespace Sys2Proof.Machine

/-- A value on the host port (R61, R62): the 32-bit value of an integer register, or one Num. -/
inductive PortVal where
  | word (v : Word)
  | num (x : NumVal)
  deriving DecidableEq, Repr

/-- One host action (R60, R61): a transaction of the port, or a pulse of the hardware reset input (R270). -/
inductive Txn where
  | write (addr : BitVec 6) (v : PortVal)
  | read (addr : BitVec 6)
  | reset
  deriving DecidableEq, Repr

/-- A reason for which the machine stops with a fault. The block has no traps and no condition of its own stops it
(R250); where the specification leaves a value without a meaning, "a model should refuse or fault, never return a
value" (R254). -/
inductive Fault where
  /-- A Num that is not finite was written to a register, pushed, delivered by the Gaussian port, or stands in a
  register or buffer that a command or `TIME_RD` would compute with (U5: "Treatment: fault", "must reject the state
  rather than compute with it"; log entry 10). Raised by `guardFinite`, for a host action or a command; safe, since the
  model stops. -/
  | nonFinite
  deriving DecidableEq, Repr

/-- A reason for which an instruction has no meaning. No meaning of this model raises it: a command the block
refuses is an ordinary step that sets a flag (R254). -/
inductive Refusal where
  /-- Raised by an arm of `exec` whose instruction has no meaning yet; safe, since the model stops. No arm does. -/
  | notModelled (mnemonic : String)
  deriving DecidableEq, Repr

/-- The whole state: the rows of R22 in their order, then three fields that stand for the block's environment. A Num
is held as the formula of its value (log entry 17). -/
structure State where
  /-- `CFG_ORDER.BPS1`, R23. -/
  cfgOrder : BitVec 2
  /-- `CFG_NSPS.N`, samples per symbol, R24. -/
  cfgNsps : BitVec 16
  /-- `CFG_AMP`, carrier amplitude, R25. -/
  cfgAmp : NumVal
  /-- `CFG_PERIOD`, symbol period, R26. -/
  cfgPeriod : NumVal
  /-- `CFG_NS`, noise strength, R27. -/
  cfgNs : NumVal
  /-- `SIG_PAD.PAD`, the Signal's padding count, R28. -/
  sigPad : BitVec 2
  /-- `IDX`, element index of the indexed read ports, R29. -/
  idx : BitVec 32
  /-- `PHASE_IN`, R30. -/
  phaseIn : NumVal
  /-- `X_IN`, R31. -/
  xIn : NumVal
  /-- `Y_IN`, R31. -/
  yIn : NumVal
  /-- `RES_K`, phase index, R32. -/
  resK : BitVec 4
  /-- `RES_G`, group value, R33. -/
  resG : BitVec 4
  /-- `RES_PHASE`, nominal phase, R34. -/
  resPhase : NumVal
  /-- `STATUS`, six sticky flags, R35. -/
  status : BitVec 6
  /-- `BITIN`, the modulator's input, R37. -/
  bitin : List Bit
  /-- `SIG`, the samples, R38. -/
  sig : List NumVal
  /-- `SYM`, the complex symbols, R39. -/
  sym : List Cplx
  /-- `SYM_RE_LATCH`, the hidden latch, R40. -/
  symReLatch : NumVal
  /-- `BITOUT`, the demodulator's output, R41. -/
  bitout : List Bit
  /-- The position of the Gaussian stream: how many draws have been taken (R42b). State of the environment, not of
  the block: no reset changes it. -/
  drawPos : Nat
  /-- The host actions still to come, the next one first (R60, R70): the environment's. -/
  pending : List Txn
  /-- The value the last `HostRead` returned to the host (R61): the environment's, nothing in the block reads it. -/
  readData : PortVal
  deriving DecidableEq, Repr

/-- The state right after reset (R45, R271): every integer field 0, every Num the value 0, every buffer empty, every
flag clear. The environment has taken no draw, has no action waiting and has read nothing (log entries 4 to 6). -/
def State.reset : State where
  cfgOrder := 0
  cfgNsps := 0
  cfgAmp := .zero
  cfgPeriod := .zero
  cfgNs := .zero
  sigPad := 0
  idx := 0
  phaseIn := .zero
  xIn := .zero
  yIn := .zero
  resK := 0
  resG := 0
  resPhase := .zero
  status := 0
  bitin := []
  sig := []
  sym := []
  symReLatch := .zero
  bitout := []
  drawPos := 0
  pending := []
  readData := .word 0

end Sys2Proof.Machine
end

