-- ==== Sys2Proof/Machine/Arith.lean ====
section
/-! DEFINITION. What the rules compute with Num values beyond the single operations of `NUM`: comparisons, reduction
modulo `2π`, the clamp, sums (R7, R15, R105). -/

namespace Sys2Proof

/-- `a < b`, by `NUM`'s comparison (R7). -/
def Numeric.less (num : Numeric) (a b : NumVal) : Bool := num.lt (num.eval a) (num.eval b)

/-- `a ≤ b`, by `NUM`'s comparison (R7). -/
def Numeric.atMost (num : Numeric) (a b : NumVal) : Bool := num.le (num.eval a) (num.eval b)

/-- `a = b`: "Equality is the equality of `NUM`" (R197). -/
def Numeric.same (num : Numeric) (a b : NumVal) : Bool := num.eq (num.eval a) (num.eval b)

/-- Whether the Num that a formula is is a finite value of `NUM` (U5). The 0 of a reset register is, in every `NUM`
(`finite_zero`), so no test is asked of it. -/
def Numeric.isFinite (num : Numeric) (a : NumVal) : Bool := a == .zero || num.finite (num.eval a)

/-- `floor(a)`, an integer (R7, R15). -/
def Numeric.floorOf (num : Numeric) (a : NumVal) : Int := num.floor (num.eval a)

/-- A natural number written in a rule, as a Num. -/
def NumVal.ofNat (n : Nat) : NumVal := .rat (n : Rat)

/-- `2π`. -/
def NumVal.twoPi : NumVal := .mul (.ofNat 2) .pi

/-- `x mod 2π = x − 2π·floor(x / 2π)` (R15). -/
def NumVal.modTwoPi (x : NumVal) : NumVal := .sub x (.mul .twoPi (.floor (.div x .twoPi)))

/-- `min(1, max(−1, c))` (R195, R199). -/
def Numeric.clampUnit (num : Numeric) (c : NumVal) : NumVal :=
  let low := if num.less c (.rat (-1)) then .rat (-1) else c
  if num.less (.ofNat 1) low then .ofNat 1 else low

/-- `Σ_{n} u[n]`, in ascending `n`, started from the Num 0 (log entry 8). -/
def NumVal.sum (u : List NumVal) : NumVal := u.foldl .add .zero

/-- `dot(u, v) = Σ_n u[n] × v[n]` (R193). -/
def NumVal.dot (u v : List NumVal) : NumVal := .sum (List.zipWith .mul u v)

/-- The point `(0, 0)`, whose angle does not exist (R126). -/
def Numeric.isOrigin (num : Numeric) (z : Cplx) : Bool := num.same z.re .zero && num.same z.im .zero

end Sys2Proof
end

