-- ==== Sys2Proof/Machine/Operands.lean ====
section
/-! DEFINITION. The operands of the commands: the order, bit groups, the legality of configuration values, the values
that cross the host port (R6, R23 to R28, R97 to R102). -/

namespace Sys2Proof.Machine

/-- The group width `w = BPS1 + 1`, bits per symbol (R6, R23, R97). -/
def width (bps1 : BitVec 2) : Nat := bps1.toNat + 1

/-- The number of constellation points `M = 2^w` (R6). -/
def points (bps1 : BitVec 2) : Nat := 2 ^ width bps1

/-- `ASSIGN_M(g)` (R8, R122), for a group value `g < M`. -/
def assign (p : Params) (bps1 : BitVec 2) (g : Nat) : Nat :=
  (p.alphabet bps1 (Fin.ofNat (2 ^ (bps1.toNat + 1)) g)).val

/-- `UNASSIGN_M(k)`, the inverse of `ASSIGN_M` (R8), for a phase index `k < M`. -/
def unassign (p : Params) (bps1 : BitVec 2) (k : Nat) : Nat :=
  ((p.alphabet bps1).symm (Fin.ofNat (2 ^ (bps1.toNat + 1)) k)).val

/-- The group value of a group: its first bit is the most significant (R100). -/
def groupValue (group : List Bit) : Nat := group.foldl (fun g b => 2 * g + b.toNat) 0

/-- `bits_w(g) = [g[w−1], g[w−2], …, g[0]]` (R100). -/
def bitsOf (w g : Nat) : List Bit := (List.range w).map fun i => g.testBit (w - 1 - i)

/-- `zext_4` of a group value or a phase index into a result register (R130). -/
def toResult (n : Nat) : BitVec 4 := BitVec.ofNat 4 n

/-- `N ≥ 3` and `A > 0`: the configuration MOD, DETECT and DEMOD need (R24, R25, R243). -/
def waveConfigLegal (p : Params) (s : State) : Bool :=
  decide (3 ≤ s.cfgNsps.toNat) && p.num.less .zero s.cfgAmp

/-- `NS ≥ 0`: the configuration NOISEW, NOISES and DEMOD need (R27, R243). -/
def noiseConfigLegal (p : Params) (s : State) : Bool := p.num.atMost .zero s.cfgNs

/-- The 32-bit value a port value presents to an integer register: a Num presents its encoding (R62; log entry 7). -/
def PortVal.asWord (p : Params) : PortVal → Word
  | .word v => v
  | .num x => p.num.enc (p.num.eval x)

/-- The Num a port value presents to a Num register: a 32-bit value presents the Num it encodes (R62; log entry 7). -/
def PortVal.asNum : PortVal → NumVal
  | .num x => x
  | .word v => .ofWord v

end Sys2Proof.Machine
end

