-- ==== Sys2Proof/Machine/Flags.lean ====
section
/-! DEFINITION. The six sticky flags of `STATUS` (R35, R241 to R247): raising, reading and clearing them. -/

namespace Sys2Proof.Machine

/-- The flags, in the order of their bit numbers (R35). -/
inductive Flag where
  /-- Illegal command, R242. -/
  | cmderr
  /-- Configuration not legal for the command, R243. -/
  | cfgerr
  /-- Capacity exceeded, R244. -/
  | ovf
  /-- Degenerate window, R245. -/
  | degen
  /-- Padding count cannot be right, R246. -/
  | paderr
  /-- Angle of the zero point, R247. -/
  | zeropt
  deriving DecidableEq, Repr

/-- The flag's bit number in `STATUS`, which is its cause code (R35, R241). -/
def Flag.bit : Flag → Nat
  | .cmderr => 0
  | .cfgerr => 1
  | .ovf => 2
  | .degen => 3
  | .paderr => 4
  | .zeropt => 5

/-- The mask of a flag in `STATUS`. -/
def Flag.mask (f : Flag) : BitVec 6 := 1#6 <<< f.bit

/-- Whether a flag is set. -/
def State.hasFlag (s : State) (f : Flag) : Bool := s.status.getLsbD f.bit

/-- `flag F`: set the flag, change nothing else (R14, R253). -/
def raise (f : Flag) (s : State) : State := { s with status := s.status ||| f.mask }

/-- `flag F` where a condition holds. -/
def raiseIf (c : Bool) (f : Flag) (s : State) : State := if c then raise f s else s

/-- `refuse F`: the command ends with the flag set and nothing else changed (R14, R250). THE ONE operation every error
that stops a command goes through; the block has no trap to take and none to return from (R250, R253). -/
def refuse (f : Flag) (s : State) : State := raise f s

/-- A host write of `v` to `STATUS` clears exactly the flags whose bit in `v[5:0]` is 1 (R35). -/
def clearFlags (v : Word) (s : State) : State :=
  { s with status := s.status &&& ~~~(v.extractLsb' 0 6) }

end Sys2Proof.Machine
end

