-- ==== Sys2Proof/Machine/Ops.lean ====
section
/-! DEFINITION. The named operations over the registers and buffers: result registers, pushes, indexed reads, draws
from the Gaussian port, reset. -/

namespace Sys2Proof.Machine

/-- ENC, DEC and DECXY write the three result registers together (R32 to R34). -/
def setResult (k g : Nat) (phase : NumVal) (s : State) : State :=
  { s with resK := toResult k, resG := toResult g, resPhase := phase }

/-- `BITIN_PUSH`: append bit 0 of the value, or set OVF and drop it when the buffer is full (R69). -/
def pushBit (p : Params) (v : Word) (s : State) : State :=
  if s.bitin.length = p.caps.bitCap then raise .ovf s
  else { s with bitin := s.bitin ++ [v.getLsbD 0] }

/-- `SIG_PUSH`: append a sample, or set OVF and drop it (R69). -/
def pushSample (p : Params) (x : NumVal) (s : State) : State :=
  if s.sig.length = p.caps.sigCap then raise .ovf s
  else { s with sig := s.sig ++ [x] }

/-- `SYM_RE_PUSH`: store the real part in the hidden latch (R40, R69). -/
def latchRe (x : NumVal) (s : State) : State := { s with symReLatch := x }

/-- `SYM_IM_PUSH`: append the pair (latch, value), or set OVF and drop it (R69). -/
def pushSymbol (p : Params) (y : NumVal) (s : State) : State :=
  if s.sym.length = p.caps.symCap then raise .ovf s
  else { s with sym := s.sym ++ [{ re := s.symReLatch, im := y }] }

/-- The element of a buffer at index `IDX`, if there is one (R71). -/
def State.indexed {α : Type} (s : State) (buffer : List α) : Option α := buffer[s.idx.toNat]?

/-- The `i`-th next value of the Gaussian port (R170, R171). -/
def nextDraw (p : Params) (s : State) (i : Nat) : NumVal := p.gauss (s.drawPos + i)

/-- The next `n` values of the Gaussian port, in their order (R171). -/
def nextDraws (p : Params) (s : State) (n : Nat) : List NumVal := (List.range n).map (nextDraw p s)

/-- The parts of complex symbols, one after the other. -/
def symbolParts (symbols : List Cplx) : List NumVal := symbols.flatMap fun z => [z.re, z.im]

/-- The outcome of a host action or a command that computes with the Nums `xs` and would leave `t`: no rule gives a
meaning to a Num that is not finite, so the machine stops there (U5, R254; where: log entry 10). -/
def guardFinite (num : Numeric) (xs : List NumVal) (t : State) : Host.Outcome State Fault Refusal :=
  if xs.all num.isFinite then .next t else .fault .nonFinite

/-- `n` draws have been taken (R171). -/
def takeDraws (n : Nat) (s : State) : State := { s with drawPos := s.drawPos + n }

/-- Every register and buffer of R22 at its reset value: what the hardware reset and SRST do (R231, R270). The
Gaussian stream, the host's further actions and the value it last read are outside the block and stay. -/
def resetBlock (s : State) : State :=
  { State.reset with drawPos := s.drawPos, pending := s.pending, readData := s.readData }

end Sys2Proof.Machine
end

