-- ==== Sys2Proof/Machine/Control.lean ====
section
/-! DEFINITION. Control commands: NOP, SRST, CLR (R230 to R232). -/

namespace Sys2Proof.Machine

/-- NOP (R230): no state changes. -/
def nopCmd (s : State) : State := s

/-- SRST (R231): the block returns to its reset state, all six flags cleared. -/
def srstCmd (s : State) : State := resetBlock s

/-- CLR `mask` (R232): bit 0 empties `BITIN`, bit 1 the Signal (`SIG` and `SIG_PAD`), bit 2 `SYM`, bit 3 `BITOUT`. -/
def clrCmd (mask : BitVec 4) (s : State) : State :=
  { s with
    bitin := if mask.getLsbD 0 then [] else s.bitin
    sig := if mask.getLsbD 1 then [] else s.sig
    sigPad := if mask.getLsbD 1 then 0 else s.sigPad
    sym := if mask.getLsbD 2 then [] else s.sym
    bitout := if mask.getLsbD 3 then [] else s.bitout }

/-- The meaning of NOP. -/
def execNop (s : State) : Host.Outcome State Fault Refusal := .next (nopCmd s)

/-- The meaning of SRST. -/
def execSrst (s : State) : Host.Outcome State Fault Refusal := .next (srstCmd s)

/-- The meaning of CLR. -/
def execClr (mask : BitVec 4) (s : State) : Host.Outcome State Fault Refusal := .next (clrCmd mask s)

end Sys2Proof.Machine
end

