-- ==== Sys2Proof/Machine/Channel.lean ====
section
/-! DEFINITION. The channel: waveform-domain and symbol-domain Gaussian noise, commands NOISEW and NOISES
(R170 to R180). -/

namespace Sys2Proof.Machine

/-- Contract A: `noisew(s, NS, γ)[i] = s[i] + NS × γ_i` (R173). -/
def addWaveformNoise (ns : NumVal) (draw : Nat → NumVal) (samples : List NumVal) : List NumVal :=
  samples.mapIdx fun i x => .add x (.mul ns (draw i))

/-- `σ = sqrt(NS / 2)` (R175). -/
def symbolSigma (ns : NumVal) : NumVal := .sqrt (.div ns (.ofNat 2))

/-- Contract B: symbol `j` takes draws `2j` and `2j + 1` for its real and its imaginary part (R171, R175). -/
def addSymbolNoise (ns : NumVal) (draw : Nat → NumVal) (symbols : List Cplx) : List Cplx :=
  symbols.mapIdx fun j z =>
    { re := .add z.re (.mul (symbolSigma ns) (draw (2 * j)))
      im := .add z.im (.mul (symbolSigma ns) (draw (2 * j + 1))) }

/-- NOISEW once its precondition holds: `len(SIG)` draws, every sample changed in place (R174). -/
def waveformNoise (p : Params) (s : State) : State :=
  takeDraws s.sig.length
    { s with sig := addWaveformNoise s.cfgNs (nextDraw p s) s.sig }

/-- NOISES once its precondition holds, and step 2 of DEMOD: `2 × len(SYM)` draws, every symbol changed in place
(R176, R203). -/
def symbolNoise (p : Params) (s : State) : State :=
  takeDraws (2 * s.sym.length)
    { s with sym := addSymbolNoise s.cfgNs (nextDraw p s) s.sym }

/-- NOISEW (R174): refused with CFGERR, no draw taken, while `NS < 0`. -/
def noisewCmd (p : Params) (s : State) : State :=
  if noiseConfigLegal p s then waveformNoise p s else refuse .cfgerr s

/-- NOISES (R176): refused with CFGERR, no draw taken, while `NS < 0`. -/
def noisesCmd (p : Params) (s : State) : State :=
  if noiseConfigLegal p s then symbolNoise p s else refuse .cfgerr s

/-- The Nums NOISEW computes with: the strength, the samples, and the draws unless it is refused (R171, R174). -/
def noisewNums (p : Params) (s : State) : List NumVal :=
  s.cfgNs :: s.sig ++ (nextDraws p s s.sig.length).filter fun _ => noiseConfigLegal p s

/-- The Nums NOISES computes with: the strength, the symbols, and the draws unless it is refused (R171, R176). -/
def noisesNums (p : Params) (s : State) : List NumVal :=
  s.cfgNs :: symbolParts s.sym ++ (nextDraws p s (2 * s.sym.length)).filter fun _ => noiseConfigLegal p s

/-- The meaning of NOISEW. -/
def execNoisew (s : State) : Host.Outcome State Fault Refusal :=
  guardFinite Config.num (noisewNums Config.machine s) (noisewCmd Config.machine s)

/-- The meaning of NOISES. -/
def execNoises (s : State) : Host.Outcome State Fault Refusal :=
  guardFinite Config.num (noisesNums Config.machine s) (noisesCmd Config.machine s)

end Sys2Proof.Machine
end

