-- ==== Sys2Proof/Machine/Alphabet.lean ====
section
/-! DEFINITION. The phase alphabet and its commands ENC, DEC, DECXY (R120 to R132). -/

namespace Sys2Proof.Machine

/-- The nominal phase `θ_k = (2k + 1) · π / M` (R120). -/
def nominalPhase (m k : Nat) : NumVal :=
  .div (.mul (.ofNat (2 * k + 1)) NumVal.pi) (.ofNat m)

/-- `region_M(φ) = floor(M · φ / (2π))` for `φ ∈ [0, 2π)`; "the value is clamped to `M−1`" (R125). A quotient below
0 or above `M` cannot come about over the reals; where a finite `NUM` rounds to one, the region is a free value (log
entry 12). The clamp is for a quotient of exactly `M`, whichever side of `2π` the phase lies (log entry 12). -/
def regionOf (num : Numeric) (m : Nat) (phase : NumVal) : Nat :=
  let q := num.floorOf (.div (.mul (.ofNat m) phase) .twoPi)
  if q < 0 ∨ (m : Int) < q then num.regionOutside (num.eval phase) % m else min q.toNat (m - 1)

/-- `angle(x, y)`: `atan2(y, x)` moved into `[0, 2π)`; the point `(0, 0)` takes the fallback angle 0 (R126).
Nothing reduces the sum again: DESIGN CHOICE (log entry 21). -/
def angleOf (num : Numeric) (z : Cplx) : NumVal :=
  if num.isOrigin z then .zero
  else
    let a : NumVal := .atan2 z.im z.re
    if num.less a .zero then .add a .twoPi else a

/-- ENC `g` (R130); `g ≥ M` is an illegal word, refused with CMDERR (R92). -/
def encCmd (p : Params) (g : BitVec 4) (s : State) : State :=
  if (Instr.enc g).wellFormed s.cfgOrder then
    let k := assign p s.cfgOrder g.toNat
    setResult k g.toNat (nominalPhase (points s.cfgOrder) k) s
  else refuse .cmderr s

/-- What DEC and DECXY write for the phase index `k` they found (R131, R132). -/
def setDecoded (p : Params) (k : Nat) (s : State) : State :=
  setResult k (unassign p s.cfgOrder k) (nominalPhase (points s.cfgOrder) k) s

/-- DEC (R131): decode `PHASE_IN`, reduced modulo `2π` first. -/
def decCmd (p : Params) (s : State) : State :=
  setDecoded p (regionOf p.num (points s.cfgOrder) (.modTwoPi s.phaseIn)) s

/-- DECXY (R132): decode the point (`X_IN`, `Y_IN`); the point `(0, 0)` sets ZEROPT and decodes as the angle 0. DESIGN
CHOICE (log entry 21): the region is that of the angle itself, as R132 writes, not of the angle modulo `2π`, as R127
does; the two differ only where a finite `NUM` rounds the angle up to `2π`. -/
def decxyCmd (p : Params) (s : State) : State :=
  let z : Cplx := { re := s.xIn, im := s.yIn }
  raiseIf (p.num.isOrigin z) .zeropt
    (setDecoded p (regionOf p.num (points s.cfgOrder) (angleOf p.num z)) s)

/-- The meaning of ENC. -/
def execEnc (g : BitVec 4) (s : State) : Host.Outcome State Fault Refusal := .next (encCmd Config.machine g s)

/-- The Nums DEC computes with (R131). -/
def decNums (s : State) : List NumVal := [s.phaseIn]

/-- The Nums DECXY computes with (R132). -/
def decxyNums (s : State) : List NumVal := [s.xIn, s.yIn]

/-- The meaning of DEC. -/
def execDec (s : State) : Host.Outcome State Fault Refusal :=
  guardFinite Config.num (decNums s) (decCmd Config.machine s)

/-- The meaning of DECXY. -/
def execDecxy (s : State) : Host.Outcome State Fault Refusal :=
  guardFinite Config.num (decxyNums s) (decxyCmd Config.machine s)

end Sys2Proof.Machine
end

