-- ==== Sys2Proof/Machine/Modulator.lean ====
section
/-! DEFINITION. The modulator: bit-to-phase mapper, waveform synthesizer, time axis, and the command MOD
(R150 to R159). -/

namespace Sys2Proof.Machine

/-- `pad = (w − (L mod w)) mod w` (R151). -/
def padCount (w len : Nat) : Nat := (w - len % w) % w

/-- The number of symbols `S = (L + pad) / w` (R151). -/
def symbolCount (w len : Nat) : Nat := (len + padCount w len) / w

/-- `padded = bits ++ zeros(pad)` (R151). -/
def padBits (w : Nat) (bits : List Bit) : List Bit := bits ++ List.replicate (padCount w bits.length) false

/-- The group values `g_0 … g_{S−1}` of a bit sequence: `group_j = padded[j·w ..< j·w + w]` (R151). -/
def groupValues (w : Nat) (bits : List Bit) : List Nat :=
  (List.range (symbolCount w bits.length)).map fun j => groupValue (((padBits w bits).drop (j * w)).take w)

/-- The mapper's output `k_0 … k_{S−1}`: `k_j = ASSIGN_M(g_j)` (R152). -/
def phaseIndices (p : Params) (bps1 : BitVec 2) (bits : List Bit) : List Nat :=
  (groupValues (width bps1) bits).map (assign p bps1)

/-- One sample `A · sin(2π·n/N + θ)`; the argument is "the fraction `n/N` of a turn, times `2π`, plus `θ_k`"
(R153). -/
def sampleAt (nsps : Nat) (amp theta : NumVal) (n : Nat) : NumVal :=
  .mul amp (.sin (.add (.mul (.div (.ofNat n) (.ofNat nsps)) .twoPi) theta))

/-- The `N` samples `ref_k` of a symbol of phase `θ` (R153): what MOD synthesizes and what the detector compares
with (R192). -/
def refSymbol (nsps : Nat) (amp theta : NumVal) : List NumVal :=
  (List.range nsps).map (sampleAt nsps amp theta)

/-- `ref_{k_0} ++ … ++ ref_{k_{S−1}}` (R155). -/
def synthesize (m nsps : Nat) (amp : NumVal) (ks : List Nat) : List NumVal :=
  ks.flatMap fun k => refSymbol nsps amp (nominalPhase m k)

/-- The time axis `TIME_RD = (IDX × T) / N`, or 0 out of range or with `N = 0` (R157). -/
def timeAxis (s : State) : NumVal :=
  if s.idx.toNat < s.sig.length ∧ 1 ≤ s.cfgNsps.toNat then
    .div (.mul (.ofNat s.idx.toNat) s.cfgPeriod) (.ofNat s.cfgNsps.toNat)
  else .zero

/-- The Nums `TIME_RD` computes with: the symbol period, where there is a sample to date (R157). -/
def timeNums (s : State) : List NumVal :=
  if s.idx.toNat < s.sig.length ∧ 1 ≤ s.cfgNsps.toNat then [s.cfgPeriod] else []

/-- MOD (R158). The checks stand in the order of R252: the configuration, then the capacity. -/
def modCmd (p : Params) (s : State) : State :=
  let w := width s.cfgOrder
  let nsps := s.cfgNsps.toNat
  if !waveConfigLegal p s then refuse .cfgerr s
  else if p.caps.sigCap < symbolCount w s.bitin.length * nsps then refuse .ovf s
  else
    { s with
      sig := synthesize (points s.cfgOrder) nsps s.cfgAmp (phaseIndices p s.cfgOrder s.bitin)
      sigPad := BitVec.ofNat 2 (padCount w s.bitin.length)
      bitin := [] }

/-- The Nums MOD computes with (R158). -/
def modNums (s : State) : List NumVal := [s.cfgAmp]

/-- The meaning of MOD. -/
def execMod (s : State) : Host.Outcome State Fault Refusal :=
  guardFinite Config.num (modNums s) (modCmd Config.machine s)

end Sys2Proof.Machine
end

