-- ==== Sys2Proof/Machine/Demodulator.lean ====
section
/-! DEFINITION. The demodulator: phase detector, decision-region decoder, depadding, and the commands DETECT, DECIDE,
DEMOD (R190 to R212). -/

namespace Sys2Proof.Machine

/-- The windows `W_j = SIG[j·N ..< j·N + N]`, `j = 0 .. floor(len(SIG)/N) − 1`; a ragged remainder belongs to none
(R191). -/
def windows (nsps : Nat) (samples : List NumVal) : List (List NumVal) :=
  (List.range (samples.length / nsps)).map fun j => (samples.drop (j * nsps)).take nsps

/-- A correlation coefficient and whether its denominator was zero; it is 0 then (R193, R194, R198). -/
def ratio (num : Numeric) (top den : NumVal) : NumVal × Bool :=
  if num.same den .zero then (.zero, true) else (.div top den, false)

/-- The normalized correlation, "dot product divided by the product of norms" (R193). -/
def ncorr (num : Numeric) (u v : List NumVal) : NumVal × Bool :=
  ratio num (.dot u v) (.sqrt (.mul (.dot u u) (.dot v v)))

/-- `mean(u)` of a sequence of `N` elements (R194). -/
def mean (nsps : Nat) (u : List NumVal) : NumVal := .div (.sum u) (.ofNat nsps)

/-- A sequence with its mean removed (R194). -/
def centred (nsps : Nat) (u : List NumVal) : List NumVal := u.map fun x => .sub x (mean nsps u)

/-- `cov(u, v)` (R194). -/
def cov (nsps : Nat) (u v : List NumVal) : NumVal :=
  .dot (centred nsps u) (centred nsps v)

/-- The Pearson correlation coefficient (R194). -/
def pearson (num : Numeric) (nsps : Nat) (u v : List NumVal) : NumVal × Bool :=
  ratio num (cov nsps u v) (.sqrt (.mul (cov nsps u u) (cov nsps v v)))

/-- The scan of R197 from candidate `k` on: `best` is the coefficient of the index `kBest` selected so far, and a
later candidate is selected only when its coefficient is strictly greater. -/
def scanMax (num : Numeric) (kBest : Nat) (best : NumVal) (k : Nat) : List NumVal → Nat
  | [] => kBest
  | rho :: rest =>
    if num.less best rho then scanMax num k rho (k + 1) rest else scanMax num kBest best (k + 1) rest

/-- The selected index `k*`: the smallest index whose coefficient is the maximum (R197). -/
def selectMax (num : Numeric) : List NumVal → Nat
  | [] => 0
  | rho :: rest => scanMax num 0 rho 1 rest

/-- `e^{iφ} = (cos φ, sin φ)` (R15). -/
def unitPoint (phase : NumVal) : Cplx := { re := .cos phase, im := .sin phase }

/-- The order-2 estimate of a window and whether it is degenerate (R195, R198). The reference is the symbol assigned
to the bit 1 (R192). -/
def estimateBpsk (num : Numeric) (ref window : List NumVal) : Cplx × Bool :=
  let c := ncorr num window ref
  (unitPoint (.arccos (num.clampUnit c.1)), c.2)

/-- The estimate of a window for orders 4, 8 and 16, and whether one of its `M` coefficients is degenerate
(R196, R198). -/
def estimateHigher (num : Numeric) (m nsps : Nat) (amp : NumVal) (window : List NumVal) : Cplx × Bool :=
  let rhos := (List.range m).map fun k => pearson num nsps window (refSymbol nsps amp (nominalPhase m k))
  let kStar := selectMax num (rhos.map Prod.fst)
  (unitPoint (nominalPhase m kStar), rhos.any Prod.snd)

/-- The estimate of one window under the present configuration (R190). -/
def estimate (p : Params) (bps1 : BitVec 2) (nsps : Nat) (amp : NumVal) (window : List NumVal) : Cplx × Bool :=
  if bps1 = 0 then
    estimateBpsk p.num (refSymbol nsps amp (nominalPhase (points bps1) (assign p bps1 1))) window
  else estimateHigher p.num (points bps1) nsps amp window

/-- Step 1 once its preconditions hold: `SYM` becomes the estimates, one per window; DEGEN if a denominator was zero
(R202). -/
def detectWindows (p : Params) (s : State) : State :=
  let ests := (windows s.cfgNsps.toNat s.sig).map (estimate p s.cfgOrder s.cfgNsps.toNat s.cfgAmp)
  raiseIf (ests.any Prod.snd) .degen { s with sym := ests.map Prod.fst }

/-- The bits of one symbol: order 2 by the sign of the real part (R205), orders 4, 8, 16 by the decision regions
(R204), the region of the angle itself, as in DECXY (log entry 21). -/
def decideSymbol (p : Params) (bps1 : BitVec 2) (z : Cplx) : List Bit :=
  if bps1 = 0 then [p.num.less .zero z.re]
  else bitsOf (width bps1) (unassign p bps1 (regionOf p.num (points bps1) (angleOf p.num z)))

/-- All recovered bits, `bits_0 ++ … ++ bits_{S'−1}` (R207). -/
def recovered (p : Params) (s : State) : List Bit := s.sym.flatMap (decideSymbol p s.cfgOrder)

/-- A padding count that cannot be right (R208). -/
def padImpossible (bps1 : BitVec 2) (pad len : Nat) : Bool := decide (width bps1 ≤ pad ∨ len < pad)

/-- Steps 3 and 4: `BITOUT` becomes the recovered bits less the last `min(PAD, len)`; ZEROPT if an angle of `(0, 0)`
was asked, PADERR for an impossible count (R207 to R209). -/
def decideSymbols (p : Params) (s : State) : State :=
  let all := recovered p s
  let pad := s.sigPad.toNat
  raiseIf (padImpossible s.cfgOrder pad all.length) .paderr
    (raiseIf (decide (s.cfgOrder ≠ 0) && s.sym.any p.num.isOrigin) .zeropt
      { s with bitout := all.take (all.length - min pad all.length) })

/-- DETECT (R202). -/
def detectCmd (p : Params) (s : State) : State :=
  if waveConfigLegal p s then detectWindows p s else refuse .cfgerr s

/-- DECIDE (R209): no configuration value but the order is read, so nothing refuses it. -/
def decideCmd (p : Params) (s : State) : State := decideSymbols p s

/-- DEMOD (R210): every precondition is checked before anything is changed or drawn. -/
def demodCmd (p : Params) (s : State) : State :=
  if waveConfigLegal p s && noiseConfigLegal p s then
    decideSymbols p (symbolNoise p (detectWindows p s))
  else refuse .cfgerr s

/-- The Nums that must be finite for DETECT to run (R202): the amplitude and the whole of `SIG`. DESIGN CHOICE (log
entry 10): the samples of the ragged remainder are among them, though they belong to no window (R191). -/
def detectNums (s : State) : List NumVal := s.cfgAmp :: s.sig

/-- The Nums that must be finite for DECIDE to run (R209): both parts of every symbol. DESIGN CHOICE (log entry 10): the
imaginary parts are among them at order 2 too, though R205 does not read them. -/
def decideNums (s : State) : List NumVal := symbolParts s.sym

/-- The Nums that must be finite for DEMOD to run: the strength and those of DETECT, and unless it is refused those of
its second and its third step (R210), with the choices of `detectNums` and `decideNums` (log entry 10). -/
def demodNums (p : Params) (s : State) : List NumVal :=
  let detected := detectWindows p s
  s.cfgNs :: detectNums s ++
    (noisesNums p detected ++ decideNums (symbolNoise p detected)).filter fun _ =>
      waveConfigLegal p s && noiseConfigLegal p s

/-- The meaning of DETECT. -/
def execDetect (s : State) : Host.Outcome State Fault Refusal :=
  guardFinite Config.num (detectNums s) (detectCmd Config.machine s)

/-- The meaning of DECIDE. -/
def execDecide (s : State) : Host.Outcome State Fault Refusal :=
  guardFinite Config.num (decideNums s) (decideCmd Config.machine s)

/-- The meaning of DEMOD. -/
def execDemod (s : State) : Host.Outcome State Fault Refusal :=
  guardFinite Config.num (demodNums Config.machine s) (demodCmd Config.machine s)

end Sys2Proof.Machine
end

