-- ==== Sys2Proof/Machine/Dispatch.lean ====
section
/-! DEFINITION. The meaning of every command, one arm per row of the opcode table (R93). -/

namespace Sys2Proof.Machine

def exec (i : Instr) (s : State) : Host.Outcome State Fault Refusal :=
  match i with
  | .nop => Sys2Proof.Machine.execNop s
  | .srst => Sys2Proof.Machine.execSrst s
  | .clr mask => Sys2Proof.Machine.execClr mask s
  | .enc g => Sys2Proof.Machine.execEnc g s
  | .dec => Sys2Proof.Machine.execDec s
  | .decxy => Sys2Proof.Machine.execDecxy s
  | .mod => Sys2Proof.Machine.execMod s
  | .noisew => Sys2Proof.Machine.execNoisew s
  | .noises => Sys2Proof.Machine.execNoises s
  | .detect => Sys2Proof.Machine.execDetect s
  | .decide => Sys2Proof.Machine.execDecide s
  | .demod => Sys2Proof.Machine.execDemod s

end Sys2Proof.Machine
end

