-- ==== Sys2Proof/Machine/Port.lean ====
section
/-! DEFINITION. The host port: the register map, the effect of every read and write, a command issued by a write to
`CMD`, and one host action (R60 to R73, R92, R270). -/

namespace Sys2Proof.Machine

/-- The registers of the map of R62. -/
inductive Reg where
  | cmd | status | cfgOrder | cfgNsps | cfgAmp | cfgPeriod | cfgNs | sigPad | idx | phaseIn | xIn | yIn
  | resK | resG | resPhase
  | bitinPush | bitinLen | sigPush | sigLen | sigRd | timeRd | symRePush | symImPush | symLen | symReRd | symImRd
  | bitoutLen | bitoutRd
  deriving DecidableEq, Repr

/-- The register at a word address (R62); `none` is a reserved address (R63). -/
def regAt (addr : BitVec 6) : Option Reg :=
  match addr with
  | 0x00 => some .cmd
  | 0x01 => some .status
  | 0x02 => some .cfgOrder
  | 0x03 => some .cfgNsps
  | 0x04 => some .cfgAmp
  | 0x05 => some .cfgPeriod
  | 0x06 => some .cfgNs
  | 0x07 => some .sigPad
  | 0x08 => some .idx
  | 0x09 => some .phaseIn
  | 0x0A => some .xIn
  | 0x0B => some .yIn
  | 0x0C => some .resK
  | 0x0D => some .resG
  | 0x0E => some .resPhase
  | 0x10 => some .bitinPush
  | 0x11 => some .bitinLen
  | 0x12 => some .sigPush
  | 0x13 => some .sigLen
  | 0x14 => some .sigRd
  | 0x15 => some .timeRd
  | 0x16 => some .symRePush
  | 0x17 => some .symImPush
  | 0x18 => some .symLen
  | 0x19 => some .symReRd
  | 0x1A => some .symImRd
  | 0x1B => some .bitoutLen
  | 0x1C => some .bitoutRd
  | _ => none

/-- The value `HostRead` returns for a register. A write-only register reads as 0 (R64); an integer field is
zero-extended (R105); an indexed port with no element at `IDX` reads as 0 (R71). -/
def readReg (s : State) : Reg → PortVal
  | .cmd => .word 0
  | .status => .word (s.status.setWidth 32)
  | .cfgOrder => .word (s.cfgOrder.setWidth 32)
  | .cfgNsps => .word (s.cfgNsps.setWidth 32)
  | .cfgAmp => .num s.cfgAmp
  | .cfgPeriod => .num s.cfgPeriod
  | .cfgNs => .num s.cfgNs
  | .sigPad => .word (s.sigPad.setWidth 32)
  | .idx => .word s.idx
  | .phaseIn => .num s.phaseIn
  | .xIn => .num s.xIn
  | .yIn => .num s.yIn
  | .resK => .word (s.resK.setWidth 32)
  | .resG => .word (s.resG.setWidth 32)
  | .resPhase => .num s.resPhase
  | .bitinPush => .word 0
  | .bitinLen => .word (BitVec.ofNat 32 s.bitin.length)
  | .sigPush => .num .zero
  | .sigLen => .word (BitVec.ofNat 32 s.sig.length)
  | .sigRd => .num ((s.indexed s.sig).getD .zero)
  | .timeRd => .num (timeAxis s)
  | .symRePush => .num .zero
  | .symImPush => .num .zero
  | .symLen => .word (BitVec.ofNat 32 s.sym.length)
  | .symReRd => .num (((s.indexed s.sym).map Cplx.re).getD .zero)
  | .symImRd => .num (((s.indexed s.sym).map Cplx.im).getD .zero)
  | .bitoutLen => .word (BitVec.ofNat 32 s.bitout.length)
  | .bitoutRd => .word (((s.indexed s.bitout).map fun b => (BitVec.ofBool b).setWidth 32).getD 0)

/-- The value `HostRead` returns at an address; a reserved address reads as 0 (R63). -/
def readAddr (addr : BitVec 6) (s : State) : PortVal :=
  match regAt addr with
  | some r => readReg s r
  | none => .word 0

/-- The effect of `HostWrite` on a register other than `CMD`: a read-write register stores its field's low bits
(R64, R105), `STATUS` clears flags (R35), a push register appends (R69), a read-only register ignores the write
(R64). -/
def writeReg (p : Params) (v : PortVal) (s : State) : Reg → State
  | .cmd => s
  | .status => clearFlags (v.asWord p) s
  | .cfgOrder => { s with cfgOrder := (v.asWord p).setWidth 2 }
  | .cfgNsps => { s with cfgNsps := (v.asWord p).setWidth 16 }
  | .cfgAmp => { s with cfgAmp := v.asNum }
  | .cfgPeriod => { s with cfgPeriod := v.asNum }
  | .cfgNs => { s with cfgNs := v.asNum }
  | .sigPad => { s with sigPad := (v.asWord p).setWidth 2 }
  | .idx => { s with idx := v.asWord p }
  | .phaseIn => { s with phaseIn := v.asNum }
  | .xIn => { s with xIn := v.asNum }
  | .yIn => { s with yIn := v.asNum }
  | .resK => s
  | .resG => s
  | .resPhase => s
  | .bitinPush => pushBit p (v.asWord p) s
  | .bitinLen => s
  | .sigPush => pushSample p (v.asNum) s
  | .sigLen => s
  | .sigRd => s
  | .timeRd => s
  | .symRePush => latchRe (v.asNum) s
  | .symImPush => pushSymbol p (v.asNum) s
  | .symLen => s
  | .symReRd => s
  | .symImRd => s
  | .bitoutLen => s
  | .bitoutRd => s

/-- The Nums that must be finite for a write: those it stores or would append, into a full buffer too (DESIGN CHOICE,
log entry 10); none for an integer register, the latch too for a symbol pushed (R69). -/
def writtenNums (v : PortVal) (s : State) : Reg → List NumVal
  | .cmd => []
  | .status => []
  | .cfgOrder => []
  | .cfgNsps => []
  | .cfgAmp => [v.asNum]
  | .cfgPeriod => [v.asNum]
  | .cfgNs => [v.asNum]
  | .sigPad => []
  | .idx => []
  | .phaseIn => [v.asNum]
  | .xIn => [v.asNum]
  | .yIn => [v.asNum]
  | .resK => []
  | .resG => []
  | .resPhase => []
  | .bitinPush => []
  | .bitinLen => []
  | .sigPush => [v.asNum]
  | .sigLen => []
  | .sigRd => []
  | .timeRd => []
  | .symRePush => [v.asNum]
  | .symImPush => [s.symReLatch, v.asNum]
  | .symLen => []
  | .symReRd => []
  | .symImRd => []
  | .bitoutLen => []
  | .bitoutRd => []

/-- The Nums a read computes with: `TIME_RD` is the one register that is not stored (R157). -/
def readNums (addr : BitVec 6) (s : State) : List NumVal :=
  if regAt addr = some .timeRd then timeNums s else []

/-- A word written to `CMD` is executed as a command before the write completes, or refused with CMDERR
(R36, R92, R94). `run` is the meaning of the commands. -/
def issue (run : Instr → State → Host.Outcome State Fault Refusal) (w : Word) (s : State) :
    Host.Outcome State Fault Refusal :=
  match decode w with
  | .ok i => run i s
  | .error _ => .next (refuse .cmderr s)

/-- `HostWrite(addr, v)` (R61); a reserved address ignores it (R63). A value that is not finite is stopped where a Num
register or a buffer would take it (U5; log entry 10). -/
def hostWrite (p : Params) (run : Instr → State → Host.Outcome State Fault Refusal) (addr : BitVec 6) (v : PortVal)
    (s : State) : Host.Outcome State Fault Refusal :=
  match regAt addr with
  | some .cmd => issue run (v.asWord p) s
  | some r => guardFinite p.num (writtenNums v s r) (writeReg p v s r)
  | none => .next s

/-- `HostRead(addr)` (R61): the value goes to the host, no register and no buffer changes (R67). -/
def hostRead (p : Params) (addr : BitVec 6) (s : State) : Host.Outcome State Fault Refusal :=
  guardFinite p.num (readNums addr s) { s with readData := readAddr addr s }

/-- One host action, whole before the next begins (R70). -/
def hostAction (p : Params) (run : Instr → State → Host.Outcome State Fault Refusal) (t : Txn) (s : State) :
    Host.Outcome State Fault Refusal :=
  match t with
  | .write addr v => hostWrite p run addr v s
  | .read addr => hostRead p addr s
  | .reset => .next (resetBlock s)

/-- The next action of a host: performed and taken off the list; while the host issues none, nothing changes
(R21, R70; log entry 5). -/
def nextAction (p : Params) (run : Instr → State → Host.Outcome State Fault Refusal) (s : State) :
    Host.Outcome State Fault Refusal :=
  match s.pending with
  | [] => .next s
  | t :: rest => hostAction p run t { s with pending := rest }

end Sys2Proof.Machine
end

