-- ==== Sys2Proof/Machine/Step.lean ====
section
/-! DEFINITION. One step of the machine: the next host action (R21, R70). The block has no program counter and fetches
nothing; "the order of commands is the order of the host's writes". -/

namespace Sys2Proof.Machine

/-- One step: the host's next action, on the machine's own parameters. -/
def step (s : State) : Host.Outcome State Fault Refusal := nextAction Config.machine exec s

/-- `s` with a write of the command word `w` to `CMD` (address 0x00, R36) as the host's next action. -/
def State.withFetchWord (s : State) (nbits w : Nat) : State :=
  { s with pending := .write 0x00 (.word (BitVec.ofNat 32 (w % 2 ^ nbits))) :: s.pending }

end Sys2Proof.Machine
end

