-- ==== Sys2Proof/Machine/Script.lean ====
section
/-! DEFINITION. Host scripts (R103, R104): register addresses, transactions, mnemonics, pseudo-instructions; and the
machine on given parameters, on which a script is run. -/

namespace Sys2Proof.Machine

/-- The state after a command, on given parameters: the meanings of `exec` without `Config.machine`. -/
def command (p : Params) (i : Instr) (s : State) : State :=
  match i with
  | .nop => nopCmd s
  | .srst => srstCmd s
  | .clr mask => clrCmd mask s
  | .enc g => encCmd p g s
  | .dec => decCmd p s
  | .decxy => decxyCmd p s
  | .mod => modCmd p s
  | .noisew => noisewCmd p s
  | .noises => noisesCmd p s
  | .detect => detectCmd p s
  | .decide => decideCmd p s
  | .demod => demodCmd p s

/-- The Nums that must be finite for a command to run (log entry 10). -/
def commandNums (p : Params) (i : Instr) (s : State) : List NumVal :=
  match i with
  | .nop => []
  | .srst => []
  | .clr _ => []
  | .enc _ => []
  | .dec => decNums s
  | .decxy => decxyNums s
  | .mod => modNums s
  | .noisew => noisewNums p s
  | .noises => noisesNums p s
  | .detect => detectNums s
  | .decide => decideNums s
  | .demod => demodNums p s

/-- The outcome of a command, on given parameters. -/
def outcome (p : Params) (i : Instr) (s : State) : Host.Outcome State Fault Refusal :=
  guardFinite p.num (commandNums p i s) (command p i s)

/-- One step on given parameters: "A model takes `NUM` as an argument" (R7), "`ALPHABET` as a configuration
argument" (R8). -/
def stepWith (p : Params) (s : State) : Host.Outcome State Fault Refusal :=
  nextAction p (outcome p) s

/-- `n` steps on given parameters. -/
def runSteps (p : Params) : Nat → State → State
  | 0, s => s
  | n + 1, s =>
    match stepWith p s with
    | .next t => runSteps p n t
    | .fault _ => s
    | .refused _ => s

/-- The state after the host has performed a script. -/
def runScript (p : Params) (script : List Txn) (s : State) : State :=
  runSteps p script.length { s with pending := script }

/-- The word address of a register (R62). -/
def Reg.addr : Reg → BitVec 6
  | .cmd => 0x00
  | .status => 0x01
  | .cfgOrder => 0x02
  | .cfgNsps => 0x03
  | .cfgAmp => 0x04
  | .cfgPeriod => 0x05
  | .cfgNs => 0x06
  | .sigPad => 0x07
  | .idx => 0x08
  | .phaseIn => 0x09
  | .xIn => 0x0A
  | .yIn => 0x0B
  | .resK => 0x0C
  | .resG => 0x0D
  | .resPhase => 0x0E
  | .bitinPush => 0x10
  | .bitinLen => 0x11
  | .sigPush => 0x12
  | .sigLen => 0x13
  | .sigRd => 0x14
  | .timeRd => 0x15
  | .symRePush => 0x16
  | .symImPush => 0x17
  | .symLen => 0x18
  | .symReRd => 0x19
  | .symImRd => 0x1A
  | .bitoutLen => 0x1B
  | .bitoutRd => 0x1C

/-- `WR <register>, <32-bit value>` (R103). -/
def wr (r : Reg) (v : Word) : Txn := .write r.addr (.word v)

/-- `WR <register>, <Num value>` (R103). -/
def wrNum (r : Reg) (x : NumVal) : Txn := .write r.addr (.num x)

/-- `RD <register>` (R103). -/
def rd (r : Reg) : Txn := .read r.addr

/-- `<MNEMONIC> [operand]`: `WR CMD, <the command word>` (R103). -/
def cmd (i : Instr) : Txn := wr .cmd (encode i)

/-- `CLRALL` (R104). -/
def clrAll : List Txn := [cmd (.clr 0xF)]

/-- `SETORDER BPSK / QPSK / PSK8 / PSK16` for 0, 1, 2, 3 (R104). -/
def setOrder (bps1 : BitVec 2) : List Txn := [wr .cfgOrder (bps1.setWidth 32)]

/-- `PUSHBITS b0 b1 …` (R104). -/
def pushBits (bits : List Bit) : List Txn := bits.map fun b => wr .bitinPush ((BitVec.ofBool b).setWidth 32)

/-- `PUSHSIG x0 x1 …` (R104). -/
def pushSig (xs : List NumVal) : List Txn := xs.map (wrNum .sigPush)

/-- `PUSHSYM (x, y)` (R104). -/
def pushSym (z : Cplx) : List Txn := [wrNum .symRePush z.re, wrNum .symImPush z.im]

/-- `CLRFLAGS` (R104). -/
def clrFlags : List Txn := [wr .status 0x3F]

/-- `GETBIT i` (R104). -/
def getBit (i : Word) : List Txn := [wr .idx i, rd .bitoutRd]

/-- `GETSIG i` (R104). -/
def getSig (i : Word) : List Txn := [wr .idx i, rd .sigRd]

/-- `GETSYM i` (R104). -/
def getSym (i : Word) : List Txn := [wr .idx i, rd .symReRd, rd .symImRd]

end Sys2Proof.Machine
end

