-- ==== Sys2Proof/Safety.lean ====
section
/-! DEFINITION. What the claims about runs are stated in: the invariant of R46 and the assumption
GAUSS_IID (R172). -/

namespace Sys2Proof.Machine

/-- The invariants R46 lists. That a bit is 0 or 1 and that a field fits its width are facts of the types; they are
listed because R46 lists them. -/
structure Invariant (p : Params) (s : State) : Prop where
  bitin_fits : s.bitin.length ≤ p.caps.bitCap
  sig_fits : s.sig.length ≤ p.caps.sigCap
  sym_fits : s.sym.length ≤ p.caps.symCap
  bitout_fits : s.bitout.length ≤ p.caps.bitoutCap
  bits_are_bits : ∀ b ∈ s.bitin ++ s.bitout, b.toNat = 0 ∨ b.toNat = 1
  fields_fit : s.resK.toNat < 16 ∧ s.resG.toNat < 16 ∧ s.sigPad.toNat < 4 ∧ s.cfgOrder.toNat < 4

/-- The assumption GAUSS_IID of R172 on the draws, read as real random variables: independent standard normal values.
"It is used by no exact rule"; only a statement about probabilities has it as a premise. -/
structure GaussIid {Ω : Type} [MeasurableSpace Ω] (μ : MeasureTheory.Measure Ω) (draw : Nat → Ω → ℝ) : Prop where
  independent : ProbabilityTheory.iIndepFun draw μ
  standard_normal : ∀ i, ProbabilityTheory.HasLaw (draw i) (ProbabilityTheory.gaussianReal 0 1) μ

end Sys2Proof.Machine
end

