-- ==== Sys2Proof/Certificates/Slice0/Obligations.lean ====
section
/-! DEFINITION. The statements for the provers. Unless a statement says otherwise it holds for every number system,
alphabet, capacity and draw stream the machine may have (`Config.machine`); the statements "over the reals" hold for
all parameters whose number system is exact real arithmetic (`Numeric.IsReal`, the reference semantics of R7). A Num
of a state is a formula (log entry 17): a statement that gives a register's new formula gives its value, in every
number system. -/

namespace Sys2Proof.Claims

open Sys2Proof.Machine

/-- The host is about to perform the action `t`. -/
def acting (t : Txn) (s : State) : State := { s with pending := t :: s.pending }

/-- The host is about to write the word `w` to `CMD` (address 0x00). -/
def issuing (w : Word) (s : State) : State := acting (.write 0x00 (.word w)) s

/-- `s` with flags set in `STATUS`: 1 CMDERR, 2 CFGERR, 4 OVF, 8 DEGEN, 16 PADERR, 32 ZEROPT; nothing else changed. -/
def flagged (flags : BitVec 6) (s : State) : State := { s with status := s.status ||| flags }

/-- A word of the operation code `opc` whose immediate is not zero is refused with CMDERR. -/
def ZeroImmediateOnly (opc : BitVec 8) : Prop :=
  ∀ (w : Word) (s : State), w.extractLsb' 0 8 = opc → w.extractLsb' 8 24 ≠ 0 →
    step (issuing w s) = .next (flagged 1 s)

/-- A word of the operation code `opc` with a bit of `IMM[23:4]` set is refused with CMDERR. -/
def ReservedImmediateRefused (opc : BitVec 8) : Prop :=
  ∀ (w : Word) (s : State), w.extractLsb' 0 8 = opc → w.extractLsb' 12 20 ≠ 0 →
    step (issuing w s) = .next (flagged 1 s)

/-- `A > 0`. -/
def AmplitudeLegal (s : State) : Prop := Config.num.less .zero s.cfgAmp = true

/-- `NS ≥ 0`. -/
def StrengthLegal (s : State) : Prop := Config.num.atMost .zero s.cfgNs = true

/-- The Num is finite (U5). -/
def FiniteNum (x : NumVal) : Prop := Config.num.isFinite x = true

/-- Both parts of the symbol are finite. -/
def FiniteSymbol (z : Cplx) : Prop := FiniteNum z.re ∧ FiniteNum z.im

/-- Every Num that must be finite for the command to run is: registers, buffers and draws (log entry 10). -/
def FiniteOperands (i : Instr) (s : State) : Prop := ∀ x ∈ commandNums Config.machine i s, FiniteNum x

/-- The Num registers that only the host writes, and the latch, are finite. -/
def HostNumsFinite (s : State) : Prop :=
  FiniteNum s.cfgAmp ∧ FiniteNum s.cfgPeriod ∧ FiniteNum s.cfgNs ∧ FiniteNum s.phaseIn ∧ FiniteNum s.xIn ∧
    FiniteNum s.yIn ∧ FiniteNum s.symReLatch

/-- The value, 0 or 1, of the bit at an index, with zero bits after the end. -/
def bitAt (bits : List Bit) (i : Nat) : Nat := (bits.getD i false).toNat

/-- The group value of the `j`-th group of `w` bits, its first bit the most significant (R100, R151). -/
def groupAt (w : Nat) (bits : List Bit) (j : Nat) : Nat :=
  ∑ i ∈ Finset.range w, bitAt bits (j * w + i) * 2 ^ (w - 1 - i)

/-- The window `SIG[j·N ..< j·N + N]` (R191). -/
def windowAt (s : State) (j : Nat) : List NumVal :=
  (s.sig.drop (j * s.cfgNsps.toNat)).take s.cfgNsps.toNat

/-- The reference `ref_k` of order `bps1` (R192). -/
def reference (bps1 : BitVec 2) (nsps : Nat) (amp : NumVal) (k : Nat) : List NumVal :=
  refSymbol nsps amp (nominalPhase (points bps1) k)

/-- `dot(u, v)` of real sequences (R193). -/
def realDot (u v : List ℝ) : ℝ := (List.zipWith (· * ·) u v).sum

/-- A real sequence with its mean removed (R194). -/
noncomputable def realCentred (u : List ℝ) : List ℝ := u.map fun x => x - u.sum / u.length

/-- The denominator of the normalized correlation: the product of the two Euclidean norms (R193). -/
noncomputable def normProduct (u v : List ℝ) : ℝ := Real.sqrt (realDot u u * realDot v v)

/-- The normalized correlation of real sequences, 0 where its denominator is 0 (R193). -/
noncomputable def realNcorr (u v : List ℝ) : ℝ :=
  if normProduct u v = 0 then 0 else realDot u v / normProduct u v

/-- The Pearson coefficient: "the normalized correlation of the two sequences after each has had its mean removed"
(R194). -/
noncomputable def realPearson (u v : List ℝ) : ℝ := realNcorr (realCentred u) (realCentred v)

/-- The nominal phase `θ_k` as a real number (R120). -/
noncomputable def theta (m k : Nat) : ℝ := (2 * k + 1) * Real.pi / m

/-- `k` is the region of the angle `a ∈ [0, 2π)`: `2πk/M ≤ a < 2π(k+1)/M` (R123, R124). -/
def InRegion (m k : Nat) (a : ℝ) : Prop :=
  0 ≤ a ∧ a < 2 * Real.pi ∧ 2 * Real.pi * k / m ≤ a ∧ a < 2 * Real.pi * (k + 1) / m

/-- The bits of a group value, most significant first (R100). -/
def bitsMsbFirst (w g : Nat) : List Bit := (List.range w).reverse.map g.testBit

/-- The bits DECIDE gives a symbol: order 2 by R205, orders 4, 8, 16 by R204. -/
def symbolBits (p : Params) (bps1 : BitVec 2) (z : Cplx) : List Bit :=
  if bps1 = 0 then [p.num.less .zero z.re]
  else bitsMsbFirst (bps1.toNat + 1)
    (unassign p bps1 (regionOf p.num (2 ^ (bps1.toNat + 1)) (angleOf p.num z)))

end Sys2Proof.Claims

open Sys2Proof Sys2Proof.Machine Sys2Proof.Claims

/-! ### Reset and the invariant -/

/-- R45: after reset all integer fields are 0, all Num registers hold the Num 0, all buffers are empty, all flags 0; the
block is visibly unconfigured: MOD, DETECT and DEMOD are refused until the host configures it. -/
def Obligations.ResetHoldsEveryResetValue : Prop :=
  let s := State.reset
  (s.cfgOrder = 0 ∧ s.cfgNsps = 0 ∧ s.sigPad = 0 ∧ s.idx = 0 ∧ s.resK = 0 ∧ s.resG = 0 ∧ s.status = 0) ∧
  (s.cfgAmp = .rat 0 ∧ s.cfgPeriod = .rat 0 ∧ s.cfgNs = .rat 0 ∧ s.phaseIn = .rat 0 ∧ s.xIn = .rat 0 ∧
    s.yIn = .rat 0 ∧ s.resPhase = .rat 0 ∧ s.symReLatch = .rat 0) ∧
  (s.bitin = [] ∧ s.sig = [] ∧ s.sym = [] ∧ s.bitout = []) ∧
  (∀ i : Instr, i = .mod ∨ i = .detect ∨ i = .demod → exec i s = .next (flagged 2 s))

/-- The invariants of R46 hold after reset. And the Num registers that only the host writes, and the latch, are finite
(U5): that the Num 0 they hold is a finite value of every `NUM` is the model's reading (log entry 11, DEDUCED), not a
rule. -/
def Obligations.ResetMeetsTheInvariant : Prop := Invariant Config.machine State.reset ∧ HostNumsFinite State.reset

/-- The invariants of R46 are kept by every step: "after every host transaction". From every state that meets them. And
no step lets a value that is not finite into a Num register that only the host writes, or the latch: U5 says that such
a value is a fault, and that the fault stands at the write is the model's choice (log entry 10, DESIGN CHOICE); that a
reset leaves a finite 0 there is log entry 11's. -/
def Obligations.EveryStepKeepsTheInvariant : Prop :=
  (∀ s t : State, Invariant Config.machine s → step s = .next t → Invariant Config.machine t) ∧
  (∀ s t : State, HostNumsFinite s → step s = .next t → HostNumsFinite t)

/-- No trap and no stop of the block's own (R250, R259, R285): a command whose values are finite answers the state of
`command`, and every step a next state, unless a Num is not finite. There a model must "reject the state rather than
compute with it" (U5, R254). That it is a fault is U5's word; where the fault stands is the model's choice (log entry
10, DESIGN CHOICE): at a write or a push of such a value, into a full buffer too, so before the check of R69; at a
command whose registers, buffer or draws hold one, before the configuration and capacity checks of R252, an imaginary
part at order 2 and a sample of the ragged remainder among them; and at `TIME_RD` with such a period. Over the reals no
step faults. The statements below that hold for all
parameters `p` reach the machine through this one. -/
def Obligations.StepsCompleteUnlessANumIsNotFinite : Prop :=
  (∀ (i : Instr) (s : State), FiniteOperands i s → exec i s = .next (command Config.machine i s)) ∧
  (∀ (i : Instr) (s : State), exec i s = outcome Config.machine i s) ∧
  (∀ s : State, step s = stepWith Config.machine s) ∧
  (∀ (p : Params) (s : State) (x : NumVal), p.num.isFinite x = false →
    (x = s.phaseIn → outcome p .dec s = .fault .nonFinite) ∧
    (x = s.xIn ∨ x = s.yIn → outcome p .decxy s = .fault .nonFinite) ∧
    (∀ i : Instr, x = s.cfgAmp → i = .mod ∨ i = .detect ∨ i = .demod → outcome p i s = .fault .nonFinite) ∧
    (∀ i : Instr, x = s.cfgNs → i = .noisew ∨ i = .noises ∨ i = .demod → outcome p i s = .fault .nonFinite) ∧
    (∀ i : Instr, x ∈ s.sig → i = .noisew ∨ i = .detect ∨ i = .demod → outcome p i s = .fault .nonFinite) ∧
    (∀ (i : Instr) (z : Cplx), z ∈ s.sym → x = z.re ∨ x = z.im → i = .noises ∨ i = .decide →
      outcome p i s = .fault .nonFinite) ∧
    (∀ k < s.sig.length, p.num.atMost .zero s.cfgNs = true → x = p.gauss (s.drawPos + k) →
      outcome p .noisew s = .fault .nonFinite) ∧
    (∀ k < 2 * s.sym.length, p.num.atMost .zero s.cfgNs = true → x = p.gauss (s.drawPos + k) →
      outcome p .noises s = .fault .nonFinite) ∧
    (∀ k < 2 * (s.sig.length / s.cfgNsps.toNat), 3 ≤ s.cfgNsps.toNat → p.num.less .zero s.cfgAmp = true →
      p.num.atMost .zero s.cfgNs = true → x = p.gauss (s.drawPos + k) → outcome p .demod s = .fault .nonFinite) ∧
    (s.idx.toNat < s.sig.length → 1 ≤ s.cfgNsps.toNat → x = s.cfgPeriod →
      stepWith p (acting (.read 0x15) s) = .fault .nonFinite) ∧
    (∀ (addr : BitVec 6) (v : PortVal), x = v.asNum →
      addr ∈ [0x04#6, 0x05#6, 0x06#6, 0x09#6, 0x0A#6, 0x0B#6, 0x12#6, 0x16#6, 0x17#6] →
      stepWith p (acting (.write addr v) s) = .fault .nonFinite) ∧
    (∀ v : PortVal, x = s.symReLatch → stepWith p (acting (.write 0x17 v) s) = .fault .nonFinite)) ∧
  (∀ (p : Params) (s : State), (∃ t, stepWith p s = .next t) ∨ stepWith p s = .fault .nonFinite) ∧
  (∀ (p : Params) (v : NumVal → ℝ) (s : State), p.num.IsReal v → ∃ t, stepWith p s = .next t)

/-! ### Encoding -/

/-- A word decodes to a command exactly when it is the command's word: decoding what the encoder wrote gives the
command back with every operand, and no other word decodes to it. -/
def Obligations.DecodeAndEncodeAgree : Prop :=
  ∀ (w : Word) (i : Instr), decode w = .ok i ↔ w = encode i

/-- R93: "a word selects the row when `word AND mask = match`", row by row; ENC has the further condition `g < M`. -/
def Obligations.EachRowIsSelectedByItsMaskAndMatch : Prop :=
  ∀ w : Word,
    (decode w = .ok .nop ↔ w &&& 0xFFFFFFFF#32 = 0x00000000#32) ∧
    (decode w = .ok .srst ↔ w &&& 0xFFFFFFFF#32 = 0x00000001#32) ∧
    (∀ m, decode w = .ok (.clr m) ↔ w &&& 0xFFFFF0FF#32 = 0x00000002#32 ∧ w.extractLsb' 8 4 = m) ∧
    (∀ g, decode w = .ok (.enc g) ↔ w &&& 0xFFFFF0FF#32 = 0x00000010#32 ∧ w.extractLsb' 8 4 = g) ∧
    (∀ g bps1, (Instr.enc g).wellFormed bps1 = true ↔ g.toNat < 2 ^ (bps1.toNat + 1)) ∧
    (decode w = .ok .dec ↔ w &&& 0xFFFFFFFF#32 = 0x00000011#32) ∧
    (decode w = .ok .decxy ↔ w &&& 0xFFFFFFFF#32 = 0x00000012#32) ∧
    (decode w = .ok .mod ↔ w &&& 0xFFFFFFFF#32 = 0x00000020#32) ∧
    (decode w = .ok .noisew ↔ w &&& 0xFFFFFFFF#32 = 0x00000030#32) ∧
    (decode w = .ok .noises ↔ w &&& 0xFFFFFFFF#32 = 0x00000031#32) ∧
    (decode w = .ok .detect ↔ w &&& 0xFFFFFFFF#32 = 0x00000040#32) ∧
    (decode w = .ok .decide ↔ w &&& 0xFFFFFFFF#32 = 0x00000041#32) ∧
    (decode w = .ok .demod ↔ w &&& 0xFFFFFFFF#32 = 0x00000042#32)

/-- R92: what a write of any 32-bit word to `CMD` does, check by check. -/
def Obligations.CommandWordsAreCheckedInOrder : Prop :=
  ∀ (w : Word) (s : State),
    let opc := w.extractLsb' 0 8
    let imm := w.extractLsb' 8 24
    let table : List (BitVec 8) := [0x00, 0x01, 0x02, 0x10, 0x11, 0x12, 0x20, 0x30, 0x31, 0x40, 0x41, 0x42]
    (opc ∉ table → step (issuing w s) = .next (flagged 1 s)) ∧
    (opc = 0x10 ∨ opc = 0x02 → imm.extractLsb' 4 20 ≠ 0 → step (issuing w s) = .next (flagged 1 s)) ∧
    (opc ≠ 0x10 → opc ≠ 0x02 → imm ≠ 0 → step (issuing w s) = .next (flagged 1 s)) ∧
    (opc = 0x10 → 2 ^ (s.cfgOrder.toNat + 1) ≤ (imm.extractLsb' 0 4).toNat →
      step (issuing w s) = .next (flagged 1 s)) ∧
    (opc ∈ table → (opc = 0x10 ∨ opc = 0x02 → imm.extractLsb' 4 20 = 0) → (opc ≠ 0x10 → opc ≠ 0x02 → imm = 0) →
      (opc = 0x10 → (imm.extractLsb' 0 4).toNat < 2 ^ (s.cfgOrder.toNat + 1)) →
      ∃ i, decode w = .ok i ∧ i.opcode = opc ∧ step (issuing w s) = exec i s)

/-- R36: "A write executes the written word as a command before the write completes; a read returns 0": when the
host's next action writes a word to `CMD` that decodes to `i`, the step is `exec i` on the state without that action. -/
def Obligations.StepRunsTheDecodedCommand : Prop :=
  (∀ (s : State) (v : PortVal) (rest : List Txn) (i : Instr), s.pending = .write 0x00 v :: rest →
    decode (v.asWord Config.machine) = .ok i → step s = exec i { s with pending := rest }) ∧
  (∀ s : State, step (acting (.read 0x00) s) = .next { s with readData := .word 0 })

/-- A program word placed by `withFetchWord` is the command the very next step runs. -/
def Obligations.FetchWordRunsAsTheNextCommand : Prop :=
  ∀ (s : State) (nbits w : Nat) (i : Instr), decodeTableWord nbits w = some i →
    step (s.withFetchWord nbits w) = exec i s

/-- Words written out from R93 and R104 decode to the commands they stand for. -/
def Obligations.SampleWordsDecode : Prop :=
  decode 0x00000001 = .ok .srst ∧ decode 0x00000F02 = .ok (.clr 0xF) ∧ decode 0x00000310 = .ok (.enc 3) ∧
  decode 0x00000020 = .ok .mod ∧ decode 0x00000031 = .ok .noises ∧ decode 0x00000042 = .ok .demod

/-! ### Control commands -/

/-- R230: NOP, word 0x00000000, changes nothing and takes no draw. -/
def Obligations.NopChangesNothing : Prop :=
  ZeroImmediateOnly 0x00 ∧ decode 0x00000000 = .ok .nop ∧ ∀ s : State, exec .nop s = .next s

/-- R231: SRST gives every register and buffer its reset value and clears all six flags, the only command that clears
one; the Gaussian stream is neither reset nor advanced (nor is anything else outside the block); the state is the one a
hardware reset leaves. -/
def Obligations.SrstRestoresTheResetState : Prop :=
  ZeroImmediateOnly 0x01 ∧ decode 0x00000001 = .ok .srst ∧
  ∀ s : State, exec .srst s = .next
    { cfgOrder := 0, cfgNsps := 0, cfgAmp := .rat 0, cfgPeriod := .rat 0, cfgNs := .rat 0, sigPad := 0, idx := 0,
      phaseIn := .rat 0, xIn := .rat 0, yIn := .rat 0, resK := 0, resG := 0, resPhase := .rat 0, status := 0,
      bitin := [], sig := [], sym := [], symReLatch := .rat 0, bitout := [],
      drawPos := s.drawPos, pending := s.pending, readData := s.readData } ∧
    step (acting .reset s) = exec .srst s ∧
    ∀ (i : Instr) (t : State) (f : Flag), i ≠ .srst → exec i s = .next t → s.hasFlag f = true → t.hasFlag f = true

/-- R270: the hardware reset and SRST "both bring every register and buffer to the reset value"; "the two differ only
in how they are triggered"; neither touches the Gaussian stream. -/
def Obligations.HardwareResetEqualsSrst : Prop :=
  ∀ s : State, step (acting .reset s) = exec .srst s ∧
    step (acting .reset s) = .next
      { State.reset with drawPos := s.drawPos, pending := s.pending, readData := s.readData }

/-- R232: CLR empties exactly the buffers its mask selects, the Signal's padding count with the samples. -/
def Obligations.ClrEmptiesTheSelectedBuffers : Prop :=
  ReservedImmediateRefused 0x02 ∧
  ∀ (mask : BitVec 4) (s : State), exec (.clr mask) s = .next
    { s with
      bitin := if mask.getLsbD 0 then [] else s.bitin
      sig := if mask.getLsbD 1 then [] else s.sig
      sigPad := if mask.getLsbD 1 then 0 else s.sigPad
      sym := if mask.getLsbD 2 then [] else s.sym
      bitout := if mask.getLsbD 3 then [] else s.bitout }

/-! ### Phase alphabet -/

/-- R8: for each order `UNASSIGN_M` is the inverse of `ASSIGN_M`, both ways, on `0 .. M−1`; the default table is the
identity. -/
def Obligations.AssignmentIsABijection : Prop :=
  ∀ (p : Params) (bps1 : BitVec 2) (n : Nat), n < 2 ^ (bps1.toNat + 1) →
    assign p bps1 n < 2 ^ (bps1.toNat + 1) ∧ unassign p bps1 n < 2 ^ (bps1.toNat + 1) ∧
    unassign p bps1 (assign p bps1 n) = n ∧ assign p bps1 (unassign p bps1 n) = n ∧
    (p.alphabet = Alphabet.default → assign p bps1 n = n)

/-- R100: the group value `Σ b_i · 2^(w−1−i)`, "the first bit is the most significant"; `bits_w(g)` is
`[g[w−1], …, g[0]]`. -/
def Obligations.GroupValuesReadTheFirstBitAsMostSignificant : Prop :=
  (∀ group : List Bit,
    groupValue group = ∑ i ∈ Finset.range group.length, bitAt group i * 2 ^ (group.length - 1 - i)) ∧
  (∀ w g : Nat, bitsOf w g = bitsMsbFirst w g) ∧
  (∀ w g : Nat, g < 2 ^ w → groupValue (bitsOf w g) = g)

/-- R120, over the reals: `θ_k = (2k + 1)·π/M`, neighbouring phases differ by `2π/M`. -/
def Obligations.NominalPhasesAreEquallySpaced : Prop :=
  ∀ (num : Numeric) (v : NumVal → ℝ) (bps1 : BitVec 2) (k : Nat), num.IsReal v →
    v (nominalPhase (points bps1) k) = (2 * k + 1) * Real.pi / (2 ^ (bps1.toNat + 1)) ∧
    v (nominalPhase (points bps1) (k + 1)) - v (nominalPhase (points bps1) k) =
      2 * Real.pi / (2 ^ (bps1.toNat + 1))

/-- R130: ENC `g` with `g < M` writes the three result registers and nothing else; `g ≥ M` or a reserved immediate
bit is refused with CMDERR. -/
def Obligations.EncWritesTheNominalPhase : Prop :=
  ReservedImmediateRefused 0x10 ∧
  (∀ (g : BitVec 4) (s : State), 2 ^ (s.cfgOrder.toNat + 1) ≤ g.toNat → exec (.enc g) s = .next (flagged 1 s)) ∧
  (∀ (g : BitVec 4) (s : State) (h : g.toNat < 2 ^ (s.cfgOrder.toNat + 1)),
    let k : Nat := (Config.alphabet s.cfgOrder ⟨g.toNat, h⟩).val
    exec (.enc g) s = .next
      { s with resG := g, resK := BitVec.ofNat 4 k, resPhase := nominalPhase (points s.cfgOrder) k })

/-- R131: DEC writes the region of `PHASE_IN mod 2π`, the group value of that region and its nominal phase, and
nothing else. The region where rounding leaves the quotient outside `0 .. M − 1` is log entry 12's (DESIGN CHOICE). -/
def Obligations.DecWritesTheRegionOfThePhase : Prop :=
  ZeroImmediateOnly 0x11 ∧
  ∀ s : State, FiniteNum s.phaseIn →
    let k := regionOf Config.num (points s.cfgOrder) (NumVal.modTwoPi s.phaseIn)
    exec .dec s = .next
      { s with
        resK := BitVec.ofNat 4 k
        resG := BitVec.ofNat 4 (unassign Config.machine s.cfgOrder k)
        resPhase := nominalPhase (points s.cfgOrder) k }

/-- R132: DECXY does so for the angle of (`X_IN`, `Y_IN`); the point `(0, 0)` takes the angle 0 and sets ZEROPT, the
only flag it can set. That the angle is not reduced again (R132 against R127) is the model's choice (log entry 21), as
is the region where rounding leaves the quotient outside `0 .. M − 1` (log entry 12). -/
def Obligations.DecxyWritesTheRegionOfThePoint : Prop :=
  ZeroImmediateOnly 0x12 ∧
  ∀ s : State, FiniteNum s.xIn → FiniteNum s.yIn →
    let origin := Config.num.same s.xIn .zero && Config.num.same s.yIn .zero
    let a := NumVal.atan2 s.yIn s.xIn
    let angle : NumVal :=
      if origin then .zero else if Config.num.less a .zero then NumVal.add a NumVal.twoPi else a
    let k := regionOf Config.num (points s.cfgOrder) angle
    exec .decxy s = .next
      { s with
        resK := BitVec.ofNat 4 k
        resG := BitVec.ofNat 4 (unassign Config.machine s.cfgOrder k)
        resPhase := nominalPhase (points s.cfgOrder) k
        status := if origin then s.status ||| 32 else s.status }

/-- R127 and R131 over the reals: DEC reduces `PHASE_IN` by whole turns to an angle in `[0, 2π)` and answers the one
region that contains it, the region's nominal phase and its group value. -/
def Obligations.DecOverTheReals : Prop :=
  ∀ (p : Params) (v : NumVal → ℝ) (s : State), p.num.IsReal v →
    let t := decCmd p s
    (∃ turns : ℤ, InRegion (points s.cfgOrder) t.resK.toNat (v s.phaseIn - 2 * Real.pi * turns)) ∧
    t.resK.toNat < points s.cfgOrder ∧
    t.resG.toNat = unassign p s.cfgOrder t.resK.toNat ∧
    v t.resPhase = theta (points s.cfgOrder) t.resK.toNat

/-- R126 and R132 over the reals: for a point that is not `(0, 0)` DECXY answers the region of its angle in
`[0, 2π)`; `(0, 0)` gives region 0 and sets ZEROPT. -/
def Obligations.DecxyOverTheReals : Prop :=
  ∀ (p : Params) (v : NumVal → ℝ) (s : State), p.num.IsReal v →
    let t := decxyCmd p s
    (v s.xIn = 0 → v s.yIn = 0 → t.resK = 0 ∧ t.status = s.status ||| 32) ∧
    (v s.xIn ≠ 0 ∨ v s.yIn ≠ 0 → t.status = s.status ∧
      ∃ r a : ℝ, 0 < r ∧ v s.xIn = r * Real.cos a ∧ v s.yIn = r * Real.sin a ∧
        InRegion (points s.cfgOrder) t.resK.toNat a) ∧
    t.resG.toNat = unassign p s.cfgOrder t.resK.toNat

/-- R124 over the reals: the boundary phase `β_b = 2πb/M` belongs to region `b`, whose closed lower end it is; at the
wrap `2π`, the same angle as 0, belongs to region 0. -/
def Obligations.BoundaryPhasesBelongToTheUpperRegion : Prop :=
  ∀ (p : Params) (v : NumVal → ℝ) (s : State), p.num.IsReal v →
    (∀ b : Nat, b < points s.cfgOrder → v s.phaseIn = 2 * Real.pi * b / points s.cfgOrder →
      (decCmd p s).resK.toNat = b) ∧
    (v s.phaseIn = 2 * Real.pi → (decCmd p s).resK.toNat = 0)

/-- R128(a), over the reals: "encode then decode of any bit group (absent noise) is the identity": ENC `g`, the host
copies `RES_PHASE` to `PHASE_IN`, DEC; for every alphabet. -/
def Obligations.EncThenDecIsTheIdentity : Prop :=
  ∀ (p : Params) (v : NumVal → ℝ) (g : BitVec 4) (s : State), p.num.IsReal v →
    g.toNat < 2 ^ (s.cfgOrder.toNat + 1) →
    let t := encCmd p g s
    let u := decCmd p { t with phaseIn := t.resPhase }
    u.resG = g ∧ u.resK = t.resK

/-- The modulus of the point does not matter to DECXY (derived in R132), over the reals. -/
def Obligations.DecxyIgnoresTheModulus : Prop :=
  ∀ (p : Params) (v : NumVal → ℝ) (s : State) (x y : NumVal) (c : ℝ), p.num.IsReal v → 0 < c →
    v x = c * v s.xIn → v y = c * v s.yIn →
    let t := decxyCmd p s
    let u := decxyCmd p { s with xIn := x, yIn := y }
    u.resK = t.resK ∧ u.resG = t.resG ∧ u.status = t.status

/-! ### Modulator -/

/-- R158 with R151, R152 and R155: MOD refuses an illegal configuration with CFGERR, then a result that does not fit
with OVF; else it writes `A·sin((n/N)·2π + θ_{k_j})` as sample `j·N + n` of every symbol `j`, records the padding
count, consumes `BITIN`, and changes nothing else. -/
def Obligations.ModSynthesizesThePaddedBits : Prop :=
  ZeroImmediateOnly 0x20 ∧
  ∀ s : State, FiniteNum s.cfgAmp →
    let w := s.cfgOrder.toNat + 1
    let n := s.cfgNsps.toNat
    let len := s.bitin.length
    let symbols := (len + w - 1) / w
    (n < 3 ∨ ¬ AmplitudeLegal s → exec .mod s = .next (flagged 2 s)) ∧
    (3 ≤ n → AmplitudeLegal s → Config.caps.sigCap < symbols * n → exec .mod s = .next (flagged 4 s)) ∧
    (3 ≤ n → AmplitudeLegal s → symbols * n ≤ Config.caps.sigCap →
      ∃ sig : List NumVal,
        exec .mod s = .next { s with sig := sig, sigPad := BitVec.ofNat 2 (symbols * w - len), bitin := [] } ∧
        sig.length = symbols * n ∧
        ∀ j < symbols, ∀ i < n, sig[j * n + i]? = some
          (NumVal.mul s.cfgAmp (NumVal.sin (NumVal.add
            (NumVal.mul (NumVal.div (NumVal.rat i) (NumVal.rat n)) NumVal.twoPi)
            (nominalPhase (2 ^ w)
              (assign Config.machine s.cfgOrder (groupAt w s.bitin j)))))))

/-- Derived in R156 and R159, for all parameters: after an executed MOD `len(SIG) = ceil(L/w)·N`, the original length is
`(len(SIG)/N)·w − SIG_PAD`, `SIG_PAD < w`, and an empty `BITIN` gives an empty Signal. -/
def Obligations.ModRecordsTheBitCount : Prop :=
  ∀ (p : Params) (s : State), 3 ≤ s.cfgNsps.toNat → p.num.less .zero s.cfgAmp = true →
    let symbols := (s.bitin.length + s.cfgOrder.toNat) / (s.cfgOrder.toNat + 1)
    symbols * s.cfgNsps.toNat ≤ p.caps.sigCap →
    let t := command p .mod s
    t.sig.length = symbols * s.cfgNsps.toNat ∧
    (t.sig.length / t.cfgNsps.toNat) * (t.cfgOrder.toNat + 1) = s.bitin.length + t.sigPad.toNat ∧
    t.sigPad.toNat < t.cfgOrder.toNat + 1 ∧
    (s.bitin = [] → t.sig = [] ∧ t.sigPad = 0)

/-! ### Channel -/

/-- R174 with R173: NOISEW refuses `NS < 0` with CFGERR and no draw; else it adds `NS × γ_i` to sample `i`, the draws
in ascending order, takes `len(SIG)` draws, and changes nothing else. -/
def Obligations.NoisewAddsOneScaledDrawPerSample : Prop :=
  ZeroImmediateOnly 0x30 ∧
  ∀ s : State, FiniteNum s.cfgNs → (∀ x ∈ s.sig, FiniteNum x) →
    (¬ StrengthLegal s → exec .noisew s = .next (flagged 2 s)) ∧
    (StrengthLegal s → (∀ i < s.sig.length, FiniteNum (Config.gauss (s.drawPos + i))) → ∃ sig : List NumVal,
      exec .noisew s = .next { s with sig := sig, drawPos := s.drawPos + s.sig.length } ∧
      sig.length = s.sig.length ∧
      ∀ (i : Nat) (x : NumVal), s.sig[i]? = some x →
        sig[i]? = some (NumVal.add x (NumVal.mul s.cfgNs (Config.gauss (s.drawPos + i)))))

/-- R176 with R175: NOISES refuses `NS < 0` with CFGERR and no draw; else, with `σ = sqrt(NS/2)`, it adds `σ × γ_{2j}`
to the real and `σ × γ_{2j+1}` to the imaginary part of symbol `j`, takes `2·len(SYM)` draws, and changes nothing
else. -/
def Obligations.NoisesAddsTwoScaledDrawsPerSymbol : Prop :=
  ZeroImmediateOnly 0x31 ∧
  ∀ s : State, FiniteNum s.cfgNs → (∀ z ∈ s.sym, FiniteSymbol z) →
    let sigma := NumVal.sqrt (NumVal.div s.cfgNs (NumVal.rat 2))
    (¬ StrengthLegal s → exec .noises s = .next (flagged 2 s)) ∧
    (StrengthLegal s → (∀ i < 2 * s.sym.length, FiniteNum (Config.gauss (s.drawPos + i))) → ∃ sym : List Cplx,
      exec .noises s = .next { s with sym := sym, drawPos := s.drawPos + 2 * s.sym.length } ∧
      sym.length = s.sym.length ∧
      ∀ (j : Nat) (z : Cplx), s.sym[j]? = some z → sym[j]? = some
        { re := NumVal.add z.re (NumVal.mul sigma (Config.gauss (s.drawPos + 2 * j)))
          im := NumVal.add z.im (NumVal.mul sigma (Config.gauss (s.drawPos + (2 * j + 1)))) })

/-- R171, the number of draws: NOISEW takes one a sample, NOISES and DEMOD two a symbol, whatever `NS` is; a refused
command takes none; no other command and no other host action takes one. -/
def Obligations.DrawsAreTakenOnlyByNoiseCommands : Prop :=
  (∀ (i : Instr) (s t : State), exec i s = .next t →
    (i = .noisew → StrengthLegal s → t.drawPos = s.drawPos + s.sig.length) ∧
    (i = .noises → StrengthLegal s → t.drawPos = s.drawPos + 2 * s.sym.length) ∧
    (i = .demod → 3 ≤ s.cfgNsps.toNat → AmplitudeLegal s → StrengthLegal s →
      t.drawPos = s.drawPos + 2 * (s.sig.length / s.cfgNsps.toNat)) ∧
    (i = .noisew ∨ i = .noises ∨ i = .demod → ¬ StrengthLegal s → t.drawPos = s.drawPos) ∧
    (i = .demod → s.cfgNsps.toNat < 3 ∨ ¬ AmplitudeLegal s → t.drawPos = s.drawPos) ∧
    (i ≠ .noisew → i ≠ .noises → i ≠ .demod → t.drawPos = s.drawPos)) ∧
  (∀ (x : Txn) (s t : State), (∀ v, x ≠ .write 0x00 v) → step (acting x s) = .next t → t.drawPos = s.drawPos)

/-- Derived in R178, over the reals: zero strength leaves the data as it is, and the draws are still taken. -/
def Obligations.ZeroStrengthLeavesTheData : Prop :=
  ∀ (p : Params) (v : NumVal → ℝ) (s : State), p.num.IsReal v → v s.cfgNs = 0 →
    (noisewCmd p s).sig.map v = s.sig.map v ∧
    (noisewCmd p s).drawPos = s.drawPos + s.sig.length ∧
    (noisesCmd p s).sym.map (fun z => (v z.re, v z.im)) = s.sym.map (fun z => (v z.re, v z.im)) ∧
    (noisesCmd p s).drawPos = s.drawPos + 2 * s.sym.length

/-- R173 and R175 read as laws (R277: one register, two scales), under GAUSS_IID (R172) and over the reals. The data and
the strength do not depend on the draws. Then sample `i` after NOISEW is normal with the old sample as its mean and
variance `NS²`, each part of symbol `j` after NOISES is normal with the old part as its mean and variance `NS/2`, and
the values of one command are independent. -/
def Obligations.NoiseIsGaussianOnTwoScales : Prop :=
  ∀ (Ω : Type) [MeasurableSpace Ω] (μ : MeasureTheory.Measure Ω) [MeasureTheory.IsProbabilityMeasure μ]
    (p : Ω → Params) (v : Ω → NumVal → ℝ) (s : State) (ns : ℝ) (x : Nat → ℝ) (re im : Nat → ℝ),
    (∀ ω, (p ω).num.IsReal (v ω)) →
    GaussIid μ (fun i ω => v ω ((p ω).gauss (s.drawPos + i))) →
    0 ≤ ns → (∀ ω, v ω s.cfgNs = ns) →
    (∀ (i : Nat) (a : NumVal), s.sig[i]? = some a → ∀ ω, v ω a = x i) →
    (∀ (j : Nat) (z : Cplx), s.sym[j]? = some z → ∀ ω, v ω z.re = re j ∧ v ω z.im = im j) →
    let sample := fun (i : Fin s.sig.length) (ω : Ω) => v ω ((noisewCmd (p ω) s).sig.getD i .zero)
    let part := fun (k : Fin s.sym.length × Bool) (ω : Ω) =>
      let z := (noisesCmd (p ω) s).sym.getD k.1 ⟨.zero, .zero⟩
      v ω (if k.2 then z.im else z.re)
    (∀ i, ProbabilityTheory.HasLaw (sample i) (ProbabilityTheory.gaussianReal (x i) (ns ^ 2).toNNReal) μ) ∧
    ProbabilityTheory.iIndepFun sample μ ∧
    (∀ k, ProbabilityTheory.HasLaw (part k)
      (ProbabilityTheory.gaussianReal (if k.2 then im k.1 else re k.1) (ns / 2).toNNReal) μ) ∧
    ProbabilityTheory.iIndepFun part μ

/-! ### Demodulator: the phase detector -/

/-- R202 with R191: DETECT refuses an illegal configuration with CFGERR; else `SYM` becomes the estimates of the
`floor(len(SIG)/N)` windows in order, DEGEN is set if a coefficient had a zero denominator, and nothing else
changes. -/
def Obligations.DetectEstimatesEveryWindow : Prop :=
  ZeroImmediateOnly 0x40 ∧
  ∀ s : State, FiniteNum s.cfgAmp → (∀ x ∈ s.sig, FiniteNum x) →
    let n := s.cfgNsps.toNat
    let est := fun j => estimate Config.machine s.cfgOrder n s.cfgAmp (windowAt s j)
    (n < 3 ∨ ¬ AmplitudeLegal s → exec .detect s = .next (flagged 2 s)) ∧
    (3 ≤ n → AmplitudeLegal s → ∃ sym : List Cplx,
      exec .detect s = .next
        { s with
          sym := sym
          status := s.status ||| (if (List.range (s.sig.length / n)).any (fun j => (est j).2) then 8 else 0) } ∧
      sym.length = s.sig.length / n ∧
      ∀ j < s.sig.length / n, sym[j]? = some (est j).1)

/-- R191: the samples after the last whole window "belong to no window and are ignored without a flag": DETECT on the
whole windows alone leaves the same symbols and flags. -/
def Obligations.WindowsIgnoreTheRaggedRemainder : Prop :=
  ∀ s t : State, exec .detect s = .next t →
    let whole := s.sig.take (s.sig.length / s.cfgNsps.toNat * s.cfgNsps.toNat)
    exec .detect { s with sig := whole } = .next { t with sig := whole }

/-- R193 and R194 over the reals: the detector's coefficients are the normalized correlation and the Pearson
coefficient, 0 and degenerate exactly where the denominator is 0, and within `[−1, 1]`. -/
def Obligations.CoefficientsAreTheCorrelations : Prop :=
  ∀ (num : Numeric) (v : NumVal → ℝ) (n : Nat) (x y : List NumVal), num.IsReal v → 0 < n →
    x.length = n → y.length = n →
    v (ncorr num x y).1 = realNcorr (x.map v) (y.map v) ∧
    ((ncorr num x y).2 = true ↔ normProduct (x.map v) (y.map v) = 0) ∧
    v (pearson num n x y).1 = realPearson (x.map v) (y.map v) ∧
    ((pearson num n x y).2 = true ↔ normProduct (realCentred (x.map v)) (realCentred (y.map v)) = 0) ∧
    |v (ncorr num x y).1| ≤ 1 ∧ |v (pearson num n x y).1| ≤ 1

/-- R197 over the reals: the selected index is the smallest one whose coefficient is the maximum. -/
def Obligations.SelectionTakesTheSmallestMaximum : Prop :=
  ∀ (num : Numeric) (v : NumVal → ℝ) (rhos : List NumVal), num.IsReal v → rhos ≠ [] →
    ∃ best, rhos[selectMax num rhos]? = some best ∧
      (∀ (k : Nat) (rho : NumVal), rhos[k]? = some rho → v rho ≤ v best) ∧
      (∀ (k : Nat) (rho : NumVal), k < selectMax num rhos → rhos[k]? = some rho → v rho < v best)

/-- R195 over the reals, with R192, R198 and R199: for order 2 the estimate is `(c, sqrt(1 − c²))` for the normalized
correlation `c` of the window with the reference of the symbol assigned to bit 1; degenerate exactly when the
denominator is 0. -/
def Obligations.BpskEstimateOverTheReals : Prop :=
  ∀ (p : Params) (v : NumVal → ℝ) (n : Nat) (amp : NumVal) (window : List NumVal), p.num.IsReal v → 0 < n →
    window.length = n →
    let ref := (reference 0 n amp (assign p 0 1)).map v
    let c := realNcorr (window.map v) ref
    let est := estimate p 0 n amp window
    v est.1.re = c ∧ v est.1.im = Real.sqrt (1 - c ^ 2) ∧ 0 ≤ v est.1.im ∧
    (est.2 = true ↔ normProduct (window.map v) ref = 0)

/-- R196 over the reals, with R197: for orders 4, 8, 16 the estimate is `e^{iθ_k}` for the smallest `k` among the `M`
candidates whose Pearson coefficient with the window is the maximum. It is degenerate exactly when the denominator of
one of the `M` coefficients is 0 (R198, R202). -/
def Obligations.HigherOrderEstimateOverTheReals : Prop :=
  ∀ (p : Params) (v : NumVal → ℝ) (bps1 : BitVec 2) (n : Nat) (amp : NumVal) (window : List NumVal),
    p.num.IsReal v → bps1 ≠ 0 → 0 < n → window.length = n →
    let rho := fun k => realPearson (window.map v) ((reference bps1 n amp k).map v)
    let est := estimate p bps1 n amp window
    ∃ k < points bps1, (∀ j < points bps1, rho j ≤ rho k) ∧ (∀ j < k, rho j < rho k) ∧
      v est.1.re = Real.cos (theta (points bps1) k) ∧ v est.1.im = Real.sin (theta (points bps1) k) ∧
      (est.2 = true ↔ ∃ j < points bps1,
        normProduct (realCentred (window.map v)) (realCentred ((reference bps1 n amp j).map v)) = 0)

/-- R198 over the reals: a degenerate window takes the fallback and is reported: order 2, an all-zero window gives
`(0, 1)`, which decides as bit 0; orders 4, 8, 16, a window of equal samples gives `e^{iθ_0}`. -/
def Obligations.DegenerateWindowsTakeTheFallback : Prop :=
  ∀ (p : Params) (v : NumVal → ℝ) (n : Nat) (amp : NumVal) (window : List NumVal), p.num.IsReal v → 0 < n →
    window.length = n →
    ((∀ x ∈ window, v x = 0) →
      let est := estimate p 0 n amp window
      est.2 = true ∧ v est.1.re = 0 ∧ v est.1.im = 1 ∧ symbolBits p 0 est.1 = [false]) ∧
    (∀ (bps1 : BitVec 2) (c : ℝ), bps1 ≠ 0 → (∀ x ∈ window, v x = c) →
      let est := estimate p bps1 n amp window
      est.2 = true ∧ v est.1.re = Real.cos (theta (points bps1) 0) ∧ v est.1.im = Real.sin (theta (points bps1) 0))

/-- Derived in R200, over the reals: for `N ≥ 3` and `A > 0` two references correlate, by either coefficient, as the
cosine of the difference of their phases, and neither coefficient is degenerate. -/
def Obligations.ReferencesCorrelateAsCosines : Prop :=
  ∀ (p : Params) (v : NumVal → ℝ) (bps1 : BitVec 2) (n : Nat) (amp : NumVal) (j k : Nat), p.num.IsReal v →
    3 ≤ n → 0 < v amp →
    let u := reference bps1 n amp j
    let w := reference bps1 n amp k
    v (ncorr p.num u w).1 = Real.cos (theta (points bps1) j - theta (points bps1) k) ∧
    v (pearson p.num n u w).1 = Real.cos (theta (points bps1) j - theta (points bps1) k) ∧
    (ncorr p.num u w).2 = false ∧ (pearson p.num n u w).2 = false

/-- Derived in R200 and R201, over the reals: a clean symbol is detected: order 2 as `(1, 0)` for the bit-1 symbol and
`(−1, 0)` for the other, orders 4, 8, 16 as its own constellation point; without DEGEN. -/
def Obligations.CleanSymbolsAreDetected : Prop :=
  ∀ (p : Params) (v : NumVal → ℝ) (bps1 : BitVec 2) (n : Nat) (amp : NumVal) (k : Nat), p.num.IsReal v →
    3 ≤ n → 0 < v amp → k < points bps1 →
    let est := estimate p bps1 n amp (reference bps1 n amp k)
    est.2 = false ∧
    (bps1 = 0 → v est.1.re = (if k = assign p 0 1 then 1 else -1) ∧ v est.1.im = 0) ∧
    (bps1 ≠ 0 → v est.1.re = Real.cos (theta (points bps1) k) ∧ v est.1.im = Real.sin (theta (points bps1) k))

/-- Derived in R212, over the reals: DETECT and DEMOD recover the same whatever the (positive) amplitude register
holds. -/
def Obligations.AmplitudeDoesNotMatter : Prop :=
  ∀ (p : Params) (v : NumVal → ℝ) (s : State) (amp : NumVal), p.num.IsReal v → 3 ≤ s.cfgNsps.toNat →
    0 < v s.cfgAmp → 0 < v amp →
    (detectCmd p { s with cfgAmp := amp }).sym.map (fun z => (v z.re, v z.im)) =
      (detectCmd p s).sym.map (fun z => (v z.re, v z.im)) ∧
    (detectCmd p { s with cfgAmp := amp }).status = (detectCmd p s).status ∧
    (demodCmd p { s with cfgAmp := amp }).bitout = (demodCmd p s).bitout

/-! ### Demodulator: decision and the whole -/

/-- R209 with R204, R205, R207 and R208: DECIDE concatenates the bits of the symbols, removes the last
`min(PAD, len)`, sets PADERR for an impossible count and ZEROPT where an angle of `(0, 0)` was asked, and changes
nothing else. The region is that of the angle itself, as R204 writes it (log entries 12 and 21 under a finite
`NUM`). -/
def Obligations.DecideRecoversAndTrimsTheBits : Prop :=
  ZeroImmediateOnly 0x41 ∧
  ∀ s : State, (∀ z ∈ s.sym, FiniteSymbol z) →
    let all := s.sym.flatMap (symbolBits Config.machine s.cfgOrder)
    let pad := s.sigPad.toNat
    let padWrong : Bool := s.cfgOrder.toNat + 1 ≤ pad ∨ all.length < pad
    let zero : Bool := s.cfgOrder ≠ 0 ∧
      ∃ z ∈ s.sym, (Config.num.same z.re .zero && Config.num.same z.im .zero) = true
    exec .decide s = .next
      { s with
        bitout := all.take (all.length - min pad all.length)
        status := s.status ||| (if padWrong then 16 else 0) ||| (if zero then 32 else 0) } ∧
    all.length = (s.cfgOrder.toNat + 1) * s.sym.length

/-- R204: for orders 4, 8, 16 the decision is "the same function DECXY computes", bit for bit. -/
def Obligations.DecideAgreesWithDecxy : Prop :=
  ∀ (p : Params) (s : State) (z : Cplx), s.cfgOrder ≠ 0 →
    decideSymbol p s.cfgOrder z =
      bitsMsbFirst (s.cfgOrder.toNat + 1) (decxyCmd p { s with xIn := z.re, yIn := z.im }).resG.toNat

/-- R210: DEMOD refuses an illegal configuration with CFGERR and changes nothing else; else it is DETECT, NOISES and
DECIDE in that order, with `SIG` and `SIG_PAD` unchanged. -/
def Obligations.DemodIsItsThreeSteps : Prop :=
  ZeroImmediateOnly 0x42 ∧
  ∀ s : State, FiniteNum s.cfgAmp → FiniteNum s.cfgNs → (∀ x ∈ s.sig, FiniteNum x) →
    let detected := detectCmd Config.machine s
    (s.cfgNsps.toNat < 3 ∨ ¬ AmplitudeLegal s ∨ ¬ StrengthLegal s → exec .demod s = .next (flagged 2 s)) ∧
    (3 ≤ s.cfgNsps.toNat → AmplitudeLegal s → StrengthLegal s →
      (∀ z ∈ detected.sym, FiniteSymbol z) →
      (∀ k < 2 * detected.sym.length, FiniteNum (Config.gauss (s.drawPos + k))) →
      (∀ z ∈ (noisesCmd Config.machine detected).sym, FiniteSymbol z) →
      ∃ a b c : State, exec .detect s = .next a ∧ exec .noises a = .next b ∧ exec .decide b = .next c ∧
        exec .demod s = .next c ∧
        c = { s with sym := c.sym, bitout := c.bitout, status := c.status, drawPos := c.drawPos })

/-- Derived in R218, over the reals: MOD then DEMOD with `NS = 0` reproduces the bits exactly and sets no flag, for
every order, alphabet, `N ≥ 3`, `A > 0` and draw sequence, whenever MOD's result fits. -/
def Obligations.RoundTripWithoutNoise : Prop :=
  ∀ (p : Params) (v : NumVal → ℝ) (s : State), p.num.IsReal v → 3 ≤ s.cfgNsps.toNat → 0 < v s.cfgAmp →
    v s.cfgNs = 0 →
    (s.bitin.length + s.cfgOrder.toNat) / (s.cfgOrder.toNat + 1) * s.cfgNsps.toNat ≤ p.caps.sigCap →
    (demodCmd p (modCmd p s)).bitout = s.bitin ∧ (demodCmd p (modCmd p s)).status = s.status

/-- Derived in R219, for all parameters: the recovered length is the original length, whatever the draws and the
strength, with NOISEW in between or not. -/
def Obligations.RecoveredLengthIsTheOriginalLength : Prop :=
  ∀ (p : Params) (s : State), 3 ≤ s.cfgNsps.toNat → p.num.less .zero s.cfgAmp = true →
    p.num.atMost .zero s.cfgNs = true →
    (s.bitin.length + s.cfgOrder.toNat) / (s.cfgOrder.toNat + 1) * s.cfgNsps.toNat ≤ p.caps.sigCap →
    (command p .demod (command p .mod s)).bitout.length = s.bitin.length ∧
    (command p .demod (command p .noisew (command p .mod s))).bitout.length = s.bitin.length

/-! ### Flags -/

/-- R35: a flag stays set until the host clears it or the block is reset; a write of `v` to `STATUS` clears exactly
the flags whose bit in `v[5:0]` is 1; a read returns the flags, bits 31:6 zero; no command reads `STATUS`. -/
def Obligations.StatusFlagsAreStickyAndWriteOneToClear : Prop :=
  (∀ (i : Instr) (s t : State) (f : Flag), i ≠ .srst → exec i s = .next t → s.hasFlag f = true → t.hasFlag f = true) ∧
  (∀ (v : Word) (s : State), ∃ st : BitVec 6,
    step (acting (.write 0x01 (.word v)) s) = .next { s with status := st } ∧
    ∀ k < 6, st.getLsbD k = (s.status.getLsbD k && !v.getLsbD k)) ∧
  (∀ s : State, step (acting (.read 0x01) s) = .next { s with readData := .word (s.status.setWidth 32) }) ∧
  (∀ (i : Instr) (s t : State) (st : BitVec 6), exec i s = .next t →
    ∃ st' : BitVec 6, exec i { s with status := st } = .next { t with status := st' }) ∧
  State.reset.status = 0

/-- Who may set which flag (R242 to R247), for all parameters: a command that sets a flag that was clear is one that the
flag's rule names. -/
def Obligations.FlagsAreRaisedOnlyByTheirOwnCommands : Prop :=
  ∀ (p : Params) (i : Instr) (s : State) (f : Flag), s.hasFlag f = false → (command p i s).hasFlag f = true →
    (f = .cmderr → ∃ g, i = .enc g ∧ 2 ^ (s.cfgOrder.toNat + 1) ≤ g.toNat) ∧
    (f = .cfgerr → i = .mod ∨ i = .detect ∨ i = .demod ∨ i = .noisew ∨ i = .noises) ∧
    (f = .ovf → i = .mod) ∧
    (f = .degen → i = .detect ∨ i = .demod) ∧
    (f = .paderr → i = .decide ∨ i = .demod) ∧
    (f = .zeropt → i = .decxy ∨ (s.cfgOrder ≠ 0 ∧ (i = .decide ∨ i = .demod)))

/-- R243: CFGERR is raised, and the command refused, exactly when a value the command needs is not legal; writing an
illegal value raises nothing; NOP, SRST, CLR, ENC, DEC, DECXY and DECIDE never raise it. -/
def Obligations.IllegalConfigurationIsRefusedWithCfgerr : Prop :=
  (∀ (i : Instr) (s : State), FiniteOperands i s → (i = .mod ∨ i = .detect ∨ i = .demod) →
    s.cfgNsps.toNat < 3 ∨ Config.num.atMost s.cfgAmp .zero = true → exec i s = .next (flagged 2 s)) ∧
  (∀ (i : Instr) (s : State), FiniteOperands i s → (i = .demod ∨ i = .noisew ∨ i = .noises) →
    Config.num.less s.cfgNs .zero = true → exec i s = .next (flagged 2 s)) ∧
  (∀ (i : Instr) (s t : State), exec i s = .next t → s.hasFlag .cfgerr = false → t.hasFlag .cfgerr = true →
    ((i = .mod ∨ i = .detect ∨ i = .demod) ∧ (s.cfgNsps.toNat < 3 ∨ Config.num.atMost s.cfgAmp .zero = true)) ∨
    ((i = .demod ∨ i = .noisew ∨ i = .noises) ∧ Config.num.less s.cfgNs .zero = true)) ∧
  (∀ (addr : BitVec 6) (v : PortVal) (s t : State), 0x02 ≤ addr → addr ≤ 0x07 →
    step (acting (.write addr v) s) = .next t → t.status = s.status)

/-! ### Whole-machine frames -/

/-- The column "written by" of R22: a command changes a register or buffer only where the column names it; SRST is the
one command that writes the rest. -/
def Obligations.CommandsWriteOnlyTheirOwnRegisters : Prop :=
  ∀ (i : Instr) (s t : State), exec i s = .next t → i ≠ .srst →
    (t.cfgOrder = s.cfgOrder ∧ t.cfgNsps = s.cfgNsps ∧ t.cfgAmp = s.cfgAmp ∧ t.cfgPeriod = s.cfgPeriod ∧
      t.cfgNs = s.cfgNs ∧ t.idx = s.idx ∧ t.phaseIn = s.phaseIn ∧ t.xIn = s.xIn ∧ t.yIn = s.yIn ∧
      t.symReLatch = s.symReLatch ∧ t.pending = s.pending ∧ t.readData = s.readData) ∧
    ((∀ m, i ≠ .clr m) → i ≠ .mod → t.sigPad = s.sigPad ∧ t.bitin = s.bitin) ∧
    ((∀ m, i ≠ .clr m) → i ≠ .mod → i ≠ .noisew → t.sig = s.sig) ∧
    ((∀ m, i ≠ .clr m) → i ≠ .detect → i ≠ .noises → i ≠ .demod → t.sym = s.sym) ∧
    ((∀ m, i ≠ .clr m) → i ≠ .decide → i ≠ .demod → t.bitout = s.bitout) ∧
    ((∀ g, i ≠ .enc g) → i ≠ .dec → i ≠ .decxy →
      t.resK = s.resK ∧ t.resG = s.resG ∧ t.resPhase = s.resPhase)

/-- The column "read by" of R22 (R26, R29, R40): no command's effect depends on `CFG_PERIOD`, `IDX` or the
latch. -/
def Obligations.NoCommandReadsPeriodIndexOrLatch : Prop :=
  ∀ (i : Instr) (s t : State) (period latch : NumVal) (idx : BitVec 32), i ≠ .srst → exec i s = .next t →
    exec i { s with cfgPeriod := period, idx := idx, symReLatch := latch } =
      .next { t with cfgPeriod := period, idx := idx, symReLatch := latch }

/-! ### The host port -/

/-- R67: no read changes any register or buffer, and two reads with nothing between return the same value: the value
read, `r`, depends neither on what was read before nor on what the host does next. And what a read of a result register
returns (R32 to R34): the phase index and the group value in bits 3:0, bits 31:4 zero, and the nominal phase. -/
def Obligations.ReadsHaveNoSideEffects : Prop :=
  (∀ (addr : BitVec 6) (s : State), (addr = 0x15 → FiniteNum s.cfgPeriod) →
    ∃ r : PortVal, ∀ (x : PortVal) (rest : List Txn), step { s with pending := .read addr :: rest, readData := x } =
      .next { s with pending := rest, readData := r }) ∧
  (∀ s : State,
    step (acting (.read 0x0C) s) = .next { s with readData := .word (s.resK.setWidth 32) } ∧
    step (acting (.read 0x0D) s) = .next { s with readData := .word (s.resG.setWidth 32) } ∧
    step (acting (.read 0x0E) s) = .next { s with readData := .num s.resPhase })

/-- A reserved address reads as 0 and ignores writes; neither sets a flag (R63). That the 0 is the integer 0 is the
model's reading, not the rule's (log entry 18, DEDUCED). -/
def Obligations.ReservedAddressesAreInert : Prop :=
  ∀ (addr : BitVec 6) (v : PortVal) (s : State), addr = 0x0F ∨ 0x1D ≤ addr →
    step (acting (.write addr v) s) = .next s ∧
    step (acting (.read addr) s) = .next { s with readData := .word 0 }

/-- R64: a write to a read-only register is ignored; a write-only register reads as 0; a read-write integer register
stores its field's bits, a read-write Num register the value; no other register changes and no flag is set. -/
def Obligations.AccessRightsOfTheRegisters : Prop :=
  (∀ (addr : BitVec 6) (v : PortVal) (s : State),
    addr ∈ [0x0C#6, 0x0D#6, 0x0E#6, 0x11#6, 0x13#6, 0x14#6, 0x15#6, 0x18#6, 0x19#6, 0x1A#6, 0x1B#6, 0x1C#6] →
    step (acting (.write addr v) s) = .next s) ∧
  (∀ s : State,
    step (acting (.read 0x00) s) = .next { s with readData := .word 0 } ∧
    step (acting (.read 0x10) s) = .next { s with readData := .word 0 } ∧
    step (acting (.read 0x12) s) = .next { s with readData := .num (.rat 0) } ∧
    step (acting (.read 0x16) s) = .next { s with readData := .num (.rat 0) } ∧
    step (acting (.read 0x17) s) = .next { s with readData := .num (.rat 0) }) ∧
  (∀ (v : Word) (s : State),
    step (acting (.write 0x02 (.word v)) s) = .next { s with cfgOrder := v.extractLsb' 0 2 } ∧
    step (acting (.write 0x03 (.word v)) s) = .next { s with cfgNsps := v.extractLsb' 0 16 } ∧
    step (acting (.write 0x07 (.word v)) s) = .next { s with sigPad := v.extractLsb' 0 2 } ∧
    step (acting (.write 0x08 (.word v)) s) = .next { s with idx := v }) ∧
  (∀ (x : NumVal) (s : State), FiniteNum x →
    step (acting (.write 0x04 (.num x)) s) = .next { s with cfgAmp := x } ∧
    step (acting (.write 0x05 (.num x)) s) = .next { s with cfgPeriod := x } ∧
    step (acting (.write 0x06 (.num x)) s) = .next { s with cfgNs := x } ∧
    step (acting (.write 0x09 (.num x)) s) = .next { s with phaseIn := x } ∧
    step (acting (.write 0x0A (.num x)) s) = .next { s with xIn := x } ∧
    step (acting (.write 0x0B (.num x)) s) = .next { s with yIn := x })

/-- "A register write is visible to the very next transaction" (R73): what is written to a read-write register is
read back, an integer cut to its field (R23, R24, R28). -/
def Obligations.WrittenRegistersReadBack : Prop :=
  ∀ (s : State) (rest : List Txn),
    (∀ (addr : BitVec 6) (mask v : Word),
      (addr, mask) ∈ [(0x02#6, 0x3#32), (0x03#6, 0xFFFF#32), (0x07#6, 0x3#32), (0x08#6, 0xFFFFFFFF#32)] →
      ∃ t, Host.Core.run Sys2Proof.core 2 { s with pending := .write addr (.word v) :: .read addr :: rest } = .next t ∧
        t.readData = .word (v &&& mask) ∧ t.pending = rest) ∧
    (∀ (addr : BitVec 6) (x : NumVal), FiniteNum x → addr ∈ [0x04#6, 0x05#6, 0x06#6, 0x09#6, 0x0A#6, 0x0B#6] →
      ∃ t, Host.Core.run Sys2Proof.core 2 { s with pending := .write addr (.num x) :: .read addr :: rest } = .next t ∧
        t.readData = .num x ∧ t.pending = rest)

/-- R69: the push registers append to their buffer, or drop the element and set OVF when it is full; `SYM_RE_PUSH`
stores the latch; no other register changes. -/
def Obligations.PushRegistersAppendOrOverflow : Prop :=
  (∀ (v : Word) (s : State),
    (s.bitin.length = Config.caps.bitCap → step (acting (.write 0x10 (.word v)) s) = .next (flagged 4 s)) ∧
    (s.bitin.length ≠ Config.caps.bitCap →
      step (acting (.write 0x10 (.word v)) s) = .next { s with bitin := s.bitin ++ [v.getLsbD 0] })) ∧
  (∀ (x : NumVal) (s : State), FiniteNum x →
    (s.sig.length = Config.caps.sigCap → step (acting (.write 0x12 (.num x)) s) = .next (flagged 4 s)) ∧
    (s.sig.length ≠ Config.caps.sigCap →
      step (acting (.write 0x12 (.num x)) s) = .next { s with sig := s.sig ++ [x] }) ∧
    step (acting (.write 0x16 (.num x)) s) = .next { s with symReLatch := x } ∧
    (FiniteNum s.symReLatch → s.sym.length = Config.caps.symCap →
      step (acting (.write 0x17 (.num x)) s) = .next (flagged 4 s)) ∧
    (FiniteNum s.symReLatch → s.sym.length ≠ Config.caps.symCap →
      step (acting (.write 0x17 (.num x)) s) = .next { s with sym := s.sym ++ [⟨s.symReLatch, x⟩] }))

/-- R71 and R157: the indexed read ports return the element at `IDX`, or zero when there is none; `TIME_RD` returns
`(IDX × T)/N` where there is a sample and `N ≥ 1`. -/
def Obligations.IndexedReadPortsReturnTheElement : Prop :=
  ∀ s : State,
    let i := s.idx.toNat
    (∀ x, s.sig[i]? = some x → step (acting (.read 0x14) s) = .next { s with readData := .num x }) ∧
    (s.sig.length ≤ i → step (acting (.read 0x14) s) = .next { s with readData := .num (.rat 0) }) ∧
    (∀ z, s.sym[i]? = some z → step (acting (.read 0x19) s) = .next { s with readData := .num z.re } ∧
      step (acting (.read 0x1A) s) = .next { s with readData := .num z.im }) ∧
    (s.sym.length ≤ i → step (acting (.read 0x19) s) = .next { s with readData := .num (.rat 0) } ∧
      step (acting (.read 0x1A) s) = .next { s with readData := .num (.rat 0) }) ∧
    (∀ b, s.bitout[i]? = some b →
      step (acting (.read 0x1C) s) = .next { s with readData := .word (BitVec.ofNat 32 b.toNat) }) ∧
    (s.bitout.length ≤ i → step (acting (.read 0x1C) s) = .next { s with readData := .word 0 }) ∧
    (i < s.sig.length → 1 ≤ s.cfgNsps.toNat → FiniteNum s.cfgPeriod → step (acting (.read 0x15) s) = .next
      { s with readData := .num (NumVal.div (NumVal.mul (NumVal.rat i) s.cfgPeriod)
        (NumVal.rat s.cfgNsps.toNat)) }) ∧
    (s.sig.length ≤ i ∨ s.cfgNsps = 0 →
      step (acting (.read 0x15) s) = .next { s with readData := .num (.rat 0) })

/-- R72: the length registers return the current lengths as 32-bit numbers, and no length wraps while the capacities
are respected. -/
def Obligations.LengthRegistersCountTheBuffers : Prop :=
  ∀ s : State, Invariant Config.machine s →
    ∃ a b c d : Word,
      step (acting (.read 0x11) s) = .next { s with readData := .word a } ∧ a.toNat = s.bitin.length ∧
      step (acting (.read 0x13) s) = .next { s with readData := .word b } ∧ b.toNat = s.sig.length ∧
      step (acting (.read 0x18) s) = .next { s with readData := .word c } ∧ c.toNat = s.sym.length ∧
      step (acting (.read 0x1B) s) = .next { s with readData := .word d } ∧ d.toNat = s.bitout.length

/-- The pseudo-instruction PUSHBITS (R104), performed step by step on any parameters, appends its bits to `BITIN` in
order while they fit, and changes nothing else. -/
def Obligations.PushBitsScriptAppendsInOrder : Prop :=
  ∀ (p : Params) (s : State) (bits : List Bit) (rest : List Txn), s.bitin.length + bits.length ≤ p.caps.bitCap →
    runSteps p bits.length { s with pending := pushBits bits ++ rest } =
      { s with pending := rest, bitin := s.bitin ++ bits }
end

