-- ==== Sys2Proof/Laws/Numeric.lean ====
section
/-! SUPPORT. The order of a number system, what a number system says of a formula over the reals, and the reference
number system: `Num = ℝ` (R7). -/

namespace Sys2Proof

/-! ### The order of `NUM` -/

section Order
variable (num : Numeric)

/-- The test of 0 that `isFinite` makes first changes no answer. -/
theorem Numeric.isFinite_eq (a : NumVal) : num.isFinite a = num.finite (num.eval a) := by
  unfold Numeric.isFinite
  by_cases h : a = .zero
  · subst h; simp [Numeric.eval, num.finite_zero]
  · simp [h]

@[simp] theorem Numeric.isFinite_zero : num.isFinite .zero = true := by simp [Numeric.isFinite]

@[simp] theorem Numeric.isFinite_one : num.isFinite (.rat 1) = true := by
  rw [num.isFinite_eq]; exact num.finite_one

@[simp] theorem Numeric.isFinite_neg_one : num.isFinite (.rat (-1)) = true := by
  rw [num.isFinite_eq]; exact num.finite_neg_one

variable {num}

theorem Numeric.less_self {a : NumVal} (ha : num.isFinite a = true) : num.less a a = false :=
  num.lt_irrefl _ (by rwa [← num.isFinite_eq])

/-- `a ≤ b` is "not `b < a`" on the finite values of a `NUM`. -/
theorem Numeric.atMost_eq {a b : NumVal} (ha : num.isFinite a = true) (hb : num.isFinite b = true) :
    num.atMost a b = !num.less b a := by
  rw [num.isFinite_eq] at ha hb
  exact num.le_eq _ _ ha hb

theorem Numeric.less_asymm {a b : NumVal} (ha : num.isFinite a = true) (hb : num.isFinite b = true)
    (h : num.less a b = true) : num.less b a = false := by
  rw [num.isFinite_eq] at ha hb
  rw [Bool.eq_false_iff]
  intro k
  have := num.lt_trans _ _ _ ha hb ha h k
  rw [num.lt_irrefl _ ha] at this
  exact Bool.noConfusion this

variable (num)

theorem Numeric.zero_less_one : num.less .zero (.rat 1) = true := num.zero_lt_one

theorem Numeric.neg_one_less_zero : num.less (.rat (-1)) .zero = true := num.neg_one_lt_zero

end Order

/-! ### Formulas over the reals -/

section IsReal
variable {num : Numeric} {v : NumVal → ℝ} (h : num.IsReal v)
include h

/-- A written number is itself. -/
theorem Numeric.IsReal.rat (q : Rat) : v (.rat q) = q := by
  obtain ⟨r, hr, e⟩ := h; rw [e]; exact hr.lit q

theorem Numeric.IsReal.pi : v .pi = Real.pi := by
  obtain ⟨r, hr, e⟩ := h; rw [e]; exact hr.pi

theorem Numeric.IsReal.add (a b : NumVal) : v (.add a b) = v a + v b := by
  obtain ⟨r, hr, e⟩ := h; simp only [e]; exact hr.add _ _

theorem Numeric.IsReal.sub (a b : NumVal) : v (.sub a b) = v a - v b := by
  obtain ⟨r, hr, e⟩ := h; simp only [e]; exact hr.sub _ _

theorem Numeric.IsReal.mul (a b : NumVal) : v (.mul a b) = v a * v b := by
  obtain ⟨r, hr, e⟩ := h; simp only [e]; exact hr.mul _ _

theorem Numeric.IsReal.div (a b : NumVal) (hb : v b ≠ 0) : v (.div a b) = v a / v b := by
  obtain ⟨r, hr, e⟩ := h; simp only [e] at hb ⊢; exact hr.div _ _ hb

theorem Numeric.IsReal.sqrt (a : NumVal) (ha : 0 ≤ v a) : v (.sqrt a) = Real.sqrt (v a) := by
  obtain ⟨r, hr, e⟩ := h; simp only [e] at ha ⊢; exact hr.sqrt _ ha

theorem Numeric.IsReal.sin (a : NumVal) : v (.sin a) = Real.sin (v a) := by
  obtain ⟨r, hr, e⟩ := h; simp only [e]; exact hr.sin _

theorem Numeric.IsReal.cos (a : NumVal) : v (.cos a) = Real.cos (v a) := by
  obtain ⟨r, hr, e⟩ := h; simp only [e]; exact hr.cos _

theorem Numeric.IsReal.arccos (a : NumVal) (lo : -1 ≤ v a) (hi : v a ≤ 1) :
    v (.arccos a) = Real.arccos (v a) := by
  obtain ⟨r, hr, e⟩ := h; simp only [e] at lo hi ⊢; exact hr.arccos _ lo hi

theorem Numeric.IsReal.atan2 (y x : NumVal) (hxy : v x ≠ 0 ∨ v y ≠ 0) :
    v (.atan2 y x) = Complex.arg ⟨v x, v y⟩ := by
  obtain ⟨r, hr, e⟩ := h; simp only [e] at hxy ⊢; exact hr.atan2 _ _ hxy

theorem Numeric.IsReal.floorOf (a : NumVal) : num.floorOf a = ⌊v a⌋ := by
  obtain ⟨r, hr, e⟩ := h; simp only [e]; exact hr.floor _

theorem Numeric.IsReal.floor (a : NumVal) : v (.floor a) = ⌊v a⌋ := by
  obtain ⟨r, hr, e⟩ := h
  simp only [e, Numeric.eval, hr.lit, hr.floor]
  push_cast
  rfl

/-- `less` is the order of the reals. -/
theorem Numeric.IsReal.less_iff (a b : NumVal) : num.less a b = true ↔ v a < v b := by
  obtain ⟨r, hr, e⟩ := h; simp only [e]; exact hr.lt _ _

/-- `atMost` is the order of the reals. -/
theorem Numeric.IsReal.atMost_iff (a b : NumVal) : num.atMost a b = true ↔ v a ≤ v b := by
  obtain ⟨r, hr, e⟩ := h; simp only [e]; exact hr.le _ _

/-- Every formula is finite. -/
theorem Numeric.IsReal.isFinite (a : NumVal) : num.isFinite a = true := by
  obtain ⟨r, hr, _⟩ := h; rw [num.isFinite_eq]; exact hr.finite _

/-- `same` is equality of the reals. -/
theorem Numeric.IsReal.same_iff (a b : NumVal) : num.same a b = true ↔ v a = v b := by
  obtain ⟨r, hr, e⟩ := h; simp only [e]; exact hr.eq _ _

/-- The Num 0 is the real 0. -/
theorem Numeric.IsReal.zero : v .zero = 0 := by simp [NumVal.zero, h.rat]

/-- A natural number of a rule is itself. -/
theorem Numeric.IsReal.ofNat (n : Nat) : v (.ofNat n) = n := by simp [NumVal.ofNat, h.rat]

/-- `2π`. -/
theorem Numeric.IsReal.twoPi : v .twoPi = 2 * Real.pi := by
  simp [NumVal.twoPi, h.mul, h.ofNat, h.pi]

/-- The reduced phase differs from the phase by whole turns and lies in `[0, 2π)` (R15). -/
theorem Numeric.IsReal.modTwoPi (x : NumVal) :
    v (NumVal.modTwoPi x) = v x - 2 * Real.pi * ⌊v x / (2 * Real.pi)⌋ ∧
      0 ≤ v (NumVal.modTwoPi x) ∧ v (NumVal.modTwoPi x) < 2 * Real.pi := by
  have hpi : (0 : ℝ) < 2 * Real.pi := by positivity
  have e : v (NumVal.modTwoPi x) = v x - 2 * Real.pi * ⌊v x / (2 * Real.pi)⌋ := by
    simp only [NumVal.modTwoPi, h.sub, h.mul, h.twoPi, h.floor]
    rw [h.div _ _ (by rw [h.twoPi]; exact hpi.ne'), h.twoPi]
  have lo := Int.floor_le (v x / (2 * Real.pi))
  have hi := Int.lt_floor_add_one (v x / (2 * Real.pi))
  rw [le_div_iff₀ hpi] at lo
  rw [div_lt_iff₀ hpi] at hi
  exact ⟨e, by rw [e]; linarith, by rw [e]; linarith⟩

/-- The clamp is the identity on `[−1, 1]` (R199). -/
theorem Numeric.IsReal.clampUnit {c : NumVal} (lo : -1 ≤ v c) (hi : v c ≤ 1) : num.clampUnit c = c := by
  have a : num.less c (.rat (-1)) = false := by
    rw [Bool.eq_false_iff, ne_eq, h.less_iff, h.rat]
    push_cast
    linarith
  have b : num.less (.ofNat 1) c = false := by
    rw [Bool.eq_false_iff, ne_eq, h.less_iff, h.ofNat]
    push_cast
    linarith
  simp [Numeric.clampUnit, a, b]

/-- A sum of Nums is the sum of the reals. -/
theorem Numeric.IsReal.sum (u : List NumVal) : v (NumVal.sum u) = (u.map v).sum := by
  have aux : ∀ (u : List NumVal) (a : NumVal), v (u.foldl NumVal.add a) = v a + (u.map v).sum := by
    intro u
    induction u with
    | nil => intro a; simp
    | cons x u ih => intro a; simp [ih, h.add, add_assoc]
  simp [NumVal.sum, aux, h.zero]

/-- The dot product of Nums is the dot product of the reals. -/
theorem Numeric.IsReal.dot (x y : List NumVal) :
    v (NumVal.dot x y) = (List.zipWith (· * ·) (x.map v) (y.map v)).sum := by
  rw [NumVal.dot, h.sum, List.map_zipWith, List.zipWith_map]
  simp [h.mul]

/-- The origin. -/
theorem Numeric.IsReal.isOrigin_iff (z : Cplx) : num.isOrigin z = true ↔ v z.re = 0 ∧ v z.im = 0 := by
  simp [Numeric.isOrigin, h.same_iff, h.zero]

end IsReal

/-! ### The reference number system -/

open Classical in
/-- The reference semantics of R7 to the letter: `Num = ℝ`, "with `π`, `sin`, `cos`, `sqrt`, `arccos`, `atan2`, `floor`
exact"; the outside value `n` is `outside n`. -/
noncomputable def Numeric.reals (outside : Nat → ℝ) : Numeric where
  Num := ℝ
  lit q := (q : ℝ)
  pi := Real.pi
  add a b := a + b
  sub a b := a - b
  mul a b := a * b
  div a b := a / b
  sqrt := Real.sqrt
  sin := Real.sin
  cos := Real.cos
  arccos := Real.arccos
  atan2 y x := Complex.arg ⟨x, y⟩
  floor a := ⌊a⌋
  lt a b := decide (a < b)
  le a b := decide (a ≤ b)
  eq a b := decide (a = b)
  enc _ := 0
  dec w := (w.toNat : ℝ)
  outside := outside
  regionOutside _ := 0
  finite _ := true
  lt_irrefl := by simp
  lt_trans a b c _ _ _ h k := by simp only [decide_eq_true_eq] at h k ⊢; exact h.trans k
  le_eq a b _ _ := by simp [← not_lt]
  eq_eq a b _ _ := by simp [le_antisymm_iff]
  finite_zero := rfl
  finite_one := rfl
  finite_neg_one := rfl
  zero_lt_one := by simp
  neg_one_lt_zero := by simp

/-- The reference number system computes as the reals do, each Num read as the real number it is. -/
theorem Numeric.reals_computesReals (outside : Nat → ℝ) : (Numeric.reals outside).ComputesReals id where
  lit _ := rfl
  pi := rfl
  add _ _ := rfl
  sub _ _ := rfl
  mul _ _ := rfl
  div _ _ _ := rfl
  sqrt _ _ := rfl
  sin _ := rfl
  cos _ := rfl
  arccos _ _ _ := rfl
  atan2 _ _ _ := rfl
  floor _ := rfl
  lt (a b : ℝ) := show decide (a < b) = true ↔ a < b from decide_eq_true_iff
  le (a b : ℝ) := show decide (a ≤ b) = true ↔ a ≤ b from decide_eq_true_iff
  eq (a b : ℝ) := show decide (a = b) = true ↔ a = b from decide_eq_true_iff
  finite _ := rfl

/-- The real number a formula is in the reference number system. -/
noncomputable def NumVal.toReal (outside : Nat → ℝ) (x : NumVal) : ℝ := (Numeric.reals outside).eval x

theorem Numeric.reals_isReal (outside : Nat → ℝ) : (Numeric.reals outside).IsReal (NumVal.toReal outside) :=
  ⟨id, Numeric.reals_computesReals outside, fun _ => rfl⟩

section ToReal
variable (outside : Nat → ℝ)

@[simp] theorem NumVal.toReal_rat (q : Rat) : (NumVal.rat q).toReal outside = q := rfl
@[simp] theorem NumVal.toReal_pi : NumVal.pi.toReal outside = Real.pi := rfl
@[simp] theorem NumVal.toReal_sym (n : Nat) : (NumVal.sym n).toReal outside = outside n := rfl
@[simp] theorem NumVal.toReal_add (a b : NumVal) :
    (NumVal.add a b).toReal outside = a.toReal outside + b.toReal outside := rfl
@[simp] theorem NumVal.toReal_sub (a b : NumVal) :
    (NumVal.sub a b).toReal outside = a.toReal outside - b.toReal outside := rfl
@[simp] theorem NumVal.toReal_mul (a b : NumVal) :
    (NumVal.mul a b).toReal outside = a.toReal outside * b.toReal outside := rfl
@[simp] theorem NumVal.toReal_div (a b : NumVal) :
    (NumVal.div a b).toReal outside = a.toReal outside / b.toReal outside := rfl

end ToReal

end Sys2Proof
end

