-- ==== Sys2Proof/Laws/State.lean ====
section
/-! SUPPORT. What each named update of the state does to each field, one lemma a field, so that no later proof unfolds an
update. -/

namespace Sys2Proof.Machine

/-! ### raise -/

@[simp] theorem raise_cfgOrder (f : Flag) (s : State) : (raise f s).cfgOrder = s.cfgOrder := rfl
@[simp] theorem raise_cfgNsps (f : Flag) (s : State) : (raise f s).cfgNsps = s.cfgNsps := rfl
@[simp] theorem raise_cfgAmp (f : Flag) (s : State) : (raise f s).cfgAmp = s.cfgAmp := rfl
@[simp] theorem raise_cfgPeriod (f : Flag) (s : State) : (raise f s).cfgPeriod = s.cfgPeriod := rfl
@[simp] theorem raise_cfgNs (f : Flag) (s : State) : (raise f s).cfgNs = s.cfgNs := rfl
@[simp] theorem raise_sigPad (f : Flag) (s : State) : (raise f s).sigPad = s.sigPad := rfl
@[simp] theorem raise_idx (f : Flag) (s : State) : (raise f s).idx = s.idx := rfl
@[simp] theorem raise_phaseIn (f : Flag) (s : State) : (raise f s).phaseIn = s.phaseIn := rfl
@[simp] theorem raise_xIn (f : Flag) (s : State) : (raise f s).xIn = s.xIn := rfl
@[simp] theorem raise_yIn (f : Flag) (s : State) : (raise f s).yIn = s.yIn := rfl
@[simp] theorem raise_resK (f : Flag) (s : State) : (raise f s).resK = s.resK := rfl
@[simp] theorem raise_resG (f : Flag) (s : State) : (raise f s).resG = s.resG := rfl
@[simp] theorem raise_resPhase (f : Flag) (s : State) : (raise f s).resPhase = s.resPhase := rfl
@[simp] theorem raise_status (f : Flag) (s : State) : (raise f s).status = s.status ||| f.mask := rfl
@[simp] theorem raise_bitin (f : Flag) (s : State) : (raise f s).bitin = s.bitin := rfl
@[simp] theorem raise_sig (f : Flag) (s : State) : (raise f s).sig = s.sig := rfl
@[simp] theorem raise_sym (f : Flag) (s : State) : (raise f s).sym = s.sym := rfl
@[simp] theorem raise_symReLatch (f : Flag) (s : State) : (raise f s).symReLatch = s.symReLatch := rfl
@[simp] theorem raise_bitout (f : Flag) (s : State) : (raise f s).bitout = s.bitout := rfl
@[simp] theorem raise_drawPos (f : Flag) (s : State) : (raise f s).drawPos = s.drawPos := rfl
@[simp] theorem raise_pending (f : Flag) (s : State) : (raise f s).pending = s.pending := rfl
@[simp] theorem raise_readData (f : Flag) (s : State) : (raise f s).readData = s.readData := rfl

/-! ### refuse -/

@[simp] theorem refuse_cfgOrder (f : Flag) (s : State) : (refuse f s).cfgOrder = s.cfgOrder := rfl
@[simp] theorem refuse_cfgNsps (f : Flag) (s : State) : (refuse f s).cfgNsps = s.cfgNsps := rfl
@[simp] theorem refuse_cfgAmp (f : Flag) (s : State) : (refuse f s).cfgAmp = s.cfgAmp := rfl
@[simp] theorem refuse_cfgPeriod (f : Flag) (s : State) : (refuse f s).cfgPeriod = s.cfgPeriod := rfl
@[simp] theorem refuse_cfgNs (f : Flag) (s : State) : (refuse f s).cfgNs = s.cfgNs := rfl
@[simp] theorem refuse_sigPad (f : Flag) (s : State) : (refuse f s).sigPad = s.sigPad := rfl
@[simp] theorem refuse_idx (f : Flag) (s : State) : (refuse f s).idx = s.idx := rfl
@[simp] theorem refuse_phaseIn (f : Flag) (s : State) : (refuse f s).phaseIn = s.phaseIn := rfl
@[simp] theorem refuse_xIn (f : Flag) (s : State) : (refuse f s).xIn = s.xIn := rfl
@[simp] theorem refuse_yIn (f : Flag) (s : State) : (refuse f s).yIn = s.yIn := rfl
@[simp] theorem refuse_resK (f : Flag) (s : State) : (refuse f s).resK = s.resK := rfl
@[simp] theorem refuse_resG (f : Flag) (s : State) : (refuse f s).resG = s.resG := rfl
@[simp] theorem refuse_resPhase (f : Flag) (s : State) : (refuse f s).resPhase = s.resPhase := rfl
@[simp] theorem refuse_status (f : Flag) (s : State) : (refuse f s).status = s.status ||| f.mask := rfl
@[simp] theorem refuse_bitin (f : Flag) (s : State) : (refuse f s).bitin = s.bitin := rfl
@[simp] theorem refuse_sig (f : Flag) (s : State) : (refuse f s).sig = s.sig := rfl
@[simp] theorem refuse_sym (f : Flag) (s : State) : (refuse f s).sym = s.sym := rfl
@[simp] theorem refuse_symReLatch (f : Flag) (s : State) : (refuse f s).symReLatch = s.symReLatch := rfl
@[simp] theorem refuse_bitout (f : Flag) (s : State) : (refuse f s).bitout = s.bitout := rfl
@[simp] theorem refuse_drawPos (f : Flag) (s : State) : (refuse f s).drawPos = s.drawPos := rfl
@[simp] theorem refuse_pending (f : Flag) (s : State) : (refuse f s).pending = s.pending := rfl
@[simp] theorem refuse_readData (f : Flag) (s : State) : (refuse f s).readData = s.readData := rfl

/-! ### raiseIf -/

@[simp] theorem raiseIf_cfgOrder (c : Bool) (f : Flag) (s : State) : (raiseIf c f s).cfgOrder = s.cfgOrder := by
  cases c <;> rfl
@[simp] theorem raiseIf_cfgNsps (c : Bool) (f : Flag) (s : State) : (raiseIf c f s).cfgNsps = s.cfgNsps := by
  cases c <;> rfl
@[simp] theorem raiseIf_cfgAmp (c : Bool) (f : Flag) (s : State) : (raiseIf c f s).cfgAmp = s.cfgAmp := by
  cases c <;> rfl
@[simp] theorem raiseIf_cfgPeriod (c : Bool) (f : Flag) (s : State) : (raiseIf c f s).cfgPeriod = s.cfgPeriod := by
  cases c <;> rfl
@[simp] theorem raiseIf_cfgNs (c : Bool) (f : Flag) (s : State) : (raiseIf c f s).cfgNs = s.cfgNs := by
  cases c <;> rfl
@[simp] theorem raiseIf_sigPad (c : Bool) (f : Flag) (s : State) : (raiseIf c f s).sigPad = s.sigPad := by
  cases c <;> rfl
@[simp] theorem raiseIf_idx (c : Bool) (f : Flag) (s : State) : (raiseIf c f s).idx = s.idx := by
  cases c <;> rfl
@[simp] theorem raiseIf_phaseIn (c : Bool) (f : Flag) (s : State) : (raiseIf c f s).phaseIn = s.phaseIn := by
  cases c <;> rfl
@[simp] theorem raiseIf_xIn (c : Bool) (f : Flag) (s : State) : (raiseIf c f s).xIn = s.xIn := by
  cases c <;> rfl
@[simp] theorem raiseIf_yIn (c : Bool) (f : Flag) (s : State) : (raiseIf c f s).yIn = s.yIn := by
  cases c <;> rfl
@[simp] theorem raiseIf_resK (c : Bool) (f : Flag) (s : State) : (raiseIf c f s).resK = s.resK := by
  cases c <;> rfl
@[simp] theorem raiseIf_resG (c : Bool) (f : Flag) (s : State) : (raiseIf c f s).resG = s.resG := by
  cases c <;> rfl
@[simp] theorem raiseIf_resPhase (c : Bool) (f : Flag) (s : State) : (raiseIf c f s).resPhase = s.resPhase := by
  cases c <;> rfl
@[simp] theorem raiseIf_status (c : Bool) (f : Flag) (s : State) : (raiseIf c f s).status = if c then s.status ||| f.mask else s.status := by
  cases c <;> rfl
@[simp] theorem raiseIf_bitin (c : Bool) (f : Flag) (s : State) : (raiseIf c f s).bitin = s.bitin := by
  cases c <;> rfl
@[simp] theorem raiseIf_sig (c : Bool) (f : Flag) (s : State) : (raiseIf c f s).sig = s.sig := by
  cases c <;> rfl
@[simp] theorem raiseIf_sym (c : Bool) (f : Flag) (s : State) : (raiseIf c f s).sym = s.sym := by
  cases c <;> rfl
@[simp] theorem raiseIf_symReLatch (c : Bool) (f : Flag) (s : State) : (raiseIf c f s).symReLatch = s.symReLatch := by
  cases c <;> rfl
@[simp] theorem raiseIf_bitout (c : Bool) (f : Flag) (s : State) : (raiseIf c f s).bitout = s.bitout := by
  cases c <;> rfl
@[simp] theorem raiseIf_drawPos (c : Bool) (f : Flag) (s : State) : (raiseIf c f s).drawPos = s.drawPos := by
  cases c <;> rfl
@[simp] theorem raiseIf_pending (c : Bool) (f : Flag) (s : State) : (raiseIf c f s).pending = s.pending := by
  cases c <;> rfl
@[simp] theorem raiseIf_readData (c : Bool) (f : Flag) (s : State) : (raiseIf c f s).readData = s.readData := by
  cases c <;> rfl

/-! ### clearFlags -/

@[simp] theorem clearFlags_cfgOrder (v : Word) (s : State) : (clearFlags v s).cfgOrder = s.cfgOrder := rfl
@[simp] theorem clearFlags_cfgNsps (v : Word) (s : State) : (clearFlags v s).cfgNsps = s.cfgNsps := rfl
@[simp] theorem clearFlags_cfgAmp (v : Word) (s : State) : (clearFlags v s).cfgAmp = s.cfgAmp := rfl
@[simp] theorem clearFlags_cfgPeriod (v : Word) (s : State) : (clearFlags v s).cfgPeriod = s.cfgPeriod := rfl
@[simp] theorem clearFlags_cfgNs (v : Word) (s : State) : (clearFlags v s).cfgNs = s.cfgNs := rfl
@[simp] theorem clearFlags_sigPad (v : Word) (s : State) : (clearFlags v s).sigPad = s.sigPad := rfl
@[simp] theorem clearFlags_idx (v : Word) (s : State) : (clearFlags v s).idx = s.idx := rfl
@[simp] theorem clearFlags_phaseIn (v : Word) (s : State) : (clearFlags v s).phaseIn = s.phaseIn := rfl
@[simp] theorem clearFlags_xIn (v : Word) (s : State) : (clearFlags v s).xIn = s.xIn := rfl
@[simp] theorem clearFlags_yIn (v : Word) (s : State) : (clearFlags v s).yIn = s.yIn := rfl
@[simp] theorem clearFlags_resK (v : Word) (s : State) : (clearFlags v s).resK = s.resK := rfl
@[simp] theorem clearFlags_resG (v : Word) (s : State) : (clearFlags v s).resG = s.resG := rfl
@[simp] theorem clearFlags_resPhase (v : Word) (s : State) : (clearFlags v s).resPhase = s.resPhase := rfl
@[simp] theorem clearFlags_status (v : Word) (s : State) : (clearFlags v s).status = s.status &&& ~~~(v.extractLsb' 0 6) := rfl
@[simp] theorem clearFlags_bitin (v : Word) (s : State) : (clearFlags v s).bitin = s.bitin := rfl
@[simp] theorem clearFlags_sig (v : Word) (s : State) : (clearFlags v s).sig = s.sig := rfl
@[simp] theorem clearFlags_sym (v : Word) (s : State) : (clearFlags v s).sym = s.sym := rfl
@[simp] theorem clearFlags_symReLatch (v : Word) (s : State) : (clearFlags v s).symReLatch = s.symReLatch := rfl
@[simp] theorem clearFlags_bitout (v : Word) (s : State) : (clearFlags v s).bitout = s.bitout := rfl
@[simp] theorem clearFlags_drawPos (v : Word) (s : State) : (clearFlags v s).drawPos = s.drawPos := rfl
@[simp] theorem clearFlags_pending (v : Word) (s : State) : (clearFlags v s).pending = s.pending := rfl
@[simp] theorem clearFlags_readData (v : Word) (s : State) : (clearFlags v s).readData = s.readData := rfl

/-! ### setResult -/

@[simp] theorem setResult_cfgOrder (k g : Nat) (phase : NumVal) (s : State) : (setResult k g phase s).cfgOrder = s.cfgOrder := rfl
@[simp] theorem setResult_cfgNsps (k g : Nat) (phase : NumVal) (s : State) : (setResult k g phase s).cfgNsps = s.cfgNsps := rfl
@[simp] theorem setResult_cfgAmp (k g : Nat) (phase : NumVal) (s : State) : (setResult k g phase s).cfgAmp = s.cfgAmp := rfl
@[simp] theorem setResult_cfgPeriod (k g : Nat) (phase : NumVal) (s : State) : (setResult k g phase s).cfgPeriod = s.cfgPeriod := rfl
@[simp] theorem setResult_cfgNs (k g : Nat) (phase : NumVal) (s : State) : (setResult k g phase s).cfgNs = s.cfgNs := rfl
@[simp] theorem setResult_sigPad (k g : Nat) (phase : NumVal) (s : State) : (setResult k g phase s).sigPad = s.sigPad := rfl
@[simp] theorem setResult_idx (k g : Nat) (phase : NumVal) (s : State) : (setResult k g phase s).idx = s.idx := rfl
@[simp] theorem setResult_phaseIn (k g : Nat) (phase : NumVal) (s : State) : (setResult k g phase s).phaseIn = s.phaseIn := rfl
@[simp] theorem setResult_xIn (k g : Nat) (phase : NumVal) (s : State) : (setResult k g phase s).xIn = s.xIn := rfl
@[simp] theorem setResult_yIn (k g : Nat) (phase : NumVal) (s : State) : (setResult k g phase s).yIn = s.yIn := rfl
@[simp] theorem setResult_resK (k g : Nat) (phase : NumVal) (s : State) : (setResult k g phase s).resK = toResult k := rfl
@[simp] theorem setResult_resG (k g : Nat) (phase : NumVal) (s : State) : (setResult k g phase s).resG = toResult g := rfl
@[simp] theorem setResult_resPhase (k g : Nat) (phase : NumVal) (s : State) : (setResult k g phase s).resPhase = phase := rfl
@[simp] theorem setResult_status (k g : Nat) (phase : NumVal) (s : State) : (setResult k g phase s).status = s.status := rfl
@[simp] theorem setResult_bitin (k g : Nat) (phase : NumVal) (s : State) : (setResult k g phase s).bitin = s.bitin := rfl
@[simp] theorem setResult_sig (k g : Nat) (phase : NumVal) (s : State) : (setResult k g phase s).sig = s.sig := rfl
@[simp] theorem setResult_sym (k g : Nat) (phase : NumVal) (s : State) : (setResult k g phase s).sym = s.sym := rfl
@[simp] theorem setResult_symReLatch (k g : Nat) (phase : NumVal) (s : State) : (setResult k g phase s).symReLatch = s.symReLatch := rfl
@[simp] theorem setResult_bitout (k g : Nat) (phase : NumVal) (s : State) : (setResult k g phase s).bitout = s.bitout := rfl
@[simp] theorem setResult_drawPos (k g : Nat) (phase : NumVal) (s : State) : (setResult k g phase s).drawPos = s.drawPos := rfl
@[simp] theorem setResult_pending (k g : Nat) (phase : NumVal) (s : State) : (setResult k g phase s).pending = s.pending := rfl
@[simp] theorem setResult_readData (k g : Nat) (phase : NumVal) (s : State) : (setResult k g phase s).readData = s.readData := rfl

/-! ### latchRe -/

@[simp] theorem latchRe_cfgOrder (x : NumVal) (s : State) : (latchRe x s).cfgOrder = s.cfgOrder := rfl
@[simp] theorem latchRe_cfgNsps (x : NumVal) (s : State) : (latchRe x s).cfgNsps = s.cfgNsps := rfl
@[simp] theorem latchRe_cfgAmp (x : NumVal) (s : State) : (latchRe x s).cfgAmp = s.cfgAmp := rfl
@[simp] theorem latchRe_cfgPeriod (x : NumVal) (s : State) : (latchRe x s).cfgPeriod = s.cfgPeriod := rfl
@[simp] theorem latchRe_cfgNs (x : NumVal) (s : State) : (latchRe x s).cfgNs = s.cfgNs := rfl
@[simp] theorem latchRe_sigPad (x : NumVal) (s : State) : (latchRe x s).sigPad = s.sigPad := rfl
@[simp] theorem latchRe_idx (x : NumVal) (s : State) : (latchRe x s).idx = s.idx := rfl
@[simp] theorem latchRe_phaseIn (x : NumVal) (s : State) : (latchRe x s).phaseIn = s.phaseIn := rfl
@[simp] theorem latchRe_xIn (x : NumVal) (s : State) : (latchRe x s).xIn = s.xIn := rfl
@[simp] theorem latchRe_yIn (x : NumVal) (s : State) : (latchRe x s).yIn = s.yIn := rfl
@[simp] theorem latchRe_resK (x : NumVal) (s : State) : (latchRe x s).resK = s.resK := rfl
@[simp] theorem latchRe_resG (x : NumVal) (s : State) : (latchRe x s).resG = s.resG := rfl
@[simp] theorem latchRe_resPhase (x : NumVal) (s : State) : (latchRe x s).resPhase = s.resPhase := rfl
@[simp] theorem latchRe_status (x : NumVal) (s : State) : (latchRe x s).status = s.status := rfl
@[simp] theorem latchRe_bitin (x : NumVal) (s : State) : (latchRe x s).bitin = s.bitin := rfl
@[simp] theorem latchRe_sig (x : NumVal) (s : State) : (latchRe x s).sig = s.sig := rfl
@[simp] theorem latchRe_sym (x : NumVal) (s : State) : (latchRe x s).sym = s.sym := rfl
@[simp] theorem latchRe_symReLatch (x : NumVal) (s : State) : (latchRe x s).symReLatch = x := rfl
@[simp] theorem latchRe_bitout (x : NumVal) (s : State) : (latchRe x s).bitout = s.bitout := rfl
@[simp] theorem latchRe_drawPos (x : NumVal) (s : State) : (latchRe x s).drawPos = s.drawPos := rfl
@[simp] theorem latchRe_pending (x : NumVal) (s : State) : (latchRe x s).pending = s.pending := rfl
@[simp] theorem latchRe_readData (x : NumVal) (s : State) : (latchRe x s).readData = s.readData := rfl

/-! ### takeDraws -/

@[simp] theorem takeDraws_cfgOrder (n : Nat) (s : State) : (takeDraws n s).cfgOrder = s.cfgOrder := rfl
@[simp] theorem takeDraws_cfgNsps (n : Nat) (s : State) : (takeDraws n s).cfgNsps = s.cfgNsps := rfl
@[simp] theorem takeDraws_cfgAmp (n : Nat) (s : State) : (takeDraws n s).cfgAmp = s.cfgAmp := rfl
@[simp] theorem takeDraws_cfgPeriod (n : Nat) (s : State) : (takeDraws n s).cfgPeriod = s.cfgPeriod := rfl
@[simp] theorem takeDraws_cfgNs (n : Nat) (s : State) : (takeDraws n s).cfgNs = s.cfgNs := rfl
@[simp] theorem takeDraws_sigPad (n : Nat) (s : State) : (takeDraws n s).sigPad = s.sigPad := rfl
@[simp] theorem takeDraws_idx (n : Nat) (s : State) : (takeDraws n s).idx = s.idx := rfl
@[simp] theorem takeDraws_phaseIn (n : Nat) (s : State) : (takeDraws n s).phaseIn = s.phaseIn := rfl
@[simp] theorem takeDraws_xIn (n : Nat) (s : State) : (takeDraws n s).xIn = s.xIn := rfl
@[simp] theorem takeDraws_yIn (n : Nat) (s : State) : (takeDraws n s).yIn = s.yIn := rfl
@[simp] theorem takeDraws_resK (n : Nat) (s : State) : (takeDraws n s).resK = s.resK := rfl
@[simp] theorem takeDraws_resG (n : Nat) (s : State) : (takeDraws n s).resG = s.resG := rfl
@[simp] theorem takeDraws_resPhase (n : Nat) (s : State) : (takeDraws n s).resPhase = s.resPhase := rfl
@[simp] theorem takeDraws_status (n : Nat) (s : State) : (takeDraws n s).status = s.status := rfl
@[simp] theorem takeDraws_bitin (n : Nat) (s : State) : (takeDraws n s).bitin = s.bitin := rfl
@[simp] theorem takeDraws_sig (n : Nat) (s : State) : (takeDraws n s).sig = s.sig := rfl
@[simp] theorem takeDraws_sym (n : Nat) (s : State) : (takeDraws n s).sym = s.sym := rfl
@[simp] theorem takeDraws_symReLatch (n : Nat) (s : State) : (takeDraws n s).symReLatch = s.symReLatch := rfl
@[simp] theorem takeDraws_bitout (n : Nat) (s : State) : (takeDraws n s).bitout = s.bitout := rfl
@[simp] theorem takeDraws_drawPos (n : Nat) (s : State) : (takeDraws n s).drawPos = s.drawPos + n := rfl
@[simp] theorem takeDraws_pending (n : Nat) (s : State) : (takeDraws n s).pending = s.pending := rfl
@[simp] theorem takeDraws_readData (n : Nat) (s : State) : (takeDraws n s).readData = s.readData := rfl

/-! ### resetBlock -/

@[simp] theorem resetBlock_cfgOrder (s : State) : (resetBlock s).cfgOrder = State.reset.cfgOrder := rfl
@[simp] theorem resetBlock_cfgNsps (s : State) : (resetBlock s).cfgNsps = State.reset.cfgNsps := rfl
@[simp] theorem resetBlock_cfgAmp (s : State) : (resetBlock s).cfgAmp = State.reset.cfgAmp := rfl
@[simp] theorem resetBlock_cfgPeriod (s : State) : (resetBlock s).cfgPeriod = State.reset.cfgPeriod := rfl
@[simp] theorem resetBlock_cfgNs (s : State) : (resetBlock s).cfgNs = State.reset.cfgNs := rfl
@[simp] theorem resetBlock_sigPad (s : State) : (resetBlock s).sigPad = State.reset.sigPad := rfl
@[simp] theorem resetBlock_idx (s : State) : (resetBlock s).idx = State.reset.idx := rfl
@[simp] theorem resetBlock_phaseIn (s : State) : (resetBlock s).phaseIn = State.reset.phaseIn := rfl
@[simp] theorem resetBlock_xIn (s : State) : (resetBlock s).xIn = State.reset.xIn := rfl
@[simp] theorem resetBlock_yIn (s : State) : (resetBlock s).yIn = State.reset.yIn := rfl
@[simp] theorem resetBlock_resK (s : State) : (resetBlock s).resK = State.reset.resK := rfl
@[simp] theorem resetBlock_resG (s : State) : (resetBlock s).resG = State.reset.resG := rfl
@[simp] theorem resetBlock_resPhase (s : State) : (resetBlock s).resPhase = State.reset.resPhase := rfl
@[simp] theorem resetBlock_status (s : State) : (resetBlock s).status = State.reset.status := rfl
@[simp] theorem resetBlock_bitin (s : State) : (resetBlock s).bitin = State.reset.bitin := rfl
@[simp] theorem resetBlock_sig (s : State) : (resetBlock s).sig = State.reset.sig := rfl
@[simp] theorem resetBlock_sym (s : State) : (resetBlock s).sym = State.reset.sym := rfl
@[simp] theorem resetBlock_symReLatch (s : State) : (resetBlock s).symReLatch = State.reset.symReLatch := rfl
@[simp] theorem resetBlock_bitout (s : State) : (resetBlock s).bitout = State.reset.bitout := rfl
@[simp] theorem resetBlock_drawPos (s : State) : (resetBlock s).drawPos = s.drawPos := rfl
@[simp] theorem resetBlock_pending (s : State) : (resetBlock s).pending = s.pending := rfl
@[simp] theorem resetBlock_readData (s : State) : (resetBlock s).readData = s.readData := rfl

/-! ### clrCmd -/

@[simp] theorem clrCmd_cfgOrder (mask : BitVec 4) (s : State) : (clrCmd mask s).cfgOrder = s.cfgOrder := rfl
@[simp] theorem clrCmd_cfgNsps (mask : BitVec 4) (s : State) : (clrCmd mask s).cfgNsps = s.cfgNsps := rfl
@[simp] theorem clrCmd_cfgAmp (mask : BitVec 4) (s : State) : (clrCmd mask s).cfgAmp = s.cfgAmp := rfl
@[simp] theorem clrCmd_cfgPeriod (mask : BitVec 4) (s : State) : (clrCmd mask s).cfgPeriod = s.cfgPeriod := rfl
@[simp] theorem clrCmd_cfgNs (mask : BitVec 4) (s : State) : (clrCmd mask s).cfgNs = s.cfgNs := rfl
@[simp] theorem clrCmd_sigPad (mask : BitVec 4) (s : State) : (clrCmd mask s).sigPad = if mask.getLsbD 1 then 0 else s.sigPad := rfl
@[simp] theorem clrCmd_idx (mask : BitVec 4) (s : State) : (clrCmd mask s).idx = s.idx := rfl
@[simp] theorem clrCmd_phaseIn (mask : BitVec 4) (s : State) : (clrCmd mask s).phaseIn = s.phaseIn := rfl
@[simp] theorem clrCmd_xIn (mask : BitVec 4) (s : State) : (clrCmd mask s).xIn = s.xIn := rfl
@[simp] theorem clrCmd_yIn (mask : BitVec 4) (s : State) : (clrCmd mask s).yIn = s.yIn := rfl
@[simp] theorem clrCmd_resK (mask : BitVec 4) (s : State) : (clrCmd mask s).resK = s.resK := rfl
@[simp] theorem clrCmd_resG (mask : BitVec 4) (s : State) : (clrCmd mask s).resG = s.resG := rfl
@[simp] theorem clrCmd_resPhase (mask : BitVec 4) (s : State) : (clrCmd mask s).resPhase = s.resPhase := rfl
@[simp] theorem clrCmd_status (mask : BitVec 4) (s : State) : (clrCmd mask s).status = s.status := rfl
@[simp] theorem clrCmd_bitin (mask : BitVec 4) (s : State) : (clrCmd mask s).bitin = if mask.getLsbD 0 then [] else s.bitin := rfl
@[simp] theorem clrCmd_sig (mask : BitVec 4) (s : State) : (clrCmd mask s).sig = if mask.getLsbD 1 then [] else s.sig := rfl
@[simp] theorem clrCmd_sym (mask : BitVec 4) (s : State) : (clrCmd mask s).sym = if mask.getLsbD 2 then [] else s.sym := rfl
@[simp] theorem clrCmd_symReLatch (mask : BitVec 4) (s : State) : (clrCmd mask s).symReLatch = s.symReLatch := rfl
@[simp] theorem clrCmd_bitout (mask : BitVec 4) (s : State) : (clrCmd mask s).bitout = if mask.getLsbD 3 then [] else s.bitout := rfl
@[simp] theorem clrCmd_drawPos (mask : BitVec 4) (s : State) : (clrCmd mask s).drawPos = s.drawPos := rfl
@[simp] theorem clrCmd_pending (mask : BitVec 4) (s : State) : (clrCmd mask s).pending = s.pending := rfl
@[simp] theorem clrCmd_readData (mask : BitVec 4) (s : State) : (clrCmd mask s).readData = s.readData := rfl

end Sys2Proof.Machine
end

