-- ==== Sys2Proof/Laws/Commands.lean ====
section
/-! SUPPORT. One lemma for what each shared operation can do: lengths and ranges of the alphabet, the modulator, the
channel and the demodulator, and the fields their state updates leave alone. -/

namespace Sys2Proof.Machine

/-! ### Flags -/

/-- A conditional flag changes `STATUS` only. -/
theorem raiseIf_eq (c : Bool) (f : Flag) (s : State) :
    raiseIf c f s = { s with status := s.status ||| if c then f.mask else 0 } := by
  cases c
  · simp [raiseIf]
  · rfl

/-- Raising one flag sets that flag and no other. -/
theorem hasFlag_raise (f g : Flag) (s : State) : (raise f s).hasFlag g = (s.hasFlag g || decide (f = g)) := by
  unfold State.hasFlag raise
  cases f <;> cases g <;> simp [Flag.mask, Flag.bit]

theorem hasFlag_refuse (f g : Flag) (s : State) : (refuse f s).hasFlag g = (s.hasFlag g || decide (f = g)) :=
  hasFlag_raise f g s

theorem hasFlag_raiseIf (c : Bool) (f g : Flag) (s : State) :
    (raiseIf c f s).hasFlag g = (s.hasFlag g || (c && decide (f = g))) := by
  cases c <;> simp [raiseIf, hasFlag_raise]

/-- The bits clear by a write to `STATUS`: exactly those written as 1 (R35). -/
theorem clearFlags_getLsbD (v : Word) (s : State) {k : Nat} (hk : k < 6) :
    (clearFlags v s).status.getLsbD k = (s.status.getLsbD k && !v.getLsbD k) := by
  interval_cases k <;> simp [clearFlags]

/-! ### Values that are not finite -/

/-- A guarded outcome is the next state exactly when every Num is finite. -/
theorem guardFinite_next_iff {num : Numeric} {xs : List NumVal} {t u : State} :
    guardFinite num xs t = .next u ↔ (∀ x ∈ xs, num.isFinite x = true) ∧ t = u := by
  unfold guardFinite
  split <;> simp_all

/-- A guarded outcome is the fault exactly when some Num is not finite. -/
theorem guardFinite_fault_iff {num : Numeric} {xs : List NumVal} {t : State} {f : Fault} :
    guardFinite num xs t = .fault f ↔ ∃ x ∈ xs, num.isFinite x = false := by
  cases f
  unfold guardFinite
  split <;> simp_all

theorem guardFinite_next {num : Numeric} {xs : List NumVal} (h : ∀ x ∈ xs, num.isFinite x = true) (t : State) :
    guardFinite num xs t = .next t := guardFinite_next_iff.2 ⟨h, rfl⟩

@[simp] theorem guardFinite_nil (num : Numeric) (t : State) : guardFinite num [] t = .next t := rfl

@[simp] theorem mem_symbolParts {zs : List Cplx} {x : NumVal} :
    x ∈ symbolParts zs ↔ ∃ z ∈ zs, x = z.re ∨ x = z.im := by simp [symbolParts]

@[simp] theorem mem_nextDraws {p : Params} {s : State} {n : Nat} {x : NumVal} :
    x ∈ nextDraws p s n ↔ ∃ i < n, nextDraw p s i = x := by simp [nextDraws]

/-! ### Pushes -/

/-- `BITIN_PUSH` ends in one of two ways (R69). -/
theorem pushBit_cases (p : Params) (v : Word) (s : State) :
    (s.bitin.length = p.caps.bitCap ∧ pushBit p v s = raise .ovf s) ∨
    (s.bitin.length ≠ p.caps.bitCap ∧ pushBit p v s = { s with bitin := s.bitin ++ [v.getLsbD 0] }) := by
  unfold pushBit
  split <;> simp_all

/-- `SIG_PUSH` ends in one of two ways (R69). -/
theorem pushSample_cases (p : Params) (x : NumVal) (s : State) :
    (s.sig.length = p.caps.sigCap ∧ pushSample p x s = raise .ovf s) ∨
    (s.sig.length ≠ p.caps.sigCap ∧ pushSample p x s = { s with sig := s.sig ++ [x] }) := by
  unfold pushSample
  split <;> simp_all

/-- `SYM_IM_PUSH` ends in one of two ways (R69). -/
theorem pushSymbol_cases (p : Params) (y : NumVal) (s : State) :
    (s.sym.length = p.caps.symCap ∧ pushSymbol p y s = raise .ovf s) ∨
    (s.sym.length ≠ p.caps.symCap ∧ pushSymbol p y s = { s with sym := s.sym ++ [⟨s.symReLatch, y⟩] }) := by
  unfold pushSymbol
  split <;> simp_all

/-! ### Order and alphabet -/

theorem points_eq (b : BitVec 2) : points b = 2 ^ (b.toNat + 1) := rfl

theorem points_pos (b : BitVec 2) : 0 < points b := Nat.two_pow_pos _

theorem points_le (b : BitVec 2) : points b ≤ 16 := by
  have h : b.toNat + 1 ≤ 4 := by have := b.isLt; omega
  exact Nat.pow_le_pow_right (by decide) h

theorem width_pos (b : BitVec 2) : 0 < width b := Nat.succ_pos _

theorem assign_lt (p : Params) (b : BitVec 2) (g : Nat) : assign p b g < points b := Fin.isLt _

theorem unassign_lt (p : Params) (b : BitVec 2) (k : Nat) : unassign p b k < points b := Fin.isLt _

theorem regionOf_lt (num : Numeric) {m : Nat} (hm : 0 < m) (a : NumVal) : regionOf num m a < m := by
  unfold regionOf
  have := Nat.mod_lt (num.regionOutside (num.eval a)) hm
  dsimp only
  split <;> omega

/-- A number below `M` fits a result register. -/
theorem toResult_toNat {b : BitVec 2} {n : Nat} (h : n < points b) : (toResult n).toNat = n := by
  have := points_le b
  simp only [toResult, BitVec.toNat_ofNat]
  exact Nat.mod_eq_of_lt (by omega)

@[simp] theorem bitsOf_length (w g : Nat) : (bitsOf w g).length = w := by simp [bitsOf]

/-! ### Modulator -/

theorem padCount_lt {w : Nat} (hw : 0 < w) (len : Nat) : padCount w len < w := Nat.mod_lt _ hw

/-- The padded length is a whole number of groups (R151). -/
theorem len_add_padCount {w : Nat} (hw : 0 < w) (len : Nat) : len + padCount w len = symbolCount w len * w := by
  have hd : w ∣ len + padCount w len := by
    unfold padCount
    have hm := Nat.mod_lt len hw
    rcases Nat.eq_zero_or_pos (len % w) with h0 | hp
    · rw [h0, Nat.sub_zero, Nat.mod_self, Nat.add_zero]
      exact Nat.dvd_of_mod_eq_zero h0
    · rw [Nat.mod_eq_of_lt (by omega : w - len % w < w)]
      refine ⟨len / w + 1, ?_⟩
      have := Nat.div_add_mod len w
      rw [Nat.mul_add, Nat.mul_one]
      omega
  exact (Nat.div_mul_cancel hd).symm

/-- `S = ceil(L / w)` (R151). -/
theorem symbolCount_eq {w : Nat} (hw : 0 < w) (len : Nat) : symbolCount w len = (len + w - 1) / w := by
  have h1 := len_add_padCount hw len
  have h2 := padCount_lt hw len
  refine (Nat.div_eq_of_lt_le ?_ ?_).symm
  · omega
  · rw [Nat.succ_mul]
    omega

@[simp] theorem groupValues_length (w : Nat) (bits : List Bit) :
    (groupValues w bits).length = symbolCount w bits.length := by simp [groupValues]

@[simp] theorem phaseIndices_length (p : Params) (b : BitVec 2) (bits : List Bit) :
    (phaseIndices p b bits).length = symbolCount (width b) bits.length := by simp [phaseIndices]

@[simp] theorem refSymbol_length (n : Nat) (amp theta : NumVal) :
    (refSymbol n amp theta).length = n := by simp [refSymbol]

@[simp] theorem synthesize_length (m n : Nat) (amp : NumVal) (ks : List Nat) :
    (synthesize m n amp ks).length = ks.length * n := by
  induction ks with
  | nil => simp [synthesize]
  | cons k ks ih =>
    simp only [synthesize, List.flatMap_cons, List.length_append, refSymbol_length] at ih ⊢
    rw [ih, List.length_cons, Nat.succ_mul, Nat.add_comm]

/-- MOD ends in one of three ways (R158). -/
theorem modCmd_cases (p : Params) (s : State) :
    (waveConfigLegal p s = false ∧ modCmd p s = refuse .cfgerr s) ∨
    (waveConfigLegal p s = true ∧ p.caps.sigCap < symbolCount (width s.cfgOrder) s.bitin.length * s.cfgNsps.toNat ∧
      modCmd p s = refuse .ovf s) ∨
    (waveConfigLegal p s = true ∧ symbolCount (width s.cfgOrder) s.bitin.length * s.cfgNsps.toNat ≤ p.caps.sigCap ∧
      modCmd p s = { s with
        sig := synthesize (points s.cfgOrder) s.cfgNsps.toNat s.cfgAmp (phaseIndices p s.cfgOrder s.bitin)
        sigPad := BitVec.ofNat 2 (padCount (width s.cfgOrder) s.bitin.length)
        bitin := [] }) := by
  unfold modCmd
  cases h : waveConfigLegal p s
  · left; simp
  · by_cases hc : p.caps.sigCap < symbolCount (width s.cfgOrder) s.bitin.length * s.cfgNsps.toNat
    · right; left; simp [hc]
    · right; right; simp [hc, Nat.not_lt.mp hc]

/-! ### Channel -/

@[simp] theorem addWaveformNoise_length (ns : NumVal) (draw : Nat → NumVal) (xs : List NumVal) :
    (addWaveformNoise ns draw xs).length = xs.length := by simp [addWaveformNoise]

@[simp] theorem addSymbolNoise_length (ns : NumVal) (draw : Nat → NumVal) (zs : List Cplx) :
    (addSymbolNoise ns draw zs).length = zs.length := by simp [addSymbolNoise]

/-- What NOISEW does once its precondition holds, and all it does (R174). -/
theorem waveformNoise_eq (p : Params) (s : State) :
    waveformNoise p s = { s with
      sig := addWaveformNoise s.cfgNs (nextDraw p s) s.sig
      drawPos := s.drawPos + s.sig.length } := rfl

/-- What the symbol-noise step does, and all it does (R176). -/
theorem symbolNoise_eq (p : Params) (s : State) :
    symbolNoise p s = { s with
      sym := addSymbolNoise s.cfgNs (nextDraw p s) s.sym
      drawPos := s.drawPos + 2 * s.sym.length } := rfl

/-! ### Demodulator -/

@[simp] theorem windows_length (n : Nat) (xs : List NumVal) : (windows n xs).length = xs.length / n := by
  simp [windows]

/-- What the detector does, and all it does (R202). -/
theorem detectWindows_eq (p : Params) (s : State) :
    ∃ (sym : List Cplx) (c : Bool), sym.length = s.sig.length / s.cfgNsps.toNat ∧
      detectWindows p s = raiseIf c .degen { s with sym := sym } :=
  ⟨_, _, by simp, rfl⟩

@[simp] theorem decideSymbol_length (p : Params) (b : BitVec 2) (z : Cplx) :
    (decideSymbol p b z).length = width b := by
  unfold decideSymbol
  split
  · next h => subst h; rfl
  · simp

@[simp] theorem recovered_length (p : Params) (s : State) :
    (recovered p s).length = width s.cfgOrder * s.sym.length := by
  unfold recovered
  induction s.sym with
  | nil => simp
  | cons z zs ih => simp [ih, Nat.mul_add, Nat.add_comm]

/-- What the decoder does, and all it does (R209). -/
theorem decideSymbols_eq (p : Params) (s : State) :
    ∃ (bits : List Bit) (c d : Bool),
      bits.length = width s.cfgOrder * s.sym.length - min s.sigPad.toNat (width s.cfgOrder * s.sym.length) ∧
      decideSymbols p s = raiseIf c .paderr (raiseIf d .zeropt { s with bitout := bits }) :=
  ⟨_, _, _, by simp, rfl⟩

/-- The symbols an executed DETECT leaves fit `SYM` (R9, R202). -/
theorem windows_fit (p : Params) {n len : Nat} (hn : 3 ≤ n) (h : len ≤ p.caps.sigCap) : len / n ≤ p.caps.symCap :=
  calc len / n ≤ len / 3 := Nat.div_le_div_left hn (by decide)
    _ ≤ p.caps.sigCap / 3 := Nat.div_le_div_right h
    _ ≤ p.caps.symCap := p.caps.sym_fits

theorem three_le_of_waveConfigLegal {p : Params} {s : State} (h : waveConfigLegal p s = true) :
    3 ≤ s.cfgNsps.toNat := by
  simp only [waveConfigLegal, Bool.and_eq_true, decide_eq_true_eq] at h
  exact h.1

end Sys2Proof.Machine
end

