-- ==== Sys2Proof/Laws/Step.lean ====
section
/-! SUPPORT. What one step can do: `exec` and `step` on the machine's parameters, the decoder's answers, and the
inversion lemma of the step. -/

namespace Sys2Proof.Machine

/-- The meaning of a command is its outcome on the machine's parameters. -/
theorem exec_eq (i : Instr) (s : State) : exec i s = outcome Config.machine i s := by
  cases i <;> rfl

/-- The inversion lemma of `exec`: the Nums it computed with are finite, and the state is the command's. -/
theorem exec_next_iff {i : Instr} {s t : State} :
    exec i s = .next t ↔
      (∀ x ∈ commandNums Config.machine i s, Config.num.isFinite x = true) ∧ command Config.machine i s = t := by
  rw [exec_eq]
  exact guardFinite_next_iff

/-- The machine's step is the step on the machine's parameters. -/
theorem step_eq (s : State) : step s = stepWith Config.machine s :=
  congrArg (fun run => nextAction Config.machine run s) (funext fun i => funext fun s => exec_eq i s)

/-- The state after one host action whose Nums are finite, on given parameters. -/
def actionState (p : Params) (t : Txn) (s : State) : State :=
  match t with
  | .write addr v =>
    match regAt addr with
    | some .cmd =>
      match decode (v.asWord p) with
      | .ok i => command p i s
      | .error _ => refuse .cmderr s
    | some r => writeReg p v s r
    | none => s
  | .read addr => { s with readData := readAddr addr s }
  | .reset => resetBlock s

/-- The Nums one host action computes with or stores. -/
def actionNums (p : Params) (t : Txn) (s : State) : List NumVal :=
  match t with
  | .write addr v =>
    match regAt addr with
    | some .cmd =>
      match decode (v.asWord p) with
      | .ok i => commandNums p i s
      | .error _ => []
    | some r => writtenNums v s r
    | none => []
  | .read addr => readNums addr s
  | .reset => []

/-- A host action is guarded by the Nums it computes with. -/
theorem hostAction_eq (p : Params) (t : Txn) (s : State) :
    hostAction p (outcome p) t s = guardFinite p.num (actionNums p t s) (actionState p t s) := by
  cases t with
  | read addr => rfl
  | reset => rfl
  | write addr v =>
    simp only [hostAction, hostWrite, actionState, actionNums]
    cases regAt addr with
    | none => rfl
    | some r =>
      cases r <;> try rfl
      simp only [issue]
      cases decode (v.asWord p) <;> rfl

/-- A step performs the next host action, if there is one. -/
theorem stepWith_eq (p : Params) (s : State) :
    stepWith p s = match s.pending with
      | [] => .next s
      | t :: rest =>
        guardFinite p.num (actionNums p t { s with pending := rest }) (actionState p t { s with pending := rest }) := by
  unfold stepWith nextAction
  cases s.pending with
  | nil => rfl
  | cons t rest => exact hostAction_eq p t _

/-- The inversion lemma of the step: what a step that answers `t` has done. -/
theorem step_cases {s t : State} (h : step s = .next t) :
    (s.pending = [] ∧ t = s) ∨
    ∃ x rest, s.pending = x :: rest ∧ t = actionState Config.machine x { s with pending := rest } ∧
      ∀ y ∈ actionNums Config.machine x { s with pending := rest }, Config.num.isFinite y = true := by
  rw [step_eq, stepWith_eq] at h
  cases hp : s.pending with
  | nil => left; rw [hp] at h; injection h with h; exact ⟨rfl, h.symm⟩
  | cons x rest =>
    right
    rw [hp] at h
    obtain ⟨hf, rfl⟩ := guardFinite_next_iff.1 h
    exact ⟨x, rest, rfl, rfl, hf⟩

/-- The machine's step on a state with a next host action. -/
theorem step_cons {s : State} {x : Txn} {rest : List Txn} (h : s.pending = x :: rest) :
    step s = guardFinite Config.num (actionNums Config.machine x { s with pending := rest })
      (actionState Config.machine x { s with pending := rest }) := by
  rw [step_eq, stepWith_eq, h]
  rfl

/-- A write to a register other than `CMD` does what `writeReg` says and runs no command. -/
theorem actionState_write {p : Params} {addr : BitVec 6} {r : Reg} (h : regAt addr = some r) (hr : r ≠ .cmd)
    (v : PortVal) (s : State) : actionState p (.write addr v) s = writeReg p v s r := by
  simp only [actionState, h]

/-- A write to a register other than `CMD` stores the Nums `writtenNums` says. -/
theorem actionNums_write {p : Params} {addr : BitVec 6} {r : Reg} (h : regAt addr = some r) (hr : r ≠ .cmd)
    (v : PortVal) (s : State) : actionNums p (.write addr v) s = writtenNums v s r := by
  simp only [actionNums, h]

/-- A run of `k + 1` steps is one step and a run of `k`. -/
theorem run_succ {s t : State} (h : step s = .next t) (k : Nat) :
    Host.Core.run Sys2Proof.core (k + 1) s = Host.Core.run Sys2Proof.core k t := by
  have h' : Sys2Proof.core.step s = .next t := h
  simp only [Host.Core.run, h']

/-- The map of R62 is one to one: the address of a register selects that register. -/
@[simp] theorem regAt_addr (r : Reg) : regAt r.addr = some r := by cases r <;> rfl

end Sys2Proof.Machine

namespace Sys2Proof

/-- A command's row is selected by its own operation code and operand. -/
theorem rowOf_opcode (i : Instr) : rowOf i.opcode i.operand = some i := by cases i <;> rfl

/-- The row an operation code selects has that operation code. -/
theorem opcode_of_rowOf {opc : BitVec 8} {x : BitVec 4} {i : Instr} (h : rowOf opc x = some i) : i.opcode = opc := by
  unfold rowOf at h
  split at h <;> first | (injection h with h; subst h; rfl) | cases h

/-- The decoder's answer by the three fields of the word (R90 to R92). -/
theorem decode_ok_iff (w : Word) (i : Instr) :
    decode w = .ok i ↔ opcField w = i.opcode ∧ operandField w = i.operand ∧ reservedField w = 0 := by
  unfold decode
  constructor
  · intro h
    split at h
    · cases h
    · next j hj =>
      split at h
      · next hc =>
        injection h with h
        subst h
        exact ⟨(opcode_of_rowOf hj).symm, hc.2, hc.1⟩
      · cases h
  · rintro ⟨a, b, c⟩
    rw [a, b, rowOf_opcode]
    simp [c]

end Sys2Proof
end

