-- ==== Sys2Proof/Laws/PerInstr.lean ====
section
/-! SUPPORT. Statements for all commands, one lemma per constructor. -/

namespace Sys2Proof.Laws.EncodedRow

open Sys2Proof

/-- The encoder writes the row of R93: the operation code in bits 7:0, the operand in bits 11:8, zero above. -/
def Statement (i : Instr) : Prop :=
  opcField (encode i) = i.opcode ∧ operandField (encode i) = i.operand ∧ reservedField (encode i) = 0

theorem nop : Statement .nop := by unfold Statement; decide
theorem srst : Statement .srst := by unfold Statement; decide
theorem clr (mask : BitVec 4) : Statement (.clr mask) := by unfold Statement; revert mask; decide
theorem enc (g : BitVec 4) : Statement (.enc g) := by unfold Statement; revert g; decide
theorem dec : Statement .dec := by unfold Statement; decide
theorem decxy : Statement .decxy := by unfold Statement; decide
theorem mod : Statement .mod := by unfold Statement; decide
theorem noisew : Statement .noisew := by unfold Statement; decide
theorem noises : Statement .noises := by unfold Statement; decide
theorem detect : Statement .detect := by unfold Statement; decide
theorem decide : Statement .decide := by unfold Statement; decide
theorem demod : Statement .demod := by unfold Statement; decide

end Sys2Proof.Laws.EncodedRow
end

