-- ==== Sys2Proof/Tests/ExactNum.lean ====
section
/-! SUPPORT. A number system for the tests: the numbers `a + b·√2 + c·π` with rational `a`, `b`, `c`, on which the
operations are exact wherever the specification's small vectors need them. -/

namespace Sys2Proof.Tests

open Sys2Proof.Machine

/-- The number `a + b·√2 + c·π`. -/
structure Exact where
  a : Rat
  b : Rat
  c : Rat
  deriving DecidableEq, Repr

/-- `a + b·√2` as a formula. -/
def quad (a b : Rat) : NumVal :=
  if b = 0 then .rat a else .add (.rat a) (.mul (.rat b) (.sqrt (.rat 2)))

/-- `q·π` as a formula. -/
def piTimes (q : Rat) : NumVal := if q = 0 then .rat 0 else .mul (.rat q) .pi

namespace Exact

/-- The number as a formula, one for each number. -/
def formula (x : Exact) : NumVal :=
  if x.c = 0 then quad x.a x.b
  else if x.a = 0 ∧ x.b = 0 then piTimes x.c
  else .add (quad x.a x.b) (piTimes x.c)

/-- A rational number. -/
def ofRat (q : Rat) : Exact := ⟨q, 0, 0⟩

/-- A multiple of `π`. -/
def ofPi (q : Rat) : Exact := ⟨0, 0, q⟩

/-- The number to three places, by which numbers compare: the vectors compare equal numbers or numbers far apart. -/
def size (x : Exact) : Rat := x.a + x.b * (577 / 408) + x.c * (355 / 113)

/-- The product, of two numbers without `π` or of a number and a rational; 0 stands for any other. -/
def mul (x y : Exact) : Exact :=
  if x.c = 0 ∧ y.c = 0 then ⟨x.a * y.a + 2 * x.b * y.b, x.a * y.b + x.b * y.a, 0⟩
  else if x.b = 0 ∧ x.c = 0 then ⟨x.a * y.a, x.a * y.b, x.a * y.c⟩
  else if y.b = 0 ∧ y.c = 0 then ⟨x.a * y.a, x.b * y.a, x.c * y.a⟩
  else ofRat 0

/-- The quotient by a number without `π`, or of two multiples of `π`; 0 stands for any other. -/
def div (x y : Exact) : Exact :=
  if y.c = 0 then
    let n := y.a * y.a - 2 * y.b * y.b
    mul x ⟨y.a / n, -y.b / n, 0⟩
  else if x.a = 0 ∧ x.b = 0 ∧ y.a = 0 ∧ y.b = 0 then ofRat (x.c / y.c)
  else ofRat 0

/-- The square root of a rational square. -/
def ratSqrt (q : Rat) : Option Rat :=
  let r : Rat := (Nat.sqrt q.num.toNat : Rat) / (Nat.sqrt q.den : Rat)
  if 0 ≤ q && r * r = q then some r else none

/-- The square root of a rational square or of twice one; 0 stands for any other. -/
def sqrt (x : Exact) : Exact :=
  match ratSqrt x.a, ratSqrt (x.a / 2) with
  | some r, _ => ofRat r
  | none, some r => ⟨0, r, 0⟩
  | none, none => ofRat 0

/-- `sin(q·π)` where it is 0, ±1 or ±√2/2; 0 stands for any other. -/
def sinPi (q : Rat) : Exact :=
  let t := 4 * q - 8 * (((4 * q) / 8).floor : Rat)
  if t = 1 || t = 3 then ⟨0, 1 / 2, 0⟩
  else if t = 2 then ofRat 1
  else if t = 5 || t = 7 then ⟨0, -1 / 2, 0⟩
  else if t = 6 then ofRat (-1)
  else ofRat 0

/-- `arccos` at 1, √2/2, 0, −√2/2, −1; 0 stands for any other. -/
def arccos (x : Exact) : Exact :=
  if x = ⟨0, 1 / 2, 0⟩ then ofPi (1 / 4)
  else if x = ofRat 0 then ofPi (1 / 2)
  else if x = ⟨0, -1 / 2, 0⟩ then ofPi (3 / 4)
  else if x = ofRat (-1) then ofPi 1
  else ofRat 0

/-- `atan2` on the axes and the diagonals; 0 stands for any other. -/
def atan2 (y x : Exact) : Exact :=
  if y = ofRat 0 then (if x.size < 0 then ofPi 1 else ofPi 0)
  else if x = ofRat 0 then (if y.size < 0 then ofPi (-1 / 2) else ofPi (1 / 2))
  else if x = y then (if y.size < 0 then ofPi (-3 / 4) else ofPi (1 / 4))
  else if x = mul (ofRat (-1)) y then (if y.size < 0 then ofPi (-1 / 4) else ofPi (3 / 4))
  else ofRat 0

end Exact

/-- The tests' number system; a number of a million or more stands for an infinity. -/
def exactNum : Numeric where
  Num := Exact
  lit := Exact.ofRat
  pi := Exact.ofPi 1
  add x y := ⟨x.a + y.a, x.b + y.b, x.c + y.c⟩
  sub x y := ⟨x.a - y.a, x.b - y.b, x.c - y.c⟩
  mul := Exact.mul
  div := Exact.div
  sqrt := Exact.sqrt
  sin x := Exact.sinPi x.c
  cos x := Exact.sinPi (x.c + 1 / 2)
  arccos := Exact.arccos
  atan2 := Exact.atan2
  floor x := x.size.floor
  lt x y := decide (x.size < y.size)
  le x y := decide (x.size ≤ y.size)
  eq x y := decide (x.size = y.size)
  enc _ := 0
  dec v := Exact.ofRat v.toNat
  outside _ := Exact.ofRat 0
  regionOutside _ := 0
  finite x := decide (-1000000 < x.size ∧ x.size < 1000000)
  lt_irrefl := by simp
  lt_trans x y z _ _ _ h k := by simp only [decide_eq_true_eq] at h k ⊢; exact h.trans k
  le_eq x y _ _ := by simp [← not_lt]
  eq_eq x y _ _ := by simp [le_antisymm_iff]
  finite_zero := by decide +kernel
  finite_one := by decide +kernel
  finite_neg_one := by decide +kernel
  zero_lt_one := by decide +kernel
  neg_one_lt_zero := by decide +kernel

/-- The tests' parameters: exact numbers, the default alphabet, room for 64 bits, 64 samples, 32 symbols and 128
output bits, and a stream that delivers the given draws, then zeros. -/
def testParams (draws : List NumVal) : Params where
  num := exactNum
  alphabet := Alphabet.default
  caps := { bitCap := 64, sigCap := 64, symCap := 32, bitoutCap := 128 }
  gauss i := draws.getD i .zero

/-- The formula of the number that a formula is: equal numbers get equal formulas. -/
def settle (x : NumVal) : NumVal := (exactNum.eval x).formula

/-- A state with every Num in it settled, so that states compare by the numbers they hold. -/
def settled (s : State) : State :=
  { s with
    cfgAmp := settle s.cfgAmp, cfgPeriod := settle s.cfgPeriod, cfgNs := settle s.cfgNs, phaseIn := settle s.phaseIn,
    xIn := settle s.xIn, yIn := settle s.yIn, resPhase := settle s.resPhase, symReLatch := settle s.symReLatch,
    sig := s.sig.map settle, sym := s.sym.map fun z => ⟨settle z.re, settle z.im⟩,
    readData := match s.readData with
      | .num x => .num (settle x)
      | .word v => .word v }

/-- `r = sqrt(2)/2` of the vectors. -/
def r : NumVal := quad 0 (1 / 2)

/-- `−r`. -/
def nr : NumVal := quad 0 (-1 / 2)

end Sys2Proof.Tests
end

