-- ==== Sys2Proof/Tests/Slice0.lean ====
section
/-! SUPPORT. Tests. Expected values are the vectors V and the programs P of the specification's file of test vectors,
or words written out bit by bit from R90 and R93; each test names its source. -/

namespace Sys2Proof.Tests

open Sys2Proof.Machine

/-! ### Well-formedness: the one check of R92 that needs the order -/

/-- V4: ENC 2 under BPSK, ENC 4 under QPSK and ENC 8 under 8PSK are ill-formed; 16PSK has no ill-formed operand. -/
theorem test_wellformed_smoke :
    (Instr.enc 2).wellFormed 0 = false ∧ (Instr.enc 4).wellFormed 1 = false ∧ (Instr.enc 8).wellFormed 2 = false ∧
    (Instr.enc 1).wellFormed 0 = true ∧ (Instr.enc 3).wellFormed 1 = true ∧ (Instr.enc 7).wellFormed 2 = true ∧
    (Instr.enc 15).wellFormed 3 = true := by decide

/-! ### Decoding: every row of R93, `IMM` (bits 31:8) then `OPC` (bits 7:0) -/

theorem test_decode_nop : decode 0b000000000000000000000000_00000000 = .ok .nop := by decide
theorem test_decode_srst : decode 0b000000000000000000000000_00000001 = .ok .srst := by decide
theorem test_decode_clr : decode 0b00000000000000000000_0110_00000010 = .ok (.clr 6) := by decide
theorem test_decode_enc : decode 0b00000000000000000000_1101_00010000 = .ok (.enc 13) := by decide
theorem test_decode_dec : decode 0b000000000000000000000000_00010001 = .ok .dec := by decide
theorem test_decode_decxy : decode 0b000000000000000000000000_00010010 = .ok .decxy := by decide
theorem test_decode_mod : decode 0b000000000000000000000000_00100000 = .ok .mod := by decide
theorem test_decode_noisew : decode 0b000000000000000000000000_00110000 = .ok .noisew := by decide
theorem test_decode_noises : decode 0b000000000000000000000000_00110001 = .ok .noises := by decide
theorem test_decode_detect : decode 0b000000000000000000000000_01000000 = .ok .detect := by decide
theorem test_decode_decide : decode 0b000000000000000000000000_01000001 = .ok .decide := by decide
theorem test_decode_demod : decode 0b000000000000000000000000_01000010 = .ok .demod := by decide

/-- V48 and V45: illegal words, by name. -/
theorem test_decode_illegal :
    decode 0x00000003 = .error (.unknownOpcode 0x03) ∧ decode 0x000000FF = .error (.unknownOpcode 0xFF) ∧
    decode 0x00000043 = .error (.unknownOpcode 0x43) ∧ decode 0xFFFFFFFF = .error (.unknownOpcode 0xFF) ∧
    decode 0x00000100 = .error (.reservedImmediate 0x000001) ∧
    decode 0x00010020 = .error (.reservedImmediate 0x000100) ∧
    decode 0x00001010 = .error (.reservedImmediate 0x000010) ∧
    decode 0x00001002 = .error (.reservedImmediate 0x000010) := by decide

/-- R103, R104: the encoder writes `ENC 5`, `CLR 0xF` and `DEMOD` as the words the specification prints. -/
theorem test_encode_words :
    encode (.enc 5) = 0x00000510 ∧ encode (.clr 0xF) = 0x00000F02 ∧ encode .demod = 0x00000042 := by decide

/-- The table's numbering: a legal word decodes, an illegal one does not, bits above `nbits` are 0. -/
theorem test_decodeTableWord :
    decodeTableWord 32 0x00000010 = some (.enc 0) ∧ decodeTableWord 32 0x00000120 = none ∧
    decodeTableWord 32 0x100000020 = some .mod := by decide

/-! ### One step on a small state -/

/-- The state after the host action `t`, on the tests' parameters with the given draws, every Num settled. -/
def perform (draws : List NumVal) (t : Txn) (s : State) : State :=
  match stepWith (testParams draws) { s with pending := [t] } with
  | .next u => settled u
  | .fault _ => s
  | .refused _ => s

/-- A state with an order, `N` and `A`, else as after reset. -/
def conf (bps1 : BitVec 2) (nsps : BitVec 16) (amp : Rat) : State :=
  { State.reset with cfgOrder := bps1, cfgNsps := nsps, cfgAmp := .rat amp }

/-- The flags of a step: the value `STATUS` reads as. -/
def flagsAfter (t : Txn) (s : State) : BitVec 6 := (perform [] t s).status

/-- V55. -/
theorem test_nop : perform [] (cmd .nop) (conf 1 4 1) = conf 1 4 1 := by decide +kernel

/-- V46. -/
theorem test_srst :
    perform [] (cmd .srst) { conf 1 4 1 with status := 0x09, sig := List.replicate 16 (.rat 1) } = State.reset := by
  decide +kernel

/-- A state with all four buffers filled and `SIG_PAD = 2`. -/
def filled : State :=
  { State.reset with
    status := 1, bitin := [true], sig := [.rat 1], sigPad := 2, sym := [⟨.rat 1, .rat 0⟩], bitout := [true] }

/-- V45: masks 1, 2, 0xC, 0; flags stay. -/
theorem test_clr_masks :
    perform [] (cmd (.clr 0x1)) filled = { filled with bitin := [] } ∧
    perform [] (cmd (.clr 0x2)) filled = { filled with sig := [], sigPad := 0 } ∧
    perform [] (cmd (.clr 0xC)) filled = { filled with sym := [], bitout := [] } ∧
    perform [] (cmd (.clr 0x0)) filled = filled := by decide +kernel

/-- V3: ENC writes the three result registers; the host bit order of `g` is not touched. -/
theorem test_enc :
    perform [] (cmd (.enc 5)) (conf 2 0 0) = { conf 2 0 0 with resG := 5, resK := 5, resPhase := piTimes (11 / 8) } ∧
    (perform [] (cmd (.enc 1)) (conf 0 0 0)).resPhase = piTimes (3 / 2) ∧
    (perform [] (cmd (.enc 15)) (conf 3 0 0)).resPhase = piTimes (31 / 16) := by decide +kernel

/-- V4 and V12: refused operands; a Gray table. -/
theorem test_enc_refused_and_gray :
    perform [] (cmd (.enc 2)) (conf 0 0 0) = { conf 0 0 0 with status := 1 } ∧
    perform [] (cmd (.enc 4)) (conf 1 0 0) = { conf 1 0 0 with status := 1 } ∧
    (let gray : Alphabet := fun b => if h : b = 1 then h ▸ Equiv.swap 2 3 else Equiv.refl _
     let t := settled (encCmd { testParams [] with alphabet := gray } 2 (conf 1 0 0))
     t.resK = 3 ∧ t.resG = 2 ∧ t.resPhase = piTimes (7 / 4)) := by decide +kernel

/-- The phase index DEC finds for `q·π`. -/
def decK (bps1 : BitVec 2) (q : Rat) : BitVec 4 :=
  (perform [] (cmd .dec) { conf bps1 0 0 with phaseIn := piTimes q }).resK

/-- V5: QPSK, boundaries and wrap. -/
theorem test_dec_boundaries :
    decK 1 0 = 0 ∧ decK 1 (1 / 2) = 1 ∧ decK 1 1 = 2 ∧ decK 1 (3 / 2) = 3 ∧ decK 1 2 = 0 ∧ decK 1 (9 / 4) = 0 ∧
    decK 1 (-1 / 8) = 3 ∧ decK 1 (1 / 2 - 1 / 1000) = 0 := by decide +kernel

/-- V12: under the Gray table of order 4 the phase `5π/4` is region 2, group 3; R131: the nominal phase. -/
theorem test_dec_gray :
    let gray : Alphabet := fun b => if h : b = 1 then h ▸ Equiv.swap 2 3 else Equiv.refl _
    let t := settled (decCmd { testParams [] with alphabet := gray } { conf 1 0 0 with phaseIn := piTimes (5 / 4) })
    t.resK = 2 ∧ t.resG = 3 ∧ t.resPhase = piTimes (5 / 4) := by decide +kernel

/-- What DECXY answers for a point: index and flags. -/
def decxyK (bps1 : BitVec 2) (x y : Rat) : BitVec 4 × BitVec 6 :=
  let t := perform [] (cmd .decxy) { conf bps1 0 0 with xIn := .rat x, yIn := .rat y }
  (t.resK, t.status)

/-- V8: QPSK, the axes, the modulus, the zero point. -/
theorem test_decxy_qpsk :
    decxyK 1 1 0 = (0, 0) ∧ decxyK 1 0 1 = (1, 0) ∧ decxyK 1 (-1) 0 = (2, 0) ∧ decxyK 1 0 (-1) = (3, 0) ∧
    decxyK 1 1 1 = (0, 0) ∧ decxyK 1 (-1) 1 = (1, 0) ∧ decxyK 1 2 0 = (0, 0) ∧ decxyK 1 0 0 = (0, 32) := by
  decide +kernel

/-- V9: 8PSK, points on boundaries. -/
theorem test_decxy_boundaries :
    (decxyK 2 1 1).1 = 1 ∧ (decxyK 2 (-1) 1).1 = 3 ∧ (decxyK 2 (-1) (-1)).1 = 5 ∧ (decxyK 2 1 (-1)).1 = 7 ∧
    (decxyK 2 0 1).1 = 2 ∧ (decxyK 2 1 0).1 = 0 := by decide +kernel

/-- P2: QPSK, seven bits, one filler bit; the waveform, the padding count, the input consumed. -/
theorem test_mod_qpsk :
    perform [] (cmd .mod) { conf 1 4 1 with bitin := [true, false, true, false, true, false, false] } =
      { conf 1 4 1 with
        sig := [nr, nr, r, r, nr, nr, r, r, nr, nr, r, r, r, r, nr, nr]
        sigPad := 1 } := by decide +kernel

/-- V49: CFGERR comes before OVF; OVF for 17 symbols of 4 samples in a buffer of 64; V18: the empty input. -/
theorem test_mod_refusals :
    perform [] (cmd .mod) (conf 0 0 0) = { conf 0 0 0 with status := 2 } ∧
    (let s := { conf 0 4 1 with bitin := List.replicate 17 true }
     perform [] (cmd .mod) s = { s with status := 4 }) ∧
    (let s := { conf 0 4 0 with bitin := List.replicate 17 true }
     perform [] (cmd .mod) s = { s with status := 2 }) ∧
    perform [] (cmd .mod) { conf 0 4 1 with sig := [.rat 1] } = conf 0 4 1 := by decide +kernel

/-- V20. -/
theorem test_noisew :
    let s := { State.reset with sig := [.rat 1, .rat 0, .rat (-1), .rat 0], cfgNs := .rat (1 / 2), sigPad := 1 }
    perform [.rat 2, .rat (-1), .rat 0, .rat 4] (cmd .noisew) s =
      { s with sig := [.rat 2, .rat (-1 / 2), .rat (-1), .rat 2], drawPos := 4 } := by decide +kernel

/-- V23: a negative strength is refused, no draw is taken. -/
theorem test_noise_negative :
    let s := { State.reset with sig := [.rat 1], sym := [⟨.rat 1, .rat 0⟩], cfgNs := .rat (-1 / 10) }
    perform [.rat 2] (cmd .noisew) s = { s with status := 2 } ∧
    perform [.rat 2] (cmd .noises) s = { s with status := 2 } := by decide +kernel

/-- V21 and V22: the real part takes the earlier draw, the stream goes on from where it stands. -/
theorem test_noises :
    let s := { State.reset with sym := [⟨.rat 1, .rat 0⟩], cfgNs := .rat (1 / 2), drawPos := 1 }
    perform [.rat 7, .rat (-3), .rat 1] (cmd .noises) s =
      { s with sym := [⟨.rat (-1 / 2), .rat (1 / 2)⟩], drawPos := 3 } := by decide +kernel

/-- R202's example and V31, V32: the clean symbol `ref_1`; all-zero and constant windows are degenerate. -/
theorem test_detect_qpsk :
    perform [] (cmd .detect) { conf 1 4 1 with sig := [r, nr, nr, r] } =
      { conf 1 4 1 with sig := [r, nr, nr, r], sym := [⟨nr, r⟩] } ∧
    (let t := perform [] (cmd .detect) { conf 1 4 1 with sig := [.rat 0, .rat 0, .rat 0, .rat 0, .rat 1] }
     t.sym = [⟨r, r⟩] ∧ t.status = 8) ∧
    (let t := perform [] (cmd .detect) { conf 1 4 1 with sig := List.replicate 4 (.rat 1) }
     t.sym = [⟨r, r⟩] ∧ t.status = 8) := by decide +kernel

/-- V27, V31, V32, V37: BPSK; the bit-1 symbol gives `(1, 0)`, the all-zero window the fallback, a constant window no
flag; an unconfigured block refuses. -/
theorem test_detect_bpsk :
    (perform [] (cmd .detect) { conf 0 4 1 with sig := [.rat (-1), .rat 0, .rat 1, .rat 0] }).sym =
      [⟨.rat 1, .rat 0⟩] ∧
    (let t := perform [] (cmd .detect) { conf 0 4 1 with sig := List.replicate 4 (.rat 0) }
     t.sym = [⟨.rat 0, .rat 1⟩] ∧ t.status = 8) ∧
    (let t := perform [] (cmd .detect) { conf 0 4 1 with sig := List.replicate 4 (.rat 1) }
     t.sym = [⟨.rat 0, .rat 1⟩] ∧ t.status = 0) ∧
    perform [] (cmd .detect) (conf 0 2 1) = { conf 0 2 1 with status := 2 } := by decide +kernel

/-- V38, V40, V43: depadding; the zero point; a filler bit dropped unseen. -/
theorem test_decide_higher :
    (perform [] (cmd .decide) { conf 1 0 0 with sigPad := 1, sym := [⟨nr, nr⟩, ⟨r, r⟩] }).bitout =
      [true, false, false] ∧
    (let t := perform [] (cmd .decide) { conf 1 0 0 with sym := [⟨.rat 0, .rat 0⟩] }
     t.bitout = [false, false] ∧ t.status = 32) ∧
    (let t := perform [] (cmd .decide) { conf 1 0 0 with sigPad := 1, sym := [⟨nr, r⟩] }
     t.bitout = [false] ∧ t.status = 0) := by decide +kernel

/-- V39 and V41: the real-part rule of order 2; padding counts that cannot be right. -/
theorem test_decide_bpsk_and_padding :
    (let t := perform [] (cmd .decide)
        { conf 0 0 0 with sym := [⟨.rat (1 / 5), .rat (9 / 10)⟩, ⟨.rat 0, .rat 1⟩, ⟨.rat (-1 / 10), .rat 0⟩,
            ⟨.rat 0, .rat 0⟩, ⟨.rat (1 / 1000000000), .rat (-5)⟩] }
     t.bitout = [true, false, false, false, true] ∧ t.status = 0) ∧
    (let t := perform [] (cmd .decide) { conf 2 0 0 with sigPad := 2 }
     t.bitout = [] ∧ t.status = 16) ∧
    (let t := perform [] (cmd .decide) { conf 1 0 0 with sigPad := 3, sym := [⟨r, r⟩] }
     t.bitout = [] ∧ t.status = 16) := by decide +kernel

/-- V44 with exact numbers: QPSK, `ref_0`, `NS = 2` (so `σ = 1`), draws `−2r` and 0: the noisy point `(−r, r)` lies in
the second quadrant, so the sent group `00` is recovered as `01`. -/
theorem test_demod :
    let s := { conf 1 4 1 with cfgNs := .rat 2, sig := [r, r, nr, nr] }
    perform [quad 0 (-1), .rat 0] (cmd .demod) s =
      { s with sym := [⟨nr, r⟩], bitout := [false, true], drawPos := 2 } := by decide +kernel

/-- V23: DEMOD with a negative strength changes nothing but the flag. -/
theorem test_demod_refused :
    let s := { conf 1 4 1 with cfgNs := .rat (-1), sig := [r, r, nr, nr] }
    perform [] (cmd .demod) s = { s with status := 2 } := by decide +kernel

/-! ### The host port -/

/-- V51: field masks. -/
theorem test_port_masks :
    perform [] (wr .cfgOrder 0xFFFFFFFF) State.reset = { State.reset with cfgOrder := 3 } ∧
    perform [] (wr .cfgNsps 0x00012345) State.reset = { State.reset with cfgNsps := 0x2345 } ∧
    perform [] (wr .sigPad 7) State.reset = { State.reset with sigPad := 3 } ∧
    (perform [] (wr .bitinPush 0xFFFFFFFE) State.reset).bitin = [false] ∧
    (perform [] (wr .bitinPush 3) State.reset).bitin = [true] := by decide +kernel

/-- V47: write one to clear. -/
theorem test_port_status :
    let s := { State.reset with status := 0x09 }
    flagsAfter (wr .status 0x01) s = 0x08 ∧ flagsAfter (wr .status 0x36) { s with status := 0x08 } = 0x08 ∧
    flagsAfter (wr .status 0x3F) s = 0x00 ∧ flagsAfter (wr .status 0xFFFFFFC0) s = 0x09 := by decide +kernel

/-- V52: reserved and wrong-direction accesses. -/
theorem test_port_reserved :
    (perform [] (.read 0x0F) filled).readData = .word 0 ∧ (perform [] (.read 0x3F) filled).readData = .word 0 ∧
    (perform [] (rd .cmd) filled).readData = .word 0 ∧ (perform [] (rd .bitinPush) filled).readData = .word 0 ∧
    perform [] (.write 0x1D (.word 5)) filled = filled ∧ perform [] (wr .sigLen 5) filled = filled ∧
    perform [] (wr .resK 5) filled = filled := by decide +kernel

/-- V50 and V54: pushes of symbols use the latch, a full buffer drops the pair. -/
theorem test_port_symbol_push :
    let s := { State.reset with symReLatch := .rat (3 / 10) }
    (perform [] (wrNum .symImPush (.rat (-2 / 5))) s).sym = [⟨.rat (3 / 10), .rat (-2 / 5)⟩] ∧
    (perform [] (wrNum .symImPush (.rat (9 / 10))) s).symReLatch = .rat (3 / 10) ∧
    (let full := { s with sym := List.replicate 32 ⟨.rat 0, .rat 0⟩ }
     perform [] (wrNum .symImPush (.rat 1)) full = { full with status := 4 }) := by decide +kernel

/-- V19 and V53: the time axis and the indexed ports. -/
theorem test_port_indexed_reads :
    let s := { conf 1 4 1 with cfgPeriod := .rat 2, sig := List.replicate 16 (.rat 1), bitout := [true],
                               sym := [⟨.rat (3 / 10), .rat (-2 / 5)⟩] }
    (perform [] (rd .timeRd) { s with idx := 5 }).readData = .num (.rat (5 / 2)) ∧
    (perform [] (rd .timeRd) { s with idx := 15 }).readData = .num (.rat (15 / 2)) ∧
    (perform [] (rd .timeRd) { s with idx := 16 }).readData = .num (.rat 0) ∧
    (perform [] (rd .symReRd) s).readData = .num (.rat (3 / 10)) ∧
    (perform [] (rd .symImRd) s).readData = .num (.rat (-2 / 5)) ∧
    (perform [] (rd .symImRd) { s with idx := 1 }).readData = .num (.rat 0) ∧
    (perform [] (rd .bitoutRd) s).readData = .word 1 := by decide +kernel

/-- Whether a host action faults. -/
def faults (draws : List NumVal) (t : Txn) (s : State) : Bool :=
  match stepWith (testParams draws) { s with pending := [t] } with
  | .next _ => false
  | .fault _ => true
  | .refused _ => false

/-- U5: a value that is not finite, written, pushed, in a register or a buffer a command reads, or drawn: "Treatment:
fault". A refused NOISEW takes no draw (R171), so none is looked at. -/
theorem test_not_finite :
    let big := NumVal.rat 1000000
    let noisy := { State.reset with sig := [.rat 1], cfgNs := .rat 1 }
    faults [] (wrNum .cfgAmp big) State.reset = true ∧ faults [] (wrNum .sigPush big) State.reset = true ∧
    faults [] (cmd .dec) { State.reset with phaseIn := big } = true ∧
    faults [] (cmd .decide) { State.reset with sym := [⟨.rat 1, big⟩] } = true ∧
    faults [big] (cmd .noisew) noisy = true ∧ faults [.rat 2, big] (cmd .noisew) noisy = false ∧
    faults [big] (cmd .noisew) { noisy with cfgNs := .rat (-1) } = false := by decide +kernel

/-- V49: after reset, MOD with a reserved bit set is CMDERR only. -/
theorem test_port_check_order : flagsAfter (wr .cmd 0x00000120) State.reset = 1 := by decide +kernel

end Sys2Proof.Tests
end

