-- ==== Sys2Proof/Tests/Witness.lean ====
section
/-! SUPPORT. For every obligation with hypotheses, a concrete state and operands that meet all of them together, at the
boundary values of its clauses. The parameters of the machine are opaque, so a witness about them is one that holds
whatever they are: its Nums are 0, 1 and −1, which are finite in every number system, and it takes no draw. A witness
over the reals takes the reference number system `Numeric.reals`, and one with other values or with draws the tests'
number system. -/

namespace Sys2Proof.Tests

open Sys2Proof.Machine Sys2Proof.Claims

/-- Exact real arithmetic with the outside number `n` equal to `n`. -/
noncomputable def realNum : Numeric := Numeric.reals fun n => n

/-- The real number of a Num, for `realNum`. -/
noncomputable def realV : NumVal → ℝ := NumVal.toReal fun n => n

/-- The tests' parameters over the reals. -/
noncomputable def realParams : Params := { testParams [] with num := realNum }

/-- The hypothesis `p.num.IsReal v` of every statement over the reals (NominalPhasesAreEquallySpaced has no other). -/
theorem witness_isReal : realNum.IsReal realV ∧ realParams.num.IsReal realV :=
  ⟨Numeric.reals_isReal _, Numeric.reals_isReal _⟩

/-- A state with `N = 3`, `A = 1`, `NS = 0`, the least legal values of `N` and `NS`. -/
def legal : State := { conf 1 3 1 with cfgNs := .rat 0 }

/-- A million, which stands for an infinity in the tests' number system. -/
def infinity : NumVal := .rat 1000000

/-- A command whose Nums are finite runs. -/
theorem exec_runs {i : Instr} {s : State} (h : FiniteOperands i s) : ∃ t, exec i s = .next t :=
  ⟨_, exec_next_iff.2 ⟨h, rfl⟩⟩

/-! ### Machine and encoding -/

/-- The Nums 0, 1 and −1 are finite in every number system: `FiniteNum` wherever a statement asks it of one Num
(DecWritesTheRegionOfThePhase, DecxyWritesTheRegionOfThePoint, ModSynthesizesThePaddedBits,
AccessRightsOfTheRegisters, WrittenRegistersReadBack, PushRegistersAppendOrOverflow, IndexedReadPortsReturnTheElement,
ReadsHaveNoSideEffects). -/
theorem witness_FiniteNum : FiniteNum .zero ∧ FiniteNum (.rat 0) ∧ FiniteNum (.rat 1) ∧ FiniteNum (.rat (-1)) :=
  ⟨Config.num.isFinite_zero, Config.num.isFinite_zero, Config.num.isFinite_one, Config.num.isFinite_neg_one⟩

/-- Every command has operands that are finite in every number system: samples 1, 0, −1 where it takes no draw. -/
theorem witness_FiniteOperands :
    let s := { legal with sig := [.rat 1, .rat 0, .rat (-1)], sym := [⟨.rat 1, .rat 0⟩], phaseIn := .rat (-1) }
    (∀ i ∈ [Instr.nop, .srst, .clr 15, .enc 3, .dec, .decxy, .mod, .detect, .decide], FiniteOperands i s) ∧
    (∀ i ∈ [Instr.noisew, .noises, .demod], FiniteOperands i legal) := by
  constructor <;> intro i hi <;> fin_cases hi <;> intro x hx <;> revert x <;>
    simp [commandNums, decNums, decxyNums, modNums, detectNums, decideNums, noisewNums, noisesNums, demodNums,
      detectWindows, windows, nextDraws, symbolParts, symbolNoise, addSymbolNoise, FiniteNum, legal, conf, State.reset,
      Config.machine]

/-- StepsCompleteUnlessANumIsNotFinite, the clauses that stop: a value that is not finite, in each of its places. -/
theorem witness_StepsComplete :
    let p := testParams [.rat 0, infinity]
    let s := { legal with sig := [.rat 1, infinity, .rat 0], sym := [⟨.rat 0, infinity⟩] }
    let u := { legal with phaseIn := infinity, xIn := infinity, yIn := infinity, cfgAmp := infinity, cfgNs := infinity,
                          cfgPeriod := infinity, symReLatch := infinity, cfgNsps := 1, sig := [.rat 1] }
    (infinity = u.phaseIn ∧ infinity = u.xIn ∧ infinity = u.yIn ∧ infinity = u.cfgAmp ∧ infinity = u.cfgNs ∧
      infinity = u.symReLatch) ∧
    (infinity = u.cfgPeriod ∧ u.idx.toNat < u.sig.length ∧ 1 ≤ u.cfgNsps.toNat) ∧
    p.num.isFinite infinity = false ∧
    infinity ∈ s.sig ∧ (⟨.rat 0, infinity⟩ : Cplx) ∈ s.sym ∧
    1 < s.sig.length ∧ 1 < 2 * s.sym.length ∧ 1 < 2 * (s.sig.length / s.cfgNsps.toNat) ∧
    3 ≤ s.cfgNsps.toNat ∧ p.num.less .zero s.cfgAmp = true ∧ p.num.atMost .zero s.cfgNs = true ∧
    infinity = p.gauss (s.drawPos + 1) ∧ infinity = (PortVal.num infinity).asNum := by decide +kernel

/-- EveryStepKeepsTheInvariant: a state the host has written to, about to be stepped. -/
theorem witness_EveryStepKeepsTheInvariant :
    let s : State := { State.reset with cfgOrder := 3, cfgNsps := 2, pending := [cmd .demod, rd .status] }
    Invariant Config.machine s ∧ HostNumsFinite s ∧ ∃ t, step s = .next t :=
  ⟨⟨Nat.zero_le _, Nat.zero_le _, Nat.zero_le _, Nat.zero_le _, by decide, by decide⟩,
    by simp [HostNumsFinite, FiniteNum, State.reset], _, rfl⟩

/-- CommandWordsAreCheckedInOrder: a word for each clause, the operand of ENC on both sides of `M = 2`. -/
theorem witness_CommandWordsAreCheckedInOrder :
    let table : List (BitVec 8) := [0x00, 0x01, 0x02, 0x10, 0x11, 0x12, 0x20, 0x30, 0x31, 0x40, 0x41, 0x42]
    (0x00000043#32).extractLsb' 0 8 ∉ table ∧ (0xFFFFFFFF#32).extractLsb' 0 8 ∉ table ∧
    ((0x00001010#32).extractLsb' 0 8 = 0x10 ∧ ((0x00001010#32).extractLsb' 8 24).extractLsb' 4 20 ≠ 0) ∧
    ((0x80000002#32).extractLsb' 0 8 = 0x02 ∧ ((0x80000002#32).extractLsb' 8 24).extractLsb' 4 20 ≠ 0) ∧
    ((0x00010020#32).extractLsb' 0 8 = 0x20 ∧ (0x00010020#32).extractLsb' 8 24 ≠ 0) ∧
    ((0x00000210#32).extractLsb' 0 8 = 0x10 ∧
      2 ^ (State.reset.cfgOrder.toNat + 1) ≤ (((0x00000210#32).extractLsb' 8 24).extractLsb' 0 4).toNat) ∧
    ((0x00000110#32).extractLsb' 0 8 ∈ table ∧ ((0x00000110#32).extractLsb' 8 24).extractLsb' 4 20 = 0 ∧
      (((0x00000110#32).extractLsb' 8 24).extractLsb' 0 4).toNat < 2 ^ (State.reset.cfgOrder.toNat + 1)) ∧
    ((0x00000F02#32).extractLsb' 0 8 ∈ table ∧ ((0x00000F02#32).extractLsb' 8 24).extractLsb' 4 20 = 0) ∧
    ((0x00000042#32).extractLsb' 0 8 ∈ table ∧ (0x00000042#32).extractLsb' 8 24 = 0) := by decide

/-- The hypotheses of `ZeroImmediateOnly`, a clause of NopChangesNothing, SrstRestoresTheResetState,
DecWritesTheRegionOfThePhase, DecxyWritesTheRegionOfThePoint, ModSynthesizesThePaddedBits,
NoisewAddsOneScaledDrawPerSample, NoisesAddsTwoScaledDrawsPerSymbol, DetectEstimatesEveryWindow,
DecideRecoversAndTrimsTheBits and DemodIsItsThreeSteps: the lowest and the highest immediate bit. -/
theorem witness_ZeroImmediateOnly :
    ∀ opc ∈ [0x00#8, 0x01#8, 0x11#8, 0x12#8, 0x20#8, 0x30#8, 0x31#8, 0x40#8, 0x41#8, 0x42#8],
      ∀ bit ∈ [0x00000100#32, 0x80000000#32],
        (opc.setWidth 32 ||| bit).extractLsb' 0 8 = opc ∧ (opc.setWidth 32 ||| bit).extractLsb' 8 24 ≠ 0 := by
  intro opc ho bit hb
  fin_cases ho <;> fin_cases hb <;> decide

/-- The hypotheses of `ReservedImmediateRefused`, a clause of ClrEmptiesTheSelectedBuffers and
EncWritesTheNominalPhase: the lowest and the highest reserved bit. -/
theorem witness_ReservedImmediateRefused :
    ∀ opc ∈ [0x02#8, 0x10#8], ∀ bit ∈ [0x00001000#32, 0x80000000#32],
      (opc.setWidth 32 ||| bit).extractLsb' 0 8 = opc ∧ (opc.setWidth 32 ||| bit).extractLsb' 12 20 ≠ 0 := by
  intro opc ho bit hb
  fin_cases ho <;> fin_cases hb <;> decide

/-- StepRunsTheDecodedCommand. -/
theorem witness_StepRunsTheDecodedCommand :
    let s : State := { State.reset with pending := [.write 0x00 (.word 0x00000020), .read 0x01] }
    s.pending = .write 0x00 (.word 0x00000020) :: [.read 0x01] ∧
    decode ((PortVal.word 0x00000020).asWord Config.machine) = .ok .mod := by decide

/-- FetchWordRunsAsTheNextCommand, for the first and the last row of the table. -/
theorem witness_FetchWordRunsAsTheNextCommand :
    decodeTableWord 32 0x00000000 = some .nop ∧ decodeTableWord 32 0x00000042 = some .demod := by decide

/-! ### Alphabet -/

/-- AssignmentIsABijection and EncThenDecIsTheIdentity: the smallest and the largest operand of the smallest and the
largest order; parameters with the default table. -/
theorem witness_AssignmentIsABijection :
    (0 : Nat) < 2 ^ ((0 : BitVec 2).toNat + 1) ∧ 1 < 2 ^ ((0 : BitVec 2).toNat + 1) ∧
    15 < 2 ^ ((3 : BitVec 2).toNat + 1) ∧ (testParams []).alphabet = Alphabet.default :=
  ⟨by decide, by decide, by decide, rfl⟩

/-- GroupValuesReadTheFirstBitAsMostSignificant: the last clause, at both ends. -/
theorem witness_GroupValues : 0 < 2 ^ 0 ∧ 15 < 2 ^ 4 := by decide

/-- EncWritesTheNominalPhase: `g = 2` is refused and `g = 1` runs under BPSK, `g = 15` runs under 16PSK. -/
theorem witness_EncWritesTheNominalPhase :
    2 ^ ((conf 0 0 0).cfgOrder.toNat + 1) ≤ (2 : BitVec 4).toNat ∧
    (1 : BitVec 4).toNat < 2 ^ ((conf 0 0 0).cfgOrder.toNat + 1) ∧
    (15 : BitVec 4).toNat < 2 ^ ((conf 3 0 0).cfgOrder.toNat + 1) := by decide

/-- DecOverTheReals: the reference number system on a state with a negative phase. -/
theorem witness_DecOverTheReals :
    realParams.num.IsReal realV ∧ ({ State.reset with phaseIn := .rat (-1) } : State).phaseIn = .rat (-1) :=
  ⟨witness_isReal.2, rfl⟩

/-- DecxyOverTheReals: the zero point, a point on each axis. -/
theorem witness_DecxyOverTheReals :
    realParams.num.IsReal realV ∧
    (realV State.reset.xIn = 0 ∧ realV State.reset.yIn = 0) ∧
    (realV (.rat 1) ≠ 0 ∨ realV (.rat 0) ≠ 0) ∧ (realV (.rat 0) ≠ 0 ∨ realV (.rat (-1)) ≠ 0) := by
  refine ⟨witness_isReal.2, ?_, ?_, ?_⟩ <;> simp [realV, State.reset]

/-- BoundaryPhasesBelongToTheUpperRegion: the last boundary of 16PSK, and `2π`. -/
theorem witness_BoundaryPhases :
    realParams.num.IsReal realV ∧ 15 < points 3 ∧
    realV (.div (.mul (.mul (.rat 2) .pi) (.rat 15)) (.rat 16)) = 2 * Real.pi * (15 : Nat) / points 3 ∧
    realV (.mul (.rat 2) .pi) = 2 * Real.pi := by
  refine ⟨witness_isReal.2, by decide, ?_, ?_⟩ <;> simp [realV, points, width]

/-- DecxyIgnoresTheModulus: the points `(1, −1)` and `(2, −2)`. -/
theorem witness_DecxyIgnoresTheModulus :
    let s : State := { State.reset with xIn := .rat 1, yIn := .rat (-1) }
    realParams.num.IsReal realV ∧ (0 : ℝ) < 2 ∧ realV (.rat 2) = 2 * realV s.xIn ∧
    realV (.rat (-2)) = 2 * realV s.yIn := by
  refine ⟨witness_isReal.2, by norm_num, ?_, ?_⟩ <;> simp [realV]

/-! ### Configuration values, whatever the machine's parameters are -/

/-- MOD, DETECT, DEMOD: legal at `N = 3`, `A = 1`; illegal at `N = 2`, at `A = 0` and at `A = −1`; the strength is
legal at 0 and illegal at −1 (ModSynthesizesThePaddedBits, NoisewAddsOneScaledDrawPerSample,
NoisesAddsTwoScaledDrawsPerSymbol, DrawsAreTakenOnlyByNoiseCommands, DetectEstimatesEveryWindow, DemodIsItsThreeSteps,
IllegalConfigurationIsRefusedWithCfgerr). -/
theorem witness_configuration :
    (3 ≤ legal.cfgNsps.toNat ∧ AmplitudeLegal legal ∧ StrengthLegal legal) ∧
    (conf 1 2 1).cfgNsps.toNat < 3 ∧ ¬ AmplitudeLegal (conf 1 4 0) ∧ ¬ AmplitudeLegal (conf 1 4 (-1)) ∧
    ¬ StrengthLegal { legal with cfgNs := .rat (-1) } := by
  have zero := Config.num.isFinite_zero
  have negOne := Config.num.isFinite_neg_one
  refine ⟨⟨by decide, Config.num.zero_less_one, ?_⟩, by decide, ?_, ?_, ?_⟩
  · exact (Numeric.atMost_eq zero zero).trans (by simp [Numeric.less_self zero])
  · simpa [AmplitudeLegal, conf, NumVal.zero] using Numeric.less_self zero
  · simp [AmplitudeLegal, conf, Numeric.less_asymm negOne zero Config.num.neg_one_less_zero]
  · simp [StrengthLegal, Numeric.atMost_eq zero negOne, Config.num.neg_one_less_zero]

/-- IllegalConfigurationIsRefusedWithCfgerr, and the refusals of the statements above: finite operands with a value
that is not legal, and data in the buffers. -/
theorem witness_FiniteOperands_refused :
    (∀ i ∈ [Instr.mod, .detect, .demod], FiniteOperands i { conf 1 2 1 with sig := [.rat 1, .rat (-1)] }) ∧
    (∀ i ∈ [Instr.mod, .detect], FiniteOperands i (conf 1 4 0)) ∧
    (∀ i ∈ [Instr.noisew, .noises, .demod], FiniteOperands i
      { legal with cfgNs := .rat (-1), sig := [.rat 1], sym := [⟨.rat 0, .rat 1⟩] }) := by
  have h : Config.machine.num.atMost .zero (.rat (-1)) = false := by
    simpa [StrengthLegal, Config.machine] using witness_configuration.2.2.2.2
  refine ⟨?_, ?_, ?_⟩ <;> intro i hi <;> fin_cases hi <;> intro x hx <;> revert x
  all_goals
    simp [commandNums, modNums, detectNums, noisewNums, noisesNums, demodNums, symbolParts, waveConfigLegal,
      noiseConfigLegal, FiniteNum, legal, conf, State.reset, h]

/-- ModSynthesizesThePaddedBits, the capacity: an empty input fits every buffer, one bit more than `SIG_CAP` fits
none. -/
theorem witness_ModSynthesizesThePaddedBits :
    (let s := { legal with cfgOrder := 0 }
     (s.bitin.length + (s.cfgOrder.toNat + 1) - 1) / (s.cfgOrder.toNat + 1) * s.cfgNsps.toNat ≤ Config.caps.sigCap) ∧
    (let s := { legal with cfgOrder := 0, bitin := List.replicate (Config.caps.sigCap + 1) true }
     Config.caps.sigCap <
       (s.bitin.length + (s.cfgOrder.toNat + 1) - 1) / (s.cfgOrder.toNat + 1) * s.cfgNsps.toNat) := by
  refine ⟨Nat.zero_le _, ?_⟩
  simp [legal, conf]
  omega

/-- ModRecordsTheBitCount and RecoveredLengthIsTheOriginalLength: seven bits under QPSK, twelve samples. -/
theorem witness_ModRecordsTheBitCount :
    let s := { legal with bitin := [true, false, true, false, true, false, false] }
    3 ≤ s.cfgNsps.toNat ∧ (testParams []).num.less .zero s.cfgAmp = true ∧
    (testParams []).num.atMost .zero s.cfgNs = true ∧
    (s.bitin.length + s.cfgOrder.toNat) / (s.cfgOrder.toNat + 1) * s.cfgNsps.toNat ≤ (testParams []).caps.sigCap := by
  decide +kernel

/-- NoisewAddsOneScaledDrawPerSample and NoisesAddsTwoScaledDrawsPerSymbol: a finite sample and symbol to change.
That a draw is finite is no fact of the machine's opaque stream: their last clause is met there by empty buffers
(`witness_FiniteOperands`), and below, with draws, on the tests' parameters. -/
theorem witness_noise_data :
    let s := { legal with sig := [.rat 1, .rat 0], sym := [⟨.rat 1, .rat 0⟩] }
    s.sig[1]? = some (.rat 0) ∧ s.sym[0]? = some ⟨.rat 1, .rat 0⟩ ∧ (∀ x ∈ s.sig, FiniteNum x) ∧
    (∀ z ∈ s.sym, FiniteSymbol z) ∧ FiniteNum s.cfgNs := by
  simp [legal, FiniteSymbol, FiniteNum]

/-- Finite operands with draws and with windows to detect: NOISEW, NOISES and DEMOD on the tests' parameters run to the
end of their rules (NoisewAddsOneScaledDrawPerSample, NoisesAddsTwoScaledDrawsPerSymbol, DemodIsItsThreeSteps). -/
theorem witness_draws :
    let p := testParams [.rat 7, .rat (-3), .rat 1]
    let s := { conf 1 4 1 with cfgNs := .rat 2, sig := [r, r, nr, nr], sym := [⟨nr, r⟩] }
    ∀ i ∈ [Instr.noisew, .noises, .demod], (∀ x ∈ commandNums p i s, p.num.isFinite x = true) ∧
      (command p i s).status = 0 := by decide +kernel

/-- DrawsAreTakenOnlyByNoiseCommands: a command that ends, and an action that is no command. -/
theorem witness_DrawsAreTakenOnlyByNoiseCommands :
    (∃ t, exec .noisew legal = .next t) ∧ (∃ t, exec .demod legal = .next t) ∧
    (∀ v, rd .status ≠ .write 0x00 v) ∧ ∃ t, step (acting (rd .status) legal) = .next t :=
  ⟨exec_runs (witness_FiniteOperands.2 _ (by decide)), exec_runs (witness_FiniteOperands.2 _ (by decide)),
    fun _ h => Txn.noConfusion h, _, rfl⟩

/-- ZeroStrengthLeavesTheData. -/
theorem witness_ZeroStrengthLeavesTheData : realParams.num.IsReal realV ∧ realV legal.cfgNs = 0 := by
  refine ⟨witness_isReal.2, ?_⟩
  simp [realV, legal]

/-! ### The law of the draws -/

section Gaussian
open MeasureTheory ProbabilityTheory

/-- Outcomes that are sequences of reals, independent and standard normal. -/
noncomputable def gaussSpace : Measure (Nat → ℝ) := Measure.infinitePi fun _ => gaussianReal 0 1

/-- The parameters of an outcome: exact real arithmetic in which the outside number `n` is the outcome's `n`-th value,
and a stream that delivers these numbers. -/
noncomputable def gaussParams (ω : Nat → ℝ) : Params :=
  { testParams [] with num := Numeric.reals ω, gauss := .sym }

/-- NoiseIsGaussianOnTwoScales: a probability space, parameters and a state with one sample and one symbol. -/
theorem witness_NoiseIsGaussianOnTwoScales :
    let s : State := { State.reset with sig := [.rat 1], sym := [⟨.rat 0, .rat 1⟩], cfgNs := .rat 2 }
    IsProbabilityMeasure gaussSpace ∧ (∀ ω, (gaussParams ω).num.IsReal (NumVal.toReal ω)) ∧
    GaussIid gaussSpace (fun i ω => NumVal.toReal ω ((gaussParams ω).gauss (s.drawPos + i))) ∧
    (0 : ℝ) ≤ 2 ∧ (∀ ω : Nat → ℝ, NumVal.toReal ω s.cfgNs = 2) ∧
    (∀ (i : Nat) (a : NumVal), s.sig[i]? = some a → ∀ ω, NumVal.toReal ω a = 1) ∧
    (∀ (j : Nat) (z : Cplx), s.sym[j]? = some z → ∀ ω, NumVal.toReal ω z.re = 0 ∧ NumVal.toReal ω z.im = 1) := by
  refine ⟨by unfold gaussSpace; infer_instance, fun ω => Numeric.reals_isReal ω, ⟨?_, ?_⟩, by norm_num, ?_, ?_, ?_⟩
  · have h := iIndepFun_infinitePi (P := fun _ : Nat => gaussianReal 0 1) (X := fun _ x => x) (fun _ => measurable_id)
    simpa [gaussParams, gaussSpace, State.reset] using h
  · intro i
    have h := measurePreserving_eval_infinitePi (fun _ : Nat => gaussianReal 0 1) i
    have h' : HasLaw (fun x : Nat → ℝ => x i) (gaussianReal 0 1) gaussSpace := ⟨h.measurable.aemeasurable, h.map_eq⟩
    simpa [gaussParams, State.reset] using h'
  · intro ω; simp
  · intro i a h ω
    cases i <;> simp at h
    subst h; simp
  · intro j z h ω
    cases j <;> simp at h
    subst h; simp

end Gaussian

/-! ### Demodulator -/

/-- WindowsIgnoreTheRaggedRemainder: eleven samples in windows of four. -/
theorem witness_WindowsIgnoreTheRaggedRemainder :
    let s := { conf 1 4 1 with sig := List.replicate 11 (.rat 1) }
    (∃ t, exec .detect s = .next t) ∧ s.sig.length / s.cfgNsps.toNat * s.cfgNsps.toNat = 8 :=
  ⟨exec_runs (by simp [FiniteOperands, commandNums, detectNums, FiniteNum, conf]), by decide⟩

/-- CoefficientsAreTheCorrelations: sequences of one element. -/
theorem witness_CoefficientsAreTheCorrelations :
    realNum.IsReal realV ∧ 0 < 1 ∧ [NumVal.rat 1].length = 1 ∧ [NumVal.rat (-1)].length = 1 :=
  ⟨witness_isReal.1, by decide, rfl, rfl⟩

/-- SelectionTakesTheSmallestMaximum: a tie. -/
theorem witness_SelectionTakesTheSmallestMaximum : realNum.IsReal realV ∧ [NumVal.rat 1, .rat 1] ≠ [] :=
  ⟨witness_isReal.1, by simp⟩

/-- BpskEstimateOverTheReals and HigherOrderEstimateOverTheReals: a window of three samples. -/
theorem witness_estimates :
    realParams.num.IsReal realV ∧ (1 : BitVec 2) ≠ 0 ∧ (3 : BitVec 2) ≠ 0 ∧ 0 < 3 ∧
    [NumVal.rat 1, .rat 0, .rat (-1)].length = 3 := ⟨witness_isReal.2, by decide, by decide, by decide, rfl⟩

/-- DegenerateWindowsTakeTheFallback: the all-zero window and a constant one. -/
theorem witness_DegenerateWindowsTakeTheFallback :
    realParams.num.IsReal realV ∧ 0 < 3 ∧ (List.replicate 3 (NumVal.rat 0)).length = 3 ∧
    (∀ x ∈ List.replicate 3 (NumVal.rat 0), realV x = 0) ∧ (1 : BitVec 2) ≠ 0 ∧
    (∀ x ∈ List.replicate 3 (NumVal.rat 5), realV x = 5) := by
  refine ⟨witness_isReal.2, by decide, rfl, ?_, by decide, ?_⟩ <;> simp [realV]

/-- ReferencesCorrelateAsCosines and CleanSymbolsAreDetected: `N = 3`, `A = 1`, the last index of either order. -/
theorem witness_references :
    realParams.num.IsReal realV ∧ 3 ≤ 3 ∧ 0 < realV (.rat 1) ∧ 1 < points 0 ∧ 15 < points 3 := by
  refine ⟨witness_isReal.2, by decide, ?_, by decide, by decide⟩
  simp [realV]

/-- AmplitudeDoesNotMatter: amplitudes 1 and 7. -/
theorem witness_AmplitudeDoesNotMatter :
    realParams.num.IsReal realV ∧ 3 ≤ legal.cfgNsps.toNat ∧ 0 < realV legal.cfgAmp ∧ 0 < realV (.rat 7) := by
  refine ⟨witness_isReal.2, by decide, ?_, ?_⟩ <;> simp [realV, legal, conf]

/-- DecideAgreesWithDecxy. -/
theorem witness_DecideAgreesWithDecxy : legal.cfgOrder ≠ 0 := by decide

/-- RoundTripWithoutNoise: seven bits under QPSK. -/
theorem witness_RoundTripWithoutNoise :
    let s := { legal with bitin := [true, false, true, false, true, false, false] }
    realParams.num.IsReal realV ∧ 3 ≤ s.cfgNsps.toNat ∧ 0 < realV s.cfgAmp ∧ realV s.cfgNs = 0 ∧
    (s.bitin.length + s.cfgOrder.toNat) / (s.cfgOrder.toNat + 1) * s.cfgNsps.toNat ≤ realParams.caps.sigCap := by
  refine ⟨witness_isReal.2, by decide, ?_, ?_, by decide⟩ <;> simp [realV, legal, conf]

/-! ### Flags and frames -/

/-- StatusFlagsAreStickyAndWriteOneToClear, and the last clause of SrstRestoresTheResetState: a flag set before a
command that ends; the first and the last bit. -/
theorem witness_StatusFlags :
    let s : State := { State.reset with status := 0x21 }
    Instr.mod ≠ .srst ∧ (∃ t, exec .mod s = .next t) ∧ s.hasFlag .cmderr = true ∧ s.hasFlag .zeropt = true ∧
    (0 : Nat) < 6 ∧ 5 < 6 := ⟨by decide, ⟨_, rfl⟩, by decide, by decide, by decide, by decide⟩

/-- Whether a command sets a flag that was clear, on the tests' parameters. -/
def sets (i : Instr) (s : State) (f : Flag) : Prop :=
  s.hasFlag f = false ∧ (command (testParams []) i s).hasFlag f = true

/-- FlagsAreRaisedOnlyByTheirOwnCommands: each flag, set by a command that was not refused for another reason. -/
theorem witness_FlagsAreRaisedOnlyByTheirOwnCommands :
    sets (.enc 2) State.reset .cmderr ∧ sets .mod State.reset .cfgerr ∧
    sets .mod { conf 0 4 1 with bitin := List.replicate 17 true } .ovf ∧
    sets .detect { conf 1 4 1 with sig := List.replicate 4 (.rat 0) } .degen ∧
    sets .decide { State.reset with sigPad := 1 } .paderr ∧ sets .decxy State.reset .zeropt := by
  unfold sets
  decide +kernel

/-- IllegalConfigurationIsRefusedWithCfgerr: an amplitude of 0, a strength of −1; CFGERR newly set, whatever the
parameters; the first and the last configuration address. -/
theorem witness_IllegalConfiguration :
    Config.num.atMost (conf 1 4 0).cfgAmp .zero = true ∧
    Config.num.less ({ legal with cfgNs := .rat (-1) } : State).cfgNs .zero = true ∧
    (∃ t, exec .mod (conf 0 2 1) = .next t ∧ (conf 0 2 1).hasFlag .cfgerr = false ∧ t.hasFlag .cfgerr = true) ∧
    (0x02 : BitVec 6) ≤ 0x02 ∧ (0x07 : BitVec 6) ≤ 0x07 ∧
    ∃ t, step (acting (.write 0x07 (.word 3)) State.reset) = .next t := by
  have zero := Config.num.isFinite_zero
  refine ⟨(Numeric.atMost_eq zero zero).trans (by simp [Numeric.less_self zero]), Config.num.neg_one_less_zero,
    ⟨refuse .cfgerr (conf 0 2 1), exec_next_iff.2 ⟨?_, rfl⟩, by decide +kernel, by decide +kernel⟩, by decide,
    by decide, _, rfl⟩
  simp [commandNums, modNums, conf]

/-- CommandsWriteOnlyTheirOwnRegisters and NoCommandReadsPeriodIndexOrLatch. -/
theorem witness_frames : Instr.demod ≠ .srst ∧ ∃ t, exec .demod legal = .next t :=
  ⟨by decide, exec_runs (witness_FiniteOperands.2 _ (by decide))⟩

/-! ### Port -/

/-- ReservedAddressesAreInert: the hole, and the ends of the reserved range. -/
theorem witness_ReservedAddresses :
    ((0x0F : BitVec 6) = 0x0F ∨ (0x1D : BitVec 6) ≤ 0x0F) ∧ (0x1D : BitVec 6) ≤ 0x1D ∧ (0x1D : BitVec 6) ≤ 0x3F := by
  decide

/-- AccessRightsOfTheRegisters and WrittenRegistersReadBack: the first and the last address of each list. -/
theorem witness_addresses :
    0x0C#6 ∈ [0x0C#6, 0x0D#6, 0x0E#6, 0x11#6, 0x13#6, 0x14#6, 0x15#6, 0x18#6, 0x19#6, 0x1A#6, 0x1B#6, 0x1C#6] ∧
    0x1C#6 ∈ [0x0C#6, 0x0D#6, 0x0E#6, 0x11#6, 0x13#6, 0x14#6, 0x15#6, 0x18#6, 0x19#6, 0x1A#6, 0x1B#6, 0x1C#6] ∧
    (0x02#6, 0x3#32) ∈ [(0x02#6, 0x3#32), (0x03#6, 0xFFFF#32), (0x07#6, 0x3#32), (0x08#6, 0xFFFFFFFF#32)] ∧
    (0x08#6, 0xFFFFFFFF#32) ∈ [(0x02#6, 0x3#32), (0x03#6, 0xFFFF#32), (0x07#6, 0x3#32), (0x08#6, 0xFFFFFFFF#32)] ∧
    0x04#6 ∈ [0x04#6, 0x05#6, 0x06#6, 0x09#6, 0x0A#6, 0x0B#6] ∧
    0x0B#6 ∈ [0x04#6, 0x05#6, 0x06#6, 0x09#6, 0x0A#6, 0x0B#6] := by decide

/-- PushRegistersAppendOrOverflow: buffers exactly full, whatever the capacities are; and buffers whose length is not
the capacity (one more, so that the witness holds for a capacity of 0 as well). -/
theorem witness_PushRegisters :
    (List.replicate Config.caps.bitCap false).length = Config.caps.bitCap ∧
    (List.replicate (Config.caps.bitCap + 1) false).length ≠ Config.caps.bitCap ∧
    (List.replicate Config.caps.sigCap NumVal.zero).length = Config.caps.sigCap ∧
    (List.replicate (Config.caps.sigCap + 1) NumVal.zero).length ≠ Config.caps.sigCap ∧
    (List.replicate Config.caps.symCap (⟨.zero, .zero⟩ : Cplx)).length = Config.caps.symCap ∧
    (List.replicate (Config.caps.symCap + 1) (⟨.zero, .zero⟩ : Cplx)).length ≠ Config.caps.symCap := by simp

/-- PushRegistersAppendOrOverflow, IndexedReadPortsReturnTheElement and ReadsHaveNoSideEffects: the registers a
transaction computes with are finite after reset, and one that the host has written to may be. -/
theorem witness_finite_registers :
    FiniteNum State.reset.symReLatch ∧ FiniteNum State.reset.cfgPeriod ∧
    FiniteNum ({ filled with cfgPeriod := .rat 1 } : State).cfgPeriod := by simp [FiniteNum, State.reset]

/-- IndexedReadPortsReturnTheElement: index 0 of one element and index 1, just past it; `N = 1` and `N = 0`. -/
theorem witness_IndexedReadPorts :
    let s := { filled with cfgNsps := 1 }
    let u := { filled with idx := 1, cfgNsps := 0 }
    s.sig[s.idx.toNat]? = some (.rat 1) ∧ u.sig.length ≤ u.idx.toNat ∧
    s.sym[s.idx.toNat]? = some ⟨.rat 1, .rat 0⟩ ∧ u.sym.length ≤ u.idx.toNat ∧
    s.bitout[s.idx.toNat]? = some true ∧ u.bitout.length ≤ u.idx.toNat ∧
    (s.idx.toNat < s.sig.length ∧ 1 ≤ s.cfgNsps.toNat) ∧ u.cfgNsps = 0 := by decide +kernel

/-- LengthRegistersCountTheBuffers: a state that meets the invariant. -/
theorem witness_LengthRegisters : Invariant Config.machine legal :=
  ⟨Nat.zero_le _, Nat.zero_le _, Nat.zero_le _, Nat.zero_le _, by decide, by decide⟩

/-- PushBitsScriptAppendsInOrder: a script that fills the tests' buffer of 64 bits to the last place. -/
theorem witness_PushBitsScript :
    ({ State.reset with bitin := List.replicate 62 true } : State).bitin.length + [true, false].length ≤
      (testParams []).caps.bitCap := by decide

end Sys2Proof.Tests
end

section
/-! The phase alphabet as a permutation (R8): on group values and phase indices below `M` the two maps on numbers are
the table of the parameters and its inverse. -/

namespace Sys2Proof.Machine

@[simp] theorem assign_fin (p : Params) (b : BitVec 2) (g : Fin (2 ^ (b.toNat + 1))) :
    assign p b g = p.alphabet b g := by
  rw [assign, Fin.ofNat_val_eq_self]

@[simp] theorem unassign_fin (p : Params) (b : BitVec 2) (k : Fin (2 ^ (b.toNat + 1))) :
    unassign p b k = (p.alphabet b).symm k := by
  rw [unassign, Fin.ofNat_val_eq_self]

theorem unassign_assign (p : Params) {b : BitVec 2} {g : Nat} (hg : g < points b) :
    unassign p b (assign p b g) = g := by
  lift g to Fin (2 ^ (b.toNat + 1)) using hg
  rw [assign_fin, unassign_fin, Equiv.symm_apply_apply]

theorem assign_unassign (p : Params) {b : BitVec 2} {k : Nat} (hk : k < points b) :
    assign p b (unassign p b k) = k := by
  lift k to Fin (2 ^ (b.toNat + 1)) using hk
  rw [unassign_fin, assign_fin, Equiv.apply_symm_apply]

/-- The natural binary table assigns every group value to itself (R8). -/
theorem assign_default {p : Params} (hp : p.alphabet = Alphabet.default) {b : BitVec 2} {g : Nat}
    (hg : g < points b) : assign p b g = g := by
  lift g to Fin (2 ^ (b.toNat + 1)) using hg
  rw [assign_fin, hp, Alphabet.default, Equiv.refl_apply]

/-- Settles O15: both maps are the permutation of the parameters' table, read on numbers below `M`. -/
theorem assignmentIsABijection : Obligations.AssignmentIsABijection := fun p b n hn =>
  ⟨assign_lt p b n, unassign_lt p b n, unassign_assign p hn, assign_unassign p hn, fun hp => assign_default hp hn⟩

end Sys2Proof.Machine
end

section
/-! What reset leaves (R45), and the `CMD` register of the host port (R36). -/

namespace Sys2Proof.Machine

open Sys2Proof.Claims

/-! ### The unconfigured block -/

/-- Fewer than 3 samples per symbol are no configuration for MOD, DETECT and DEMOD (R24, R243). -/
theorem waveConfigLegal_eq_false {p : Params} {s : State} (h : s.cfgNsps.toNat < 3) : waveConfigLegal p s = false := by
  simp [waveConfigLegal, h]

/-- The three commands on the waveform configuration are refused where it is not legal (R243). -/
theorem command_refused {p : Params} {i : Instr} {s : State} (hi : i = .mod ∨ i = .detect ∨ i = .demod)
    (h : waveConfigLegal p s = false) : command p i s = refuse .cfgerr s := by
  rcases hi with rfl | rfl | rfl
  · simp [command, modCmd, h]
  · simp [command, detectCmd, h]
  · simp [command, demodCmd, h]

/-- The Nums the three commands look at before they are refused: the amplitude, the strength, the samples. -/
theorem mem_commandNums_refused {p : Params} {i : Instr} {s : State} {x : NumVal}
    (hi : i = .mod ∨ i = .detect ∨ i = .demod) (h : waveConfigLegal p s = false) (hx : x ∈ commandNums p i s) :
    x = s.cfgAmp ∨ x = s.cfgNs ∨ x ∈ s.sig := by
  rcases hi with rfl | rfl | rfl
  · simp only [commandNums, modNums, List.mem_singleton] at hx
    exact .inl hx
  · simp only [commandNums, detectNums, List.mem_cons] at hx
    exact hx.imp_right .inr
  · simp only [commandNums, demodNums, detectNums, h, Bool.false_and, List.filter_false, List.append_nil,
      List.mem_cons] at hx
    tauto

/-- MOD, DETECT and DEMOD are refused with CFGERR after reset, whatever the machine's parameters. -/
theorem exec_reset_refused {i : Instr} (hi : i = .mod ∨ i = .detect ∨ i = .demod) :
    exec i State.reset = .next (flagged 2 State.reset) := by
  have unconfigured : waveConfigLegal Config.machine State.reset = false := waveConfigLegal_eq_false (by decide)
  refine exec_next_iff.2 ⟨fun x hx => ?_, command_refused hi unconfigured⟩
  rcases mem_commandNums_refused hi unconfigured hx with rfl | rfl | hsig
  · exact Config.num.isFinite_zero
  · exact Config.num.isFinite_zero
  · cases hsig

/-- Settles O1: the values are those `State.reset` is written with; the refusals follow from `N = 0`. -/
theorem resetHoldsEveryResetValue : Obligations.ResetHoldsEveryResetValue :=
  ⟨⟨rfl, rfl, rfl, rfl, rfl, rfl, rfl⟩, ⟨rfl, rfl, rfl, rfl, rfl, rfl, rfl, rfl⟩, ⟨rfl, rfl, rfl, rfl⟩,
    fun _ hi => exec_reset_refused hi⟩

/-! ### The command register -/

/-- A step performs the host's next action with `exec` as the meaning of the commands. -/
theorem step_eq_hostAction {s : State} {t : Txn} {rest : List Txn} (h : s.pending = t :: rest) :
    step s = hostAction Config.machine exec t { s with pending := rest } := by
  rw [step, nextAction, h]

/-- The step in which the host performs `t`. -/
theorem step_acting (t : Txn) (s : State) : step (acting t s) = hostAction Config.machine exec t s :=
  step_eq_hostAction rfl

/-- A word that decodes is run (R36). -/
theorem issue_ok {run : Instr → State → Host.Outcome State Fault Refusal} {w : Word} {i : Instr}
    (h : decode w = .ok i) (s : State) : issue run w s = run i s := by
  rw [issue, h]

/-- A write to address 0x00 issues the word it presents (R36, R62). -/
theorem hostAction_write_cmd (p : Params) (run : Instr → State → Host.Outcome State Fault Refusal) (v : PortVal)
    (s : State) : hostAction p run (.write 0x00 v) s = issue run (v.asWord p) s := rfl

/-- A read of address 0x00 returns 0 (R36, R64). -/
theorem hostAction_read_cmd (p : Params) (run : Instr → State → Host.Outcome State Fault Refusal) (s : State) :
    hostAction p run (.read 0x00) s = .next { s with readData := .word 0 } := rfl

/-- Settles O8: both clauses are the host's action at the address of `CMD`. -/
theorem stepRunsTheDecodedCommand : Obligations.StepRunsTheDecodedCommand := by
  refine ⟨fun s v rest i hp hd => ?_, fun s => ?_⟩
  · rw [step_eq_hostAction hp, hostAction_write_cmd, issue_ok hd]
  · rw [step_acting, hostAction_read_cmd]

end Sys2Proof.Machine
end

section
/-! The host port's two rules (R61, R67): what a read of a register returns, and what a write to a register other than
`CMD` does. A state is otherwise as it was. -/

namespace Sys2Proof.Machine

open Sys2Proof.Claims

/-- The map of R62 is one to one: the register an address selects has that address. -/
theorem addr_of_regAt {addr : BitVec 6} {r : Reg} (h : regAt addr = some r) : r.addr = addr := by
  unfold regAt at h
  split at h <;> cases h <;> rfl

/-! ### Reads -/

/-- Only `TIME_RD` computes with a Num when it is read (R157). -/
theorem readNums_eq_nil {r : Reg} (hr : r ≠ .timeRd) (s : State) : readNums r.addr s = [] := by
  simp [readNums, hr]

/-- The one Num that a read can compute with is the symbol period, at the address of `TIME_RD`. -/
theorem mem_readNums {addr : BitVec 6} {s : State} {x : NumVal} (h : x ∈ readNums addr s) :
    addr = Reg.timeRd.addr ∧ x = s.cfgPeriod := by
  unfold readNums at h
  split at h
  · next ht =>
    unfold timeNums at h
    split at h
    · exact ⟨(addr_of_regAt ht).symm, List.mem_singleton.1 h⟩
    · cases h
  · cases h

/-- A register's value does not depend on what the host still has to do or last read. -/
theorem readReg_host (s : State) (pending : List Txn) (x : PortVal) (r : Reg) :
    readReg { s with pending := pending, readData := x } r = readReg s r := by
  cases r <;> rfl

/-- The address of a register returns the register's value. -/
theorem readAddr_addr (r : Reg) (s : State) : readAddr r.addr s = readReg s r := by
  simp only [readAddr, regAt_addr]

/-- What an address returns does not depend on what the host still has to do or last read. -/
theorem readAddr_host (addr : BitVec 6) (s : State) (pending : List Txn) (x : PortVal) :
    readAddr addr { s with pending := pending, readData := x } = readAddr addr s := by
  unfold readAddr
  cases regAt addr with
  | none => rfl
  | some r => exact readReg_host s pending x r

/-- A read whose Nums are finite gives the host the value at the address and leaves the rest as it is (R67). -/
theorem step_readAddr {addr : BitVec 6} {s : State} (h : ∀ x ∈ readNums addr s, FiniteNum x) :
    step (acting (.read addr) s) = .next { s with readData := readAddr addr s } :=
  (step_acting _ s).trans (guardFinite_next h _)

/-- A read of a register whose Nums are finite gives the host the register's value. -/
theorem step_readReg {r : Reg} {s : State} {v : PortVal} (h : ∀ x ∈ readNums r.addr s, FiniteNum x)
    (hv : readReg s r = v) : step (acting (.read r.addr) s) = .next { s with readData := v } := by
  rw [step_readAddr h, readAddr_addr, hv]

/-- A read of any register but `TIME_RD` completes and gives the host the register's value. -/
theorem step_read {r : Reg} (hr : r ≠ .timeRd) {s : State} {v : PortVal} (hv : readReg s r = v) :
    step (acting (.read r.addr) s) = .next { s with readData := v } :=
  step_readReg (by simp [readNums_eq_nil hr]) hv

/-! ### Writes -/

/-- A write to a register other than `CMD` whose Nums are finite does what `writeReg` says (R64, R69). -/
theorem step_write {r : Reg} (hr : r ≠ .cmd) {v : PortVal} {s : State} (h : ∀ x ∈ writtenNums v s r, FiniteNum x) :
    step (acting (.write r.addr v) s) = .next (writeReg Config.machine v s r) := by
  rw [step_cons rfl, actionState_write (regAt_addr r) hr, actionNums_write (regAt_addr r) hr]
  exact guardFinite_next h _

/-- A write that stores no Num completes. -/
theorem step_write_noNum {r : Reg} (hr : r ≠ .cmd) {v : PortVal} {s : State} (h : writtenNums v s r = []) :
    step (acting (.write r.addr v) s) = .next (writeReg Config.machine v s r) :=
  step_write hr (by simp [h])

/-- A write that stores one finite Num completes. -/
theorem step_write_num {r : Reg} (hr : r ≠ .cmd) {x : NumVal} {s : State} (h : writtenNums (.num x) s r = [x])
    (hx : FiniteNum x) : step (acting (.write r.addr (.num x)) s) = .next (writeReg Config.machine (.num x) s r) :=
  step_write hr (by simpa [h] using hx)

/-- The read-only registers of R62, in the order of their addresses. -/
def Reg.readOnly : List Reg :=
  [.resK, .resG, .resPhase, .bitinLen, .sigLen, .sigRd, .timeRd, .symLen, .symReRd, .symImRd, .bitoutLen, .bitoutRd]

/-- A write to a read-only register stores nothing (R64). -/
theorem step_write_readOnly {r : Reg} (h : r ∈ Reg.readOnly) (v : PortVal) (s : State) :
    step (acting (.write r.addr v) s) = .next s := by
  have ignored : r ≠ .cmd ∧ writtenNums v s r = [] ∧ writeReg Config.machine v s r = s := by
    fin_cases h <;> exact ⟨nofun, rfl, rfl⟩
  obtain ⟨hr, hn, hw⟩ := ignored
  rw [step_write_noNum hr hn, hw]

/-! ### Pushes -/

/-- OVF is bit 2 of `STATUS` (R35). -/
theorem raise_ovf (s : State) : raise .ovf s = flagged 4 s := rfl

theorem pushBit_full {p : Params} {s : State} (h : s.bitin.length = p.caps.bitCap) (v : Word) :
    pushBit p v s = raise .ovf s := if_pos h

theorem pushBit_room {p : Params} {s : State} (h : s.bitin.length ≠ p.caps.bitCap) (v : Word) :
    pushBit p v s = { s with bitin := s.bitin ++ [v.getLsbD 0] } := if_neg h

theorem pushSample_full {p : Params} {s : State} (h : s.sig.length = p.caps.sigCap) (x : NumVal) :
    pushSample p x s = raise .ovf s := if_pos h

theorem pushSample_room {p : Params} {s : State} (h : s.sig.length ≠ p.caps.sigCap) (x : NumVal) :
    pushSample p x s = { s with sig := s.sig ++ [x] } := if_neg h

theorem pushSymbol_full {p : Params} {s : State} (h : s.sym.length = p.caps.symCap) (y : NumVal) :
    pushSymbol p y s = raise .ovf s := if_pos h

theorem pushSymbol_room {p : Params} {s : State} (h : s.sym.length ≠ p.caps.symCap) (y : NumVal) :
    pushSymbol p y s = { s with sym := s.sym ++ [⟨s.symReLatch, y⟩] } := if_neg h

/-- A bit pushed is handed to `pushBit` (R69). -/
theorem step_pushBit (v : Word) (s : State) :
    step (acting (.write 0x10 (.word v)) s) = .next (pushBit Config.machine v s) :=
  step_write_noNum (r := .bitinPush) nofun rfl

/-- A finite sample pushed is handed to `pushSample` (R69). -/
theorem step_pushSample {x : NumVal} (hx : FiniteNum x) (s : State) :
    step (acting (.write 0x12 (.num x)) s) = .next (pushSample Config.machine x s) :=
  step_write_num (r := .sigPush) nofun rfl hx

/-- An imaginary part pushed after a finite real part is handed to `pushSymbol` (R69). -/
theorem step_pushSymbol {y : NumVal} (hy : FiniteNum y) {s : State} (hl : FiniteNum s.symReLatch) :
    step (acting (.write 0x17 (.num y)) s) = .next (pushSymbol Config.machine y s) :=
  step_write (r := .symImPush) nofun (List.forall_mem_cons.2 ⟨hl, List.forall_mem_singleton.2 hy⟩)

/-! ### Indexed reads -/

theorem indexed_eq_some {α : Type} {s : State} {buffer : List α} {x : α} (h : buffer[s.idx.toNat]? = some x) :
    s.indexed buffer = some x := h

theorem indexed_eq_none {α : Type} {s : State} {buffer : List α} (h : buffer.length ≤ s.idx.toNat) :
    s.indexed buffer = none := List.getElem?_eq_none h

/-- The time axis where there is a sample and `N ≥ 1` (R157). -/
theorem timeAxis_of_lt {s : State} (hi : s.idx.toNat < s.sig.length) (hn : 1 ≤ s.cfgNsps.toNat) :
    timeAxis s = .div (.mul (.ofNat s.idx.toNat) s.cfgPeriod) (.ofNat s.cfgNsps.toNat) := if_pos ⟨hi, hn⟩

/-- No sample at `IDX`, or `N = 0`: the condition under which `TIME_RD` computes nothing (R157). -/
theorem not_dated {s : State} (h : s.sig.length ≤ s.idx.toNat ∨ s.cfgNsps = 0) :
    ¬ (s.idx.toNat < s.sig.length ∧ 1 ≤ s.cfgNsps.toNat) := by
  rintro ⟨hi, hn⟩
  rcases h with h | h
  · omega
  · simp [h] at hn

theorem timeAxis_eq_zero {s : State} (h : s.sig.length ≤ s.idx.toNat ∨ s.cfgNsps = 0) : timeAxis s = .zero :=
  if_neg (not_dated h)

theorem timeNums_eq_nil {s : State} (h : s.sig.length ≤ s.idx.toNat ∨ s.cfgNsps = 0) : timeNums s = [] :=
  if_neg (not_dated h)

/-- `TIME_RD` returns the time axis when the period is finite or is not looked at. -/
theorem step_readTime {s : State} (h : ∀ x ∈ timeNums s, FiniteNum x) :
    step (acting (.read 0x15) s) = .next { s with readData := .num (timeAxis s) } :=
  step_readReg (r := .timeRd) h rfl

end Sys2Proof.Machine
end

section
/-! The statements about the host port: lengths, reads, access rights, pushes and indexed reads (R64 to R72). -/

namespace Sys2Proof.Machine

open Sys2Proof.Claims

/-- A length within a capacity of R9 fits a 32-bit register. -/
theorem toNat_length {n cap : Nat} (h : n ≤ cap) (hcap : cap < 2 ^ 32) : (BitVec.ofNat 32 n).toNat = n := by
  rw [BitVec.toNat_ofNat, Nat.mod_eq_of_lt (h.trans_lt hcap)]

/-- Settles O59: each length is within its capacity by the invariant, and R9 bounds the capacities. -/
theorem lengthRegistersCountTheBuffers : Obligations.LengthRegistersCountTheBuffers := fun _ inv =>
  ⟨_, _, _, _,
    step_read (r := .bitinLen) nofun rfl, toNat_length inv.bitin_fits Config.caps.bit_bound,
    step_read (r := .sigLen) nofun rfl, toNat_length inv.sig_fits Config.caps.sig_bound,
    step_read (r := .symLen) nofun rfl, toNat_length inv.sym_fits Config.caps.sym_bound,
    step_read (r := .bitoutLen) nofun rfl, toNat_length inv.bitout_fits Config.caps.bitout_bound⟩

/-- Settles O53: the value read is `readAddr addr s`, which looks at neither the pending actions nor the last value
read. -/
theorem readsHaveNoSideEffects : Obligations.ReadsHaveNoSideEffects := by
  refine ⟨fun addr s hfin => ⟨readAddr addr s, fun x rest => ?_⟩, fun s =>
    ⟨step_read (r := .resK) nofun rfl, step_read (r := .resG) nofun rfl, step_read (r := .resPhase) nofun rfl⟩⟩
  have finite : ∀ y ∈ readNums addr { s with pending := rest, readData := x }, FiniteNum y := fun y hy => by
    obtain ⟨ha, rfl⟩ := mem_readNums hy
    exact hfin ha
  rw [← readAddr_host addr s rest x]
  exact step_readAddr finite

/-- Settles O55: one rule for reads and one for writes, taken at each register; an integer register keeps the low bits
of the word. -/
theorem accessRightsOfTheRegisters : Obligations.AccessRightsOfTheRegisters := by
  refine ⟨fun addr v s haddr => ?readOnly, fun s => ?writeOnly, fun v s => ?integer, fun x s hx => ?num⟩
  case readOnly =>
    obtain ⟨r, hr, rfl⟩ : ∃ r ∈ Reg.readOnly, r.addr = addr := List.mem_map.1 haddr
    exact step_write_readOnly hr v s
  case writeOnly =>
    exact ⟨step_read (r := .cmd) nofun rfl, step_read (r := .bitinPush) nofun rfl,
      step_read (r := .sigPush) nofun rfl, step_read (r := .symRePush) nofun rfl,
      step_read (r := .symImPush) nofun rfl⟩
  case integer =>
    simp only [← BitVec.setWidth_eq_extractLsb' (show 2 ≤ 32 by decide),
      ← BitVec.setWidth_eq_extractLsb' (show 16 ≤ 32 by decide)]
    exact ⟨step_write_noNum (r := .cfgOrder) nofun rfl, step_write_noNum (r := .cfgNsps) nofun rfl,
      step_write_noNum (r := .sigPad) nofun rfl, step_write_noNum (r := .idx) nofun rfl⟩
  case num =>
    exact ⟨step_write_num (r := .cfgAmp) nofun rfl hx, step_write_num (r := .cfgPeriod) nofun rfl hx,
      step_write_num (r := .cfgNs) nofun rfl hx, step_write_num (r := .phaseIn) nofun rfl hx,
      step_write_num (r := .xIn) nofun rfl hx, step_write_num (r := .yIn) nofun rfl hx⟩

/-- Settles O57: a push completes and does what its operation says of a full buffer and of one that is not. -/
theorem pushRegistersAppendOrOverflow : Obligations.PushRegistersAppendOrOverflow := by
  refine ⟨fun v s => ⟨fun full => ?_, fun room => ?_⟩, fun x s hx =>
    ⟨fun full => ?_, fun room => ?_, step_write_num (r := .symRePush) nofun rfl hx, fun hl full => ?_,
      fun hl room => ?_⟩⟩
  · rw [step_pushBit, pushBit_full full, raise_ovf]
  · rw [step_pushBit, pushBit_room room]
  · rw [step_pushSample hx, pushSample_full full, raise_ovf]
  · rw [step_pushSample hx, pushSample_room room]
  · rw [step_pushSymbol hx hl, pushSymbol_full full, raise_ovf]
  · rw [step_pushSymbol hx hl, pushSymbol_room room]

/-- Settles O58: the value of each port is read off its buffer, with an element at `IDX` and without one. -/
theorem indexedReadPortsReturnTheElement : Obligations.IndexedReadPortsReturnTheElement := by
  intro s i
  refine ⟨fun x hx => ?_, fun hi => ?_, fun z hz => ⟨?_, ?_⟩, fun hi => ⟨?_, ?_⟩, fun b hb => ?_, fun hi => ?_,
    fun hi hn hT => ?_, fun h => ?_⟩
  · exact step_read (r := .sigRd) nofun (by rw [readReg, indexed_eq_some hx]; rfl)
  · exact step_read (r := .sigRd) nofun (by rw [readReg, indexed_eq_none hi]; rfl)
  · exact step_read (r := .symReRd) nofun (by rw [readReg, indexed_eq_some hz]; rfl)
  · exact step_read (r := .symImRd) nofun (by rw [readReg, indexed_eq_some hz]; rfl)
  · exact step_read (r := .symReRd) nofun (by rw [readReg, indexed_eq_none hi]; rfl)
  · exact step_read (r := .symImRd) nofun (by rw [readReg, indexed_eq_none hi]; rfl)
  · exact step_read (r := .bitoutRd) nofun (by rw [readReg, indexed_eq_some hb]; cases b <;> rfl)
  · exact step_read (r := .bitoutRd) nofun (by rw [readReg, indexed_eq_none hi]; rfl)
  · have finite : ∀ x ∈ timeNums s, FiniteNum x := by rw [timeNums, if_pos ⟨hi, hn⟩]; simpa using hT
    rw [step_readTime finite, timeAxis_of_lt hi hn]
    rfl
  · rw [step_readTime (by simp [timeNums_eq_nil h]), timeAxis_eq_zero h]

end Sys2Proof.Machine
end

section
/-! The opcode table by mask and match (R93), and the checks of a word written to `CMD` (R92). -/

namespace Sys2Proof

/-! ### The fields of a word -/

/-- A word is its three fields, the reserved bits of `IMM` above the operand above `OPC` (R90, R91). -/
theorem fields_append (w : Word) : reservedField w ++ (operandField w ++ opcField w) = w := by
  unfold reservedField operandField opcField
  rw [BitVec.extractLsb'_append_extractLsb'_eq_extractLsb' (by decide),
    BitVec.extractLsb'_append_extractLsb'_eq_extractLsb' (by decide)]
  exact BitVec.extractLsb'_eq_self

/-- Words with equal fields are equal. -/
theorem word_eq_iff (v w : Word) :
    v = w ↔ opcField v = opcField w ∧ operandField v = operandField w ∧ reservedField v = reservedField w := by
  refine ⟨fun h => h ▸ ⟨rfl, rfl, rfl⟩, fun ⟨hopc, hoperand, hreserved⟩ => ?_⟩
  rw [← fields_append v, ← fields_append w, hopc, hoperand, hreserved]

/-- `IMM` is the reserved bits above the operand (R91). -/
theorem immField_append (w : Word) : reservedField w ++ operandField w = immField w :=
  BitVec.extractLsb'_append_extractLsb'_eq_extractLsb' (by decide)

/-- `IMM[23:4]` is `word[31:12]` (R91). -/
theorem reservedField_eq (w : Word) : (immField w).extractLsb' 4 20 = reservedField w := by
  rw [← immField_append, BitVec.extractLsb'_append_eq_left]

/-- `IMM[3:0]` is `word[11:8]` (R91). -/
theorem operandField_eq (w : Word) : (immField w).extractLsb' 0 4 = operandField w := by
  rw [← immField_append, BitVec.extractLsb'_append_eq_right]

/-- The immediate is zero when its two parts are. -/
theorem immField_eq_zero_iff {w : Word} : immField w = 0 ↔ reservedField w = 0 ∧ operandField w = 0 := by
  constructor
  · intro h
    rw [← reservedField_eq, ← operandField_eq, h]
    decide
  · rintro ⟨hreserved, hoperand⟩
    rw [← immField_append, hreserved, hoperand]
    rfl

/-! ### Mask and match -/

theorem opcField_and (v w : Word) : opcField (v &&& w) = opcField v &&& opcField w := BitVec.extractLsb'_and

theorem operandField_and (v w : Word) : operandField (v &&& w) = operandField v &&& operandField w :=
  BitVec.extractLsb'_and

theorem reservedField_and (v w : Word) : reservedField (v &&& w) = reservedField v &&& reservedField w :=
  BitVec.extractLsb'_and

/-- The word of a bare operation code has it as `OPC` and no immediate bit. -/
theorem fields_setWidth (opc : BitVec 8) :
    opcField (opc.setWidth 32) = opc ∧ operandField (opc.setWidth 32) = 0 ∧ reservedField (opc.setWidth 32) = 0 := by
  revert opc
  decide

/-- The mask of CLR and ENC leaves out the operand: it matches on `OPC` and the reserved bits. -/
theorem mask_operand_eq_iff (w : Word) (opc : BitVec 8) :
    w &&& 0xFFFFF0FF#32 = opc.setWidth 32 ↔ opcField w = opc ∧ reservedField w = 0 := by
  have mask : opcField 0xFFFFF0FF#32 = .allOnes 8 ∧ operandField 0xFFFFF0FF#32 = 0 ∧
      reservedField 0xFFFFF0FF#32 = .allOnes 20 := by decide
  obtain ⟨mopc, moperand, mreserved⟩ := mask
  obtain ⟨hopc, hoperand, hreserved⟩ := fields_setWidth opc
  rw [word_eq_iff, opcField_and, operandField_and, reservedField_and, mopc, moperand, mreserved, hopc, hoperand,
    hreserved, BitVec.and_allOnes, BitVec.and_allOnes]
  simp

/-- The mask of a command without operand is the whole word: it matches on all three fields. -/
theorem mask_full_eq_iff (w : Word) (opc : BitVec 8) :
    w &&& 0xFFFFFFFF#32 = opc.setWidth 32 ↔ opcField w = opc ∧ operandField w = 0 ∧ reservedField w = 0 := by
  obtain ⟨hopc, hoperand, hreserved⟩ := fields_setWidth opc
  have full : w &&& 0xFFFFFFFF#32 = w := BitVec.and_allOnes
  rw [full, word_eq_iff, hopc, hoperand, hreserved]

/-- The row of a command without operand (R93). -/
theorem decode_ok_iff_mask_full {i : Instr} (hi : i.operand = 0) (w : Word) :
    decode w = .ok i ↔ w &&& 0xFFFFFFFF#32 = i.opcode.setWidth 32 := by
  rw [decode_ok_iff, mask_full_eq_iff, hi]

/-- The row of a command with an operand (R93). -/
theorem decode_ok_iff_mask_operand (i : Instr) (w : Word) :
    decode w = .ok i ↔ w &&& 0xFFFFF0FF#32 = i.opcode.setWidth 32 ∧ operandField w = i.operand := by
  rw [decode_ok_iff, mask_operand_eq_iff]
  tauto

/-- ENC `g` is legal exactly when `g < M` (R92). -/
theorem wellFormed_enc (g : BitVec 4) (bps1 : BitVec 2) :
    (Instr.enc g).wellFormed bps1 = true ↔ g.toNat < 2 ^ (bps1.toNat + 1) := decide_eq_true_iff

/-- Settles O6: a row is selected by `OPC` and the reserved bits, and by the operand bits where it takes none. -/
theorem eachRowIsSelectedByItsMaskAndMatch : Obligations.EachRowIsSelectedByItsMaskAndMatch := fun w =>
  ⟨decode_ok_iff_mask_full (i := .nop) rfl w, decode_ok_iff_mask_full (i := .srst) rfl w,
    fun m => decode_ok_iff_mask_operand (.clr m) w, fun g => decode_ok_iff_mask_operand (.enc g) w, wellFormed_enc,
    decode_ok_iff_mask_full (i := .dec) rfl w, decode_ok_iff_mask_full (i := .decxy) rfl w,
    decode_ok_iff_mask_full (i := .mod) rfl w, decode_ok_iff_mask_full (i := .noisew) rfl w,
    decode_ok_iff_mask_full (i := .noises) rfl w, decode_ok_iff_mask_full (i := .detect) rfl w,
    decode_ok_iff_mask_full (i := .decide) rfl w, decode_ok_iff_mask_full (i := .demod) rfl w⟩

/-! ### The operation codes of the table -/

/-- One command of each row of R93, in the table's order. -/
def Instr.rows : List Instr :=
  [.nop, .srst, .clr 0, .enc 0, .dec, .decxy, .mod, .noisew, .noises, .detect, .decide, .demod]

/-- The rows hold every operation code. -/
theorem opcode_mem_rows (i : Instr) : i.opcode ∈ Instr.rows.map Instr.opcode := by
  cases i with
  | clr => exact List.mem_map_of_mem (a := Instr.clr 0) (by decide)
  | enc => exact List.mem_map_of_mem (a := Instr.enc 0) (by decide)
  | _ => decide

/-- Only CLR and ENC carry an operand (R91). -/
theorem operand_eq_zero {i : Instr} (henc : i.opcode ≠ 0x10) (hclr : i.opcode ≠ 0x02) : i.operand = 0 := by
  cases i with
  | clr => exact absurd rfl hclr
  | enc => exact absurd rfl henc
  | _ => rfl

/-- The operation code of ENC is no other command's. -/
theorem eq_enc_of_opcode {i : Instr} (h : i.opcode = 0x10) : i = .enc i.operand := by
  cases i with
  | enc => rfl
  | _ => simp [Instr.opcode] at h

/-- Every operand that a row admits is carried by a command of that row. -/
theorem exists_operand (i : Instr) {x : BitVec 4} (hx : i.opcode ≠ 0x10 → i.opcode ≠ 0x02 → x = 0) :
    ∃ j : Instr, j.opcode = i.opcode ∧ j.operand = x := by
  cases i with
  | clr => exact ⟨.clr x, rfl, rfl⟩
  | enc => exact ⟨.enc x, rfl, rfl⟩
  | _ => exact ⟨_, rfl, (hx (by decide) (by decide)).symm⟩

/-- The operation code of a word that decodes is in the table. -/
theorem opcField_mem_rows {w : Word} {i : Instr} (h : decode w = .ok i) : opcField w ∈ Instr.rows.map Instr.opcode := by
  rw [((decode_ok_iff w i).1 h).1]
  exact opcode_mem_rows i

/-- A word whose operation code is in the table and that sets no reserved bit decodes, to a command with that
operation code (R92). -/
theorem exists_decode {w : Word} (hopc : opcField w ∈ Instr.rows.map Instr.opcode)
    (hreserved : opcField w = 0x10 ∨ opcField w = 0x02 → reservedField w = 0)
    (himm : opcField w ≠ 0x10 → opcField w ≠ 0x02 → immField w = 0) :
    ∃ i, decode w = .ok i ∧ i.opcode = opcField w := by
  have reserved : reservedField w = 0 := by
    by_cases h : opcField w = 0x10 ∨ opcField w = 0x02
    · exact hreserved h
    · obtain ⟨henc, hclr⟩ := not_or.1 h
      exact (immField_eq_zero_iff.1 (himm henc hclr)).1
  have operand (henc : opcField w ≠ 0x10) (hclr : opcField w ≠ 0x02) : operandField w = 0 :=
    (immField_eq_zero_iff.1 (himm henc hclr)).2
  obtain ⟨i, -, hi⟩ := List.mem_map.1 hopc
  rw [← hi] at operand
  obtain ⟨j, hj, hx⟩ := exists_operand i operand
  exact ⟨j, (decode_ok_iff w j).2 ⟨(hj.trans hi).symm, hx.symm, reserved⟩, hj.trans hi⟩

end Sys2Proof

namespace Sys2Proof.Machine

open Sys2Proof.Claims

/-! ### A word written to `CMD` -/

/-- CMDERR is bit 0 of `STATUS` (R35). -/
theorem refuse_cmderr (s : State) : refuse .cmderr s = flagged 1 s := rfl

/-- The step in which the host writes `w` to `CMD`. -/
theorem step_issuing (w : Word) (s : State) : step (issuing w s) = issue exec w s := step_acting _ s

/-- A word that decodes to no command is refused with CMDERR (R94). -/
theorem step_issuing_refused {w : Word} (h : ∀ i, decode w ≠ .ok i) (s : State) :
    step (issuing w s) = .next (flagged 1 s) := by
  rw [step_issuing, issue]
  cases hd : decode w with
  | ok i => exact absurd hd (h i)
  | error e => rw [refuse_cmderr]

/-- A word that decodes is executed (R92). -/
theorem step_issuing_ok {w : Word} {i : Instr} (h : decode w = .ok i) (s : State) :
    step (issuing w s) = exec i s := by
  rw [step_issuing, issue_ok h]

/-- ENC `g` with `g ≥ M` is refused with CMDERR (R92, R130). -/
theorem exec_enc_refused {g : BitVec 4} {s : State} (h : 2 ^ (s.cfgOrder.toNat + 1) ≤ g.toNat) :
    exec (.enc g) s = .next (flagged 1 s) := by
  have illformed : ¬ (Instr.enc g).wellFormed s.cfgOrder = true := by rw [wellFormed_enc]; omega
  rw [exec_next_iff, ← refuse_cmderr]
  exact ⟨nofun, if_neg illformed⟩

/-- Settles O7: a word that fails a check of `OPC` or `IMM` decodes to nothing, ENC is refused by its own check, and
every other word decodes. -/
theorem commandWordsAreCheckedInOrder : Obligations.CommandWordsAreCheckedInOrder := by
  intro w s opc imm table
  have hreserved : imm.extractLsb' 4 20 = reservedField w := reservedField_eq w
  have hoperand : imm.extractLsb' 0 4 = operandField w := operandField_eq w
  rw [hreserved, hoperand]
  refine ⟨fun hopc => ?unknown, fun _ himm => ?reserved, fun henc hclr himm => ?immediate, fun henc hg => ?enc,
    fun hopc himm hzero _ => ?legal⟩
  case unknown => exact step_issuing_refused (fun i hi => hopc (opcField_mem_rows hi)) s
  case reserved => exact step_issuing_refused (fun i hi => himm ((decode_ok_iff w i).1 hi).2.2) s
  case immediate =>
    refine step_issuing_refused (fun i hi => himm ?_) s
    obtain ⟨ho, hx, hr⟩ := (decode_ok_iff w i).1 hi
    exact immField_eq_zero_iff.2 ⟨hr, hx.trans (operand_eq_zero (ho ▸ henc) (ho ▸ hclr))⟩
  case enc =>
    by_cases hd : ∃ i, decode w = .ok i
    · obtain ⟨i, hi⟩ := hd
      obtain ⟨ho, hx, -⟩ := (decode_ok_iff w i).1 hi
      rw [step_issuing_ok hi, eq_enc_of_opcode (ho.symm.trans henc), ← hx, exec_enc_refused hg]
    · exact step_issuing_refused (not_exists.1 hd) s
  case legal =>
    obtain ⟨i, hi, ho⟩ := exists_decode hopc himm hzero
    exact ⟨i, hi, ho, step_issuing_ok hi s⟩

end Sys2Proof.Machine
end

section
/-! Group values (R100): the first bit of a group is the most significant. -/

namespace Sys2Proof.Machine

open Sys2Proof.Claims

/-- One more bit at the end doubles the value of the bits before it. -/
theorem groupValue_concat (group : List Bit) (b : Bit) :
    groupValue (group ++ [b]) = 2 * groupValue group + b.toNat := by
  simp [groupValue]

theorem bitAt_concat_of_lt {bits : List Bit} {i : Nat} (h : i < bits.length) (b : Bit) :
    bitAt (bits ++ [b]) i = bitAt bits i := by
  rw [bitAt, bitAt, List.getD_append _ _ _ _ h]

theorem bitAt_concat_length (bits : List Bit) (b : Bit) : bitAt (bits ++ [b]) bits.length = b.toNat := by
  simp [bitAt]

/-- The weights of the bits of a group. -/
theorem groupValue_eq_sum (group : List Bit) :
    groupValue group = ∑ i ∈ Finset.range group.length, bitAt group i * 2 ^ (group.length - 1 - i) := by
  induction group using List.reverseRecOn with
  | nil => rfl
  | append_singleton bits b ih =>
    have doubled : ∀ i ∈ Finset.range bits.length,
        bitAt (bits ++ [b]) i * 2 ^ (bits.length - i) = 2 * (bitAt bits i * 2 ^ (bits.length - 1 - i)) := by
      intro i hi
      have hlt := Finset.mem_range.1 hi
      rw [bitAt_concat_of_lt hlt, show bits.length - i = bits.length - 1 - i + 1 by omega, pow_succ]
      ring
    rw [groupValue_concat, ih, List.length_append, List.length_singleton, Nat.add_sub_cancel, Finset.sum_range_succ,
      Finset.sum_congr rfl doubled, ← Finset.mul_sum, bitAt_concat_length, Nat.sub_self, pow_zero, mul_one]

/-- The bits of a number end with its lowest bit, after the bits of its half. -/
theorem bitsMsbFirst_succ (w g : Nat) : bitsMsbFirst (w + 1) g = bitsMsbFirst w (g / 2) ++ [g.testBit 0] := by
  simp [bitsMsbFirst, List.range_succ_eq_map, Nat.testBit_succ]

/-- The model lists the bits from `w - 1` down to 0. -/
theorem bitsOf_eq_bitsMsbFirst (w g : Nat) : bitsOf w g = bitsMsbFirst w g := by
  simp [bitsOf, bitsMsbFirst, List.range_eq_range', List.reverse_range']

/-- A number below `2^w` is the value of its `w` bits. -/
theorem groupValue_bitsMsbFirst {w g : Nat} (h : g < 2 ^ w) : groupValue (bitsMsbFirst w g) = g := by
  induction w generalizing g with
  | zero => simp_all [bitsMsbFirst, groupValue]
  | succ w ih =>
    rw [bitsMsbFirst_succ, groupValue_concat, ih (by omega), Nat.toNat_testBit, pow_zero, Nat.div_one]
    omega

/-- Settles O16: the value by its last bit gives the sum of the weights, and inverts the listing of the bits. -/
theorem groupValuesReadTheFirstBitAsMostSignificant : Obligations.GroupValuesReadTheFirstBitAsMostSignificant :=
  ⟨groupValue_eq_sum, bitsOf_eq_bitsMsbFirst, fun w g h => by
    rw [bitsOf_eq_bitsMsbFirst, groupValue_bitsMsbFirst h]⟩

end Sys2Proof.Machine
end

section
/-! The nominal phases and the regions of the circle (R120, R123 to R125) over the reals, and what ENC and DEC write of
them. -/

namespace Sys2Proof

open Sys2Proof.Machine Sys2Proof.Claims

/-! ### Phases over the reals -/

/-- Neighbouring nominal phases are one region's width apart. -/
theorem theta_succ_sub (m k : Nat) : theta m (k + 1) - theta m k = 2 * Real.pi / m := by
  unfold theta
  push_cast
  ring

/-- The boundary `β_b` is the lower end of region `b`, which contains it (R124). -/
theorem inRegion_boundary {m b : Nat} (hb : b < m) : InRegion m b (2 * Real.pi * b / m) := by
  have hm : (0 : ℝ) < m := by exact_mod_cast Nat.zero_lt_of_lt hb
  have hbm : (b : ℝ) < m := by exact_mod_cast hb
  have turn : (0 : ℝ) < 2 * Real.pi := Real.two_pi_pos
  refine ⟨by positivity, ?_, le_rfl, ?_⟩
  · rw [div_lt_iff₀ hm]
    gcongr
  · gcongr
    exact lt_add_one _

section IsReal
variable {num : Numeric} {v : NumVal → ℝ} (h : num.IsReal v)
include h

/-- The formula of a nominal phase is the phase of R120. -/
theorem Numeric.IsReal.nominalPhase {m : Nat} (hm : 0 < m) (k : Nat) : v (nominalPhase m k) = theta m k := by
  have denominator : v (.ofNat m) ≠ 0 := by
    rw [h.ofNat]
    exact_mod_cast hm.ne'
  rw [Machine.nominalPhase, h.div _ _ denominator, h.mul, h.ofNat, h.ofNat, h.pi, theta]
  push_cast
  rfl

/-- Reduction takes off the whole turns, however many there are. -/
theorem Numeric.IsReal.modTwoPi_eq {x : NumVal} {turns : ℤ} (lo : 0 ≤ v x - 2 * Real.pi * turns)
    (hi : v x - 2 * Real.pi * turns < 2 * Real.pi) : v (NumVal.modTwoPi x) = v x - 2 * Real.pi * turns := by
  have quotient : ⌊v x / (2 * Real.pi)⌋ = turns := by
    rw [Int.floor_eq_iff, le_div_iff₀ Real.two_pi_pos, div_lt_iff₀ Real.two_pi_pos]
    constructor <;> linarith
  rw [(h.modTwoPi x).1, quotient]

/-- The region of an angle is the index R125 computes: over the reals the quotient is neither outside `0 .. M` nor
clamped. -/
theorem Numeric.IsReal.regionOf_eq {m k : Nat} {a : NumVal} (hm : 0 < m) (hk : InRegion m k (v a)) :
    regionOf num m a = k := by
  have hm' : (0 : ℝ) < m := by exact_mod_cast hm
  obtain ⟨-, below, lo, hi⟩ := hk
  rw [div_le_iff₀ hm'] at lo
  rw [lt_div_iff₀ hm'] at hi
  have hkm : k < m := by
    have : 2 * Real.pi * k < 2 * Real.pi * m := lo.trans_lt (by gcongr)
    exact_mod_cast (mul_lt_mul_iff_right₀ Real.two_pi_pos).1 this
  have quotient : num.floorOf (.div (.mul (.ofNat m) a) .twoPi) = k := by
    have turn : v .twoPi ≠ 0 := by rw [h.twoPi]; exact Real.two_pi_pos.ne'
    rw [h.floorOf, h.div _ _ turn, h.mul, h.ofNat, h.twoPi, Int.floor_eq_iff, le_div_iff₀ Real.two_pi_pos,
      div_lt_iff₀ Real.two_pi_pos]
    push_cast
    constructor <;> linarith
  simp only [regionOf, quotient]
  rw [if_neg (by omega)]
  omega

end IsReal

end Sys2Proof

namespace Sys2Proof.Machine

open Sys2Proof.Claims

/-- Settles O17: the phases are `theta`, whose neighbours are `2π/M` apart. -/
theorem nominalPhasesAreEquallySpaced : Obligations.NominalPhasesAreEquallySpaced := by
  intro num v bps1 k h
  have hM : ((points bps1 : Nat) : ℝ) = 2 ^ (bps1.toNat + 1) := by
    rw [points_eq]
    push_cast
    rfl
  rw [h.nominalPhase (points_pos bps1), h.nominalPhase (points_pos bps1), theta_succ_sub, theta, hM]
  exact ⟨rfl, rfl⟩

/-! ### ENC -/

/-- A word with a reserved immediate bit set is no command's, whatever its operation code (R91, R92). -/
theorem reservedImmediateRefused (opc : BitVec 8) : ReservedImmediateRefused opc := fun w s _ himm =>
  step_issuing_refused (fun i hi => himm ((decode_ok_iff w i).1 hi).2.2) s

/-- ENC `g` with `g < M` writes the three result registers (R130). -/
theorem exec_enc {g : BitVec 4} {s : State} (h : g.toNat < 2 ^ (s.cfgOrder.toNat + 1)) :
    exec (.enc g) s = .next (setResult (assign Config.machine s.cfgOrder g.toNat) g.toNat
      (nominalPhase (points s.cfgOrder) (assign Config.machine s.cfgOrder g.toNat)) s) :=
  exec_next_iff.2 ⟨nofun, if_pos ((wellFormed_enc g s.cfgOrder).2 h)⟩

/-- A result register holds a 4-bit operand as it is. -/
@[simp] theorem toResult_operand (g : BitVec 4) : toResult g.toNat = g := by
  rw [toResult, BitVec.ofNat_toNat, BitVec.setWidth_eq]

/-- Settles O18: the reserved bits are the decoder's check, `g < M` is the command's own. -/
theorem encWritesTheNominalPhase : Obligations.EncWritesTheNominalPhase := by
  refine ⟨reservedImmediateRefused 0x10, fun g s h => exec_enc_refused h, fun g s h => ?_⟩
  have index : assign Config.machine s.cfgOrder g.toNat = (Config.alphabet s.cfgOrder ⟨g.toNat, h⟩).val :=
    assign_fin Config.machine s.cfgOrder ⟨g.toNat, h⟩
  rw [exec_enc h, index, setResult, toResult_operand, toResult]

/-! ### DEC -/

/-- DEC's phase index is the region of the reduced phase, a number below `M` (R131). -/
theorem decCmd_resK (p : Params) (s : State) :
    (decCmd p s).resK.toNat = regionOf p.num (points s.cfgOrder) (.modTwoPi s.phaseIn) :=
  toResult_toNat (regionOf_lt p.num (points_pos s.cfgOrder) _)

/-- Over the reals DEC answers the region of the phase less its whole turns. -/
theorem decCmd_resK_of_inRegion {p : Params} {v : NumVal → ℝ} (h : p.num.IsReal v) {s : State} {k : Nat} {turns : ℤ}
    (hk : InRegion (points s.cfgOrder) k (v s.phaseIn - 2 * Real.pi * turns)) : (decCmd p s).resK.toNat = k := by
  have ⟨lo, hi, _, _⟩ := hk
  rw [← h.modTwoPi_eq lo hi] at hk
  exact (decCmd_resK p s).trans (h.regionOf_eq (points_pos s.cfgOrder) hk)

/-- Settles O23: a boundary phase is in the region it begins; `2π` is one turn above the boundary 0. -/
theorem boundaryPhasesBelongToTheUpperRegion : Obligations.BoundaryPhasesBelongToTheUpperRegion := by
  intro p v s h
  refine ⟨fun b hb hphase => ?_, fun hphase => ?_⟩
  · refine decCmd_resK_of_inRegion h (turns := 0) ?_
    simpa [hphase] using inRegion_boundary hb
  · refine decCmd_resK_of_inRegion h (turns := 1) ?_
    simpa [hphase] using inRegion_boundary (points_pos s.cfgOrder)

end Sys2Proof.Machine
end

section
/-! The modulator (R151 to R158): the group values of the padded bits, the samples of a synthesized waveform, and the
three ways MOD ends. -/

namespace Sys2Proof.Machine

open Sys2Proof.Claims

/-! ### The bit-to-phase mapper -/

/-- Padding adds zero bits, which is what a bit after the end reads as (R151). -/
theorem bitAt_padBits (w : Nat) (bits : List Bit) (i : Nat) : bitAt (padBits w bits) i = bitAt bits i := by
  unfold bitAt padBits
  by_cases h : i < bits.length
  · rw [List.getD_append _ _ _ _ h]
  · have past : bits.length ≤ i := Nat.le_of_not_lt h
    rw [List.getD_append_right _ _ _ _ past, List.getD_eq_default _ _ past,
      List.getD_eq_getElem?_getD, List.getElem?_getD_replicate_default_eq]

/-- A bit of the group that begins at bit `k`. -/
theorem bitAt_take_drop {w i : Nat} (h : i < w) (bits : List Bit) (k : Nat) :
    bitAt ((bits.drop k).take w) i = bitAt bits (k + i) := by
  simp [bitAt, List.getD_eq_getElem?_getD, List.getElem?_take_of_lt h]

/-- The padded bits fill every group (R151). -/
theorem padBits_length {w : Nat} (hw : 0 < w) (bits : List Bit) :
    (padBits w bits).length = symbolCount w bits.length * w := by
  rw [padBits, List.length_append, List.length_replicate, len_add_padCount hw]

/-- A group of the padded bits is a whole one. -/
theorem group_length {w j : Nat} (hw : 0 < w) {bits : List Bit} (hj : j < symbolCount w bits.length) :
    (((padBits w bits).drop (j * w)).take w).length = w := by
  have fits : (j + 1) * w ≤ symbolCount w bits.length * w := Nat.mul_le_mul_right w hj
  rw [Nat.succ_mul] at fits
  rw [List.length_take, List.length_drop, padBits_length hw]
  omega

/-- The `j`-th group value is that of the bits from `j·w` on, with zero bits after the end (R151). -/
theorem groupValues_getElem? {w j : Nat} (hw : 0 < w) {bits : List Bit} (hj : j < symbolCount w bits.length) :
    (groupValues w bits)[j]? = some (groupAt w bits j) := by
  have value : groupValue (((padBits w bits).drop (j * w)).take w) = groupAt w bits j := by
    rw [groupValue_eq_sum, group_length hw hj, groupAt]
    refine Finset.sum_congr rfl fun i hi => ?_
    rw [bitAt_take_drop (Finset.mem_range.1 hi), bitAt_padBits]
  rw [groupValues, List.getElem?_map, List.getElem?_range hj, Option.map_some, value]

/-- The mapper's `j`-th output is the phase index of the `j`-th group value (R152). -/
theorem phaseIndices_getElem? (p : Params) (b : BitVec 2) {bits : List Bit} {j : Nat}
    (hj : j < symbolCount (width b) bits.length) :
    (phaseIndices p b bits)[j]? = some (assign p b (groupAt (width b) bits j)) := by
  rw [phaseIndices, List.getElem?_map, groupValues_getElem? (width_pos b) hj, Option.map_some]

/-- The padding count is what the groups hold beyond the bits (R151). -/
theorem padCount_eq_sub {w : Nat} (hw : 0 < w) (len : Nat) : padCount w len = symbolCount w len * w - len := by
  rw [← len_add_padCount hw, Nat.add_sub_cancel_left]

/-! ### The waveform synthesizer -/

theorem refSymbol_getElem? {n i : Nat} (hi : i < n) (amp theta : NumVal) :
    (refSymbol n amp theta)[i]? = some (sampleAt n amp theta i) := by
  rw [refSymbol, List.getElem?_map, List.getElem?_range hi, Option.map_some]

theorem synthesize_cons (m n : Nat) (amp : NumVal) (k : Nat) (ks : List Nat) :
    synthesize m n amp (k :: ks) = refSymbol n amp (nominalPhase m k) ++ synthesize m n amp ks := List.flatMap_cons

/-- Sample `j·N + i` of the waveform is sample `i` of symbol `j` (R155). -/
theorem synthesize_getElem? {m n : Nat} {amp : NumVal} {ks : List Nat} {j k i : Nat} (hk : ks[j]? = some k)
    (hi : i < n) : (synthesize m n amp ks)[j * n + i]? = some (sampleAt n amp (nominalPhase m k) i) := by
  induction ks generalizing j with
  | nil => simp at hk
  | cons k' ks ih =>
    rw [synthesize_cons]
    cases j with
    | zero =>
      obtain rfl : k' = k := by simpa using hk
      rw [Nat.zero_mul, Nat.zero_add, List.getElem?_append_left (by simpa using hi), refSymbol_getElem? hi]
    | succ j =>
      have next : (j + 1) * n + i = n + (j * n + i) := by ring
      rw [next, List.getElem?_append_right (by simp), refSymbol_length, Nat.add_sub_cancel_left]
      exact ih (by simpa using hk)

/-! ### MOD -/

/-- A word with any immediate bit set is no command's, unless its operation code takes an operand (R91, R92). -/
theorem zeroImmediateOnly {opc : BitVec 8} (henc : opc ≠ 0x10) (hclr : opc ≠ 0x02) : ZeroImmediateOnly opc := by
  rintro w s rfl himm
  obtain ⟨-, -, immediate, -⟩ := commandWordsAreCheckedInOrder w s
  exact immediate henc hclr himm

/-- The two conditions on the waveform configuration (R243), on the machine's parameters. -/
theorem waveConfigLegal_iff (s : State) :
    waveConfigLegal Config.machine s = true ↔ 3 ≤ s.cfgNsps.toNat ∧ AmplitudeLegal s := by
  rw [waveConfigLegal, Bool.and_eq_true, decide_eq_true_iff, AmplitudeLegal, Config.machine]

/-- CFGERR is bit 1 of `STATUS` (R35). -/
theorem refuse_cfgerr (s : State) : refuse .cfgerr s = flagged 2 s := rfl

/-- OVF is bit 2 of `STATUS` (R35). -/
theorem refuse_ovf (s : State) : refuse .ovf s = flagged 4 s := rfl

/-- MOD with a finite amplitude does what `modCmd` says (R158). -/
theorem exec_mod {s : State} (hA : FiniteNum s.cfgAmp) : exec .mod s = .next (modCmd Config.machine s) :=
  exec_next_iff.2 ⟨List.forall_mem_singleton.2 hA, rfl⟩

/-- MOD is refused with OVF where the configuration is legal and the samples do not fit (R158). -/
theorem modCmd_overflow {p : Params} {s : State} (hc : waveConfigLegal p s = true)
    (full : p.caps.sigCap < symbolCount (width s.cfgOrder) s.bitin.length * s.cfgNsps.toNat) :
    modCmd p s = refuse .ovf s := by
  obtain ⟨illegal, -⟩ | ⟨-, -, overflow⟩ | ⟨-, fits, -⟩ := modCmd_cases p s
  · simp [hc] at illegal
  · exact overflow
  · omega

/-- MOD synthesizes, records the padding and consumes `BITIN` where the samples fit (R158). -/
theorem modCmd_fits {p : Params} {s : State} (hc : waveConfigLegal p s = true)
    (fits : symbolCount (width s.cfgOrder) s.bitin.length * s.cfgNsps.toNat ≤ p.caps.sigCap) :
    modCmd p s = { s with
      sig := synthesize (points s.cfgOrder) s.cfgNsps.toNat s.cfgAmp (phaseIndices p s.cfgOrder s.bitin)
      sigPad := BitVec.ofNat 2 (padCount (width s.cfgOrder) s.bitin.length)
      bitin := [] } := by
  obtain ⟨illegal, -⟩ | ⟨-, full, -⟩ | ⟨-, -, executed⟩ := modCmd_cases p s
  · simp [hc] at illegal
  · omega
  · exact executed

/-- Settles O26: the three clauses are MOD's three ways to end; a sample is found by its symbol, the symbol's phase by
its group. -/
theorem modSynthesizesThePaddedBits : Obligations.ModSynthesizesThePaddedBits := by
  refine ⟨zeroImmediateOnly (by decide) (by decide), fun s hA => ?_⟩
  have hw := width_pos s.cfgOrder
  have symbols : symbolCount (width s.cfgOrder) s.bitin.length =
      (s.bitin.length + (s.cfgOrder.toNat + 1) - 1) / (s.cfgOrder.toNat + 1) := symbolCount_eq hw s.bitin.length
  simp only [exec_mod hA, ← symbols]
  refine ⟨fun illegal => ?config, fun hN hAmp full => ?overflow, fun hN hAmp fits => ?executed⟩
  case config =>
    have refused : waveConfigLegal Config.machine s = false := by
      rw [← Bool.not_eq_true, waveConfigLegal_iff]
      rintro ⟨hN, hAmp⟩
      exact illegal.elim (Nat.not_lt.2 hN) (· hAmp)
    exact congrArg _ (command_refused (.inl rfl) refused)
  case overflow => rw [modCmd_overflow ((waveConfigLegal_iff s).2 ⟨hN, hAmp⟩) full, refuse_ovf]
  case executed =>
    rw [modCmd_fits ((waveConfigLegal_iff s).2 ⟨hN, hAmp⟩) fits, padCount_eq_sub hw]
    refine ⟨_, rfl, ?length, fun j hj i hi => ?sample⟩
    case length => rw [synthesize_length, phaseIndices_length]
    case sample => exact synthesize_getElem? (phaseIndices_getElem? Config.machine s.cfgOrder hj) hi

end Sys2Proof.Machine
end

section
/-! The channel (R170 to R176): the noise commands refused and executed, and the values they leave. -/

namespace Sys2Proof.Machine

open Sys2Proof.Claims

/-- The condition on the noise strength (R27, R243), on the machine's parameters. -/
theorem noiseConfigLegal_iff (s : State) : noiseConfigLegal Config.machine s = true ↔ StrengthLegal s := Iff.rfl

/-- The Nums of a noise command are the strength, the data and the draws; the draws count only where the strength is
legal, since a refused command takes none (R171). -/
theorem finite_noiseNums {s : State} {data : List NumVal} {n : Nat} (hns : FiniteNum s.cfgNs)
    (hdata : ∀ x ∈ data, FiniteNum x)
    (hdraws : StrengthLegal s → ∀ i < n, FiniteNum (Config.gauss (s.drawPos + i))) :
    ∀ x ∈ s.cfgNs :: data ++ (nextDraws Config.machine s n).filter (fun _ => noiseConfigLegal Config.machine s),
      FiniteNum x := by
  intro x hx
  rw [List.cons_append, List.mem_cons, List.mem_append, List.mem_filter, mem_nextDraws, noiseConfigLegal_iff] at hx
  rcases hx with rfl | hx | ⟨⟨i, hi, rfl⟩, legal⟩
  · exact hns
  · exact hdata x hx
  · exact hdraws legal i hi

/-! ### NOISEW -/

theorem noisewCmd_refused {p : Params} {s : State} (h : ¬ noiseConfigLegal p s = true) :
    noisewCmd p s = refuse .cfgerr s := if_neg h

theorem noisewCmd_legal {p : Params} {s : State} (h : noiseConfigLegal p s = true) :
    noisewCmd p s = waveformNoise p s := if_pos h

/-- NOISEW on finite values does what `noisewCmd` says (R174). -/
theorem exec_noisew {s : State} (hns : FiniteNum s.cfgNs) (hsig : ∀ x ∈ s.sig, FiniteNum x)
    (hdraws : StrengthLegal s → ∀ i < s.sig.length, FiniteNum (Config.gauss (s.drawPos + i))) :
    exec .noisew s = .next (noisewCmd Config.machine s) :=
  exec_next_iff.2 ⟨finite_noiseNums hns hsig hdraws, rfl⟩

/-- Sample `i` receives draw `i`, scaled by the strength (R173). -/
theorem addWaveformNoise_getElem? {samples : List NumVal} {i : Nat} {x : NumVal} (hx : samples[i]? = some x)
    (ns : NumVal) (draw : Nat → NumVal) :
    (addWaveformNoise ns draw samples)[i]? = some (.add x (.mul ns (draw i))) := by
  rw [addWaveformNoise, List.getElem?_mapIdx, hx, Option.map_some]

/-- Settles O28: the two clauses are NOISEW's two ways to end; each sample is found by its index. -/
theorem noisewAddsOneScaledDrawPerSample : Obligations.NoisewAddsOneScaledDrawPerSample := by
  refine ⟨zeroImmediateOnly (by decide) (by decide), fun s hns hsig =>
    ⟨fun illegal => ?refused, fun legal hdraws => ?executed⟩⟩
  case refused =>
    rw [exec_noisew hns hsig fun legal => absurd legal illegal,
      noisewCmd_refused (mt (noiseConfigLegal_iff s).1 illegal), refuse_cfgerr]
  case executed =>
    rw [exec_noisew hns hsig fun _ => hdraws, noisewCmd_legal ((noiseConfigLegal_iff s).2 legal), waveformNoise_eq]
    exact ⟨_, rfl, addWaveformNoise_length .., fun _ _ hx => addWaveformNoise_getElem? hx ..⟩

/-! ### NOISES -/

theorem noisesCmd_refused {p : Params} {s : State} (h : ¬ noiseConfigLegal p s = true) :
    noisesCmd p s = refuse .cfgerr s := if_neg h

theorem noisesCmd_legal {p : Params} {s : State} (h : noiseConfigLegal p s = true) :
    noisesCmd p s = symbolNoise p s := if_pos h

/-- The parts of finite symbols are finite. -/
theorem finite_symbolParts {symbols : List Cplx} (h : ∀ z ∈ symbols, FiniteSymbol z) :
    ∀ x ∈ symbolParts symbols, FiniteNum x := by
  intro x hx
  obtain ⟨z, hz, rfl | rfl⟩ := mem_symbolParts.1 hx
  · exact (h z hz).1
  · exact (h z hz).2

/-- NOISES on finite values does what `noisesCmd` says (R176). -/
theorem exec_noises {s : State} (hns : FiniteNum s.cfgNs) (hsym : ∀ z ∈ s.sym, FiniteSymbol z)
    (hdraws : StrengthLegal s → ∀ i < 2 * s.sym.length, FiniteNum (Config.gauss (s.drawPos + i))) :
    exec .noises s = .next (noisesCmd Config.machine s) :=
  exec_next_iff.2 ⟨finite_noiseNums hns (finite_symbolParts hsym) hdraws, rfl⟩

/-- The scale of the symbol noise is written with the Num 2 (R175). -/
theorem symbolSigma_eq (ns : NumVal) : symbolSigma ns = .sqrt (.div ns (.rat 2)) := by
  rw [symbolSigma, NumVal.ofNat, Nat.cast_ofNat]

/-- Symbol `j` receives the scaled draws `2j` and `2j + 1`, the real part's first (R171, R175). -/
theorem addSymbolNoise_getElem? {symbols : List Cplx} {j : Nat} {z : Cplx} (hz : symbols[j]? = some z)
    (ns : NumVal) (draw : Nat → NumVal) :
    (addSymbolNoise ns draw symbols)[j]? = some
      { re := .add z.re (.mul (symbolSigma ns) (draw (2 * j)))
        im := .add z.im (.mul (symbolSigma ns) (draw (2 * j + 1))) } := by
  rw [addSymbolNoise, List.getElem?_mapIdx, hz, Option.map_some]

/-- Settles O29: the two clauses are NOISES's two ways to end; each symbol is found by its index. -/
theorem noisesAddsTwoScaledDrawsPerSymbol : Obligations.NoisesAddsTwoScaledDrawsPerSymbol := by
  refine ⟨zeroImmediateOnly (by decide) (by decide), fun s hns hsym => ?_⟩
  rw [← symbolSigma_eq]
  refine ⟨fun illegal => ?refused, fun legal hdraws => ?executed⟩
  case refused =>
    rw [exec_noises hns hsym fun legal => absurd legal illegal,
      noisesCmd_refused (mt (noiseConfigLegal_iff s).1 illegal), refuse_cfgerr]
  case executed =>
    rw [exec_noises hns hsym fun _ => hdraws, noisesCmd_legal ((noiseConfigLegal_iff s).2 legal), symbolNoise_eq]
    exact ⟨_, rfl, addSymbolNoise_length .., fun _ _ hz => addSymbolNoise_getElem? hz ..⟩

end Sys2Proof.Machine
end

section
/-! The detector over the reals (R193 to R197): the correlation coefficients, the selection of a candidate, and the
estimate of one window. -/

namespace Sys2Proof.Machine

open Sys2Proof.Claims

/-! ### Real coefficients -/

/-- A dot product, term by term. -/
theorem realDot_eq_sum {n : Nat} {x y : List ℝ} (hx : x.length = n) (hy : y.length = n) :
    realDot x y = ∑ i ∈ Finset.range n, x.getD i 0 * y.getD i 0 := by
  induction x generalizing y n with
  | nil =>
    subst hx
    rfl
  | cons a x ih =>
    subst hx
    cases y with
    | nil => cases hy
    | cons b y =>
      have tail := ih rfl (Nat.succ.inj hy)
      rw [List.length_cons, Finset.sum_range_succ']
      simpa [realDot, add_comm] using tail

theorem realDot_self_nonneg (x : List ℝ) : 0 ≤ realDot x x := by
  rw [realDot_eq_sum rfl rfl]
  exact Finset.sum_nonneg fun i _ => mul_self_nonneg _

/-- The inequality of Cauchy and Schwarz: a dot product is not greater than the product of the norms. -/
theorem abs_realDot_le_normProduct {x y : List ℝ} (hlen : x.length = y.length) :
    |realDot x y| ≤ normProduct x y := by
  refine Real.abs_le_sqrt ?_
  rw [realDot_eq_sum hlen rfl, realDot_eq_sum hlen hlen, realDot_eq_sum rfl rfl]
  simp only [← sq]
  exact Finset.sum_mul_sq_le_sq_mul_sq _ _ _

/-- The normalized correlation lies in `[−1, 1]` (R193). -/
theorem abs_realNcorr_le_one {x y : List ℝ} (hlen : x.length = y.length) : |realNcorr x y| ≤ 1 := by
  unfold realNcorr
  split
  case isTrue => simp
  case isFalse hne =>
    have nonneg : 0 ≤ normProduct x y := Real.sqrt_nonneg _
    rw [abs_div, abs_of_nonneg nonneg]
    exact div_le_one_of_le₀ (abs_realDot_le_normProduct hlen) nonneg

@[simp] theorem realCentred_length (x : List ℝ) : (realCentred x).length = x.length := List.length_map ..

/-- The Pearson coefficient lies in `[−1, 1]` (R194). -/
theorem abs_realPearson_le_one {x y : List ℝ} (hlen : x.length = y.length) : |realPearson x y| ≤ 1 :=
  abs_realNcorr_le_one (by simpa using hlen)

/-- The Pearson coefficient is the normalized correlation of the centred sequences (R194). -/
theorem pearson_eq_ncorr (num : Numeric) (n : Nat) (x y : List NumVal) :
    pearson num n x y = ncorr num (centred n x) (centred n y) := rfl

end Sys2Proof.Machine

namespace Sys2Proof

open Sys2Proof.Machine Sys2Proof.Claims

/-! ### The model's coefficients over the reals -/

section IsReal
variable {num : Numeric} {v : NumVal → ℝ} (h : num.IsReal v)
include h

/-- A coefficient is 0 and marked where its denominator is 0, else the quotient (R193, R194, R198). -/
theorem Numeric.IsReal.ratio_eq (top den : NumVal) :
    v (ratio num top den).1 = (if v den = 0 then 0 else v top / v den) ∧
      ((ratio num top den).2 = true ↔ v den = 0) := by
  have test : num.same den .zero = true ↔ v den = 0 := by rw [h.same_iff, h.zero]
  unfold ratio
  by_cases hden : v den = 0
  · simp [test.2 hden, hden, h.zero]
  · simp [mt test.1 hden, hden, h.div _ _ hden]

/-- The denominator of the normalized correlation is the product of the norms (R193). -/
theorem Numeric.IsReal.ncorr_denominator (x y : List NumVal) :
    v (.sqrt (.mul (.dot x x) (.dot y y))) = normProduct (x.map v) (y.map v) := by
  have product : v (.mul (.dot x x) (.dot y y)) = realDot (x.map v) (x.map v) * realDot (y.map v) (y.map v) := by
    rw [h.mul, h.dot, h.dot, realDot, realDot]
  have nonneg : 0 ≤ v (.mul (.dot x x) (.dot y y)) := by
    rw [product]
    exact mul_nonneg (realDot_self_nonneg _) (realDot_self_nonneg _)
  rw [h.sqrt _ nonneg, product, normProduct]

theorem Numeric.IsReal.ncorr_fst (x y : List NumVal) : v (ncorr num x y).1 = realNcorr (x.map v) (y.map v) := by
  rw [ncorr, (h.ratio_eq _ _).1, h.ncorr_denominator, h.dot]
  rfl

theorem Numeric.IsReal.ncorr_snd (x y : List NumVal) :
    (ncorr num x y).2 = true ↔ normProduct (x.map v) (y.map v) = 0 := by
  rw [ncorr, (h.ratio_eq _ _).2, h.ncorr_denominator]

/-- Centring takes the mean of the real values off each (R194). -/
theorem Numeric.IsReal.map_centred {n : Nat} {x : List NumVal} (hn : 0 < n) (hx : x.length = n) :
    (centred n x).map v = realCentred (x.map v) := by
  have count : v (.ofNat n) ≠ 0 := by
    rw [h.ofNat]
    exact_mod_cast hn.ne'
  have average : v (mean n x) = (x.map v).sum / (x.map v).length := by
    rw [mean, h.div _ _ count, h.sum, h.ofNat, List.length_map, hx]
  simp [centred, realCentred, h.sub, average]

theorem Numeric.IsReal.pearson_fst {n : Nat} {x y : List NumVal} (hn : 0 < n) (hx : x.length = n) (hy : y.length = n) :
    v (pearson num n x y).1 = realPearson (x.map v) (y.map v) := by
  rw [pearson_eq_ncorr, h.ncorr_fst, h.map_centred hn hx, h.map_centred hn hy, realPearson]

theorem Numeric.IsReal.pearson_snd {n : Nat} {x y : List NumVal} (hn : 0 < n) (hx : x.length = n) (hy : y.length = n) :
    (pearson num n x y).2 = true ↔ normProduct (realCentred (x.map v)) (realCentred (y.map v)) = 0 := by
  rw [pearson_eq_ncorr, h.ncorr_snd, h.map_centred hn hx, h.map_centred hn hy]

/-- A constellation point (R196) over the reals. -/
theorem Numeric.IsReal.unitPoint_nominalPhase {m : Nat} (hm : 0 < m) (k : Nat) :
    v (unitPoint (Machine.nominalPhase m k)).re = Real.cos (theta m k) ∧
      v (unitPoint (Machine.nominalPhase m k)).im = Real.sin (theta m k) := by
  rw [unitPoint, h.cos, h.sin, h.nominalPhase hm]
  exact ⟨rfl, rfl⟩

end IsReal

end Sys2Proof

namespace Sys2Proof.Machine

open Sys2Proof.Claims

/-- Settles O35: the values are those of the real coefficients, which the inequality of Cauchy and Schwarz bounds. -/
theorem coefficientsAreTheCorrelations : Obligations.CoefficientsAreTheCorrelations := by
  intro num v n x y h hn hx hy
  have hlen : (x.map v).length = (y.map v).length := by simp [hx, hy]
  rw [h.ncorr_fst, h.pearson_fst hn hx hy]
  exact ⟨rfl, h.ncorr_snd x y, rfl, h.pearson_snd hn hx hy, abs_realNcorr_le_one hlen, abs_realPearson_le_one hlen⟩

/-! ### The selection -/

/-- `k` is the smallest index whose coefficient is the maximum, and `best` is that coefficient (R197). -/
def IsFirstMax (v : NumVal → ℝ) (rhos : List NumVal) (k : Nat) (best : NumVal) : Prop :=
  rhos[k]? = some best ∧ (∀ rho ∈ rhos, v rho ≤ v best) ∧ ∀ rho ∈ rhos.take k, v rho < v best

theorem isFirstMax_singleton (v : NumVal → ℝ) (rho : NumVal) : IsFirstMax v [rho] 0 rho :=
  ⟨rfl, List.forall_mem_singleton.2 le_rfl, nofun⟩

/-- A later candidate with a strictly greater coefficient is selected. -/
theorem IsFirstMax.concat_of_lt {v : NumVal → ℝ} {rhos : List NumVal} {k : Nat} {best rho : NumVal}
    (hk : IsFirstMax v rhos k best) (hlt : v best < v rho) : IsFirstMax v (rhos ++ [rho]) rhos.length rho := by
  obtain ⟨-, hmax, -⟩ := hk
  have below : ∀ x ∈ rhos, v x < v rho := fun x hx => (hmax x hx).trans_lt hlt
  refine ⟨List.getElem?_concat_length, ?_, ?_⟩
  · exact List.forall_mem_append.2 ⟨fun x hx => (below x hx).le, List.forall_mem_singleton.2 le_rfl⟩
  · rwa [List.take_left]

/-- A later candidate whose coefficient is not greater is not selected. -/
theorem IsFirstMax.concat_of_le {v : NumVal → ℝ} {rhos : List NumVal} {k : Nat} {best rho : NumVal}
    (hk : IsFirstMax v rhos k best) (hle : v rho ≤ v best) : IsFirstMax v (rhos ++ [rho]) k best := by
  obtain ⟨hbest, hmax, hfirst⟩ := hk
  have inside : k < rhos.length := (List.getElem?_eq_some_iff.1 hbest).1
  refine ⟨?_, ?_, ?_⟩
  · rwa [List.getElem?_append_left inside]
  · exact List.forall_mem_append.2 ⟨hmax, List.forall_mem_singleton.2 hle⟩
  · rwa [List.take_append_of_le_length inside.le]

/-- The scan of R197 keeps the first maximum of the candidates seen. -/
theorem isFirstMax_scanMax {num : Numeric} {v : NumVal → ℝ} (h : num.IsReal v) {seen : List NumVal} {k : Nat}
    {best : NumVal} (hk : IsFirstMax v seen k best) (rest : List NumVal) :
    ∃ best', IsFirstMax v (seen ++ rest) (scanMax num k best seen.length rest) best' := by
  induction rest generalizing seen k best with
  | nil => exact ⟨best, by rwa [List.append_nil, scanMax]⟩
  | cons rho rest ih =>
    have next : (seen ++ [rho]).length = seen.length + 1 := List.length_append
    rw [List.append_cons, scanMax, ← next]
    split
    case isTrue hless => exact ih (hk.concat_of_lt ((h.less_iff _ _).1 hless))
    case isFalse hless => exact ih (hk.concat_of_le (not_lt.1 (mt (h.less_iff _ _).2 hless)))

/-- The selected index is the first maximum of a non-empty list (R197). -/
theorem selectMax_isFirstMax {num : Numeric} {v : NumVal → ℝ} (h : num.IsReal v) {rhos : List NumVal}
    (hne : rhos ≠ []) : ∃ best, IsFirstMax v rhos (selectMax num rhos) best := by
  cases rhos with
  | nil => exact absurd rfl hne
  | cons rho rest => exact isFirstMax_scanMax h (isFirstMax_singleton v rho) rest

/-- Settles O36: the scan keeps the first maximum of the coefficients it has seen. -/
theorem selectionTakesTheSmallestMaximum : Obligations.SelectionTakesTheSmallestMaximum := by
  intro num v rhos h hne
  obtain ⟨best, hbest, hmax, hfirst⟩ := selectMax_isFirstMax h hne
  refine ⟨best, hbest, fun k rho hrho => ?_, fun k rho hk hrho => ?_⟩
  · exact hmax rho (List.mem_of_getElem? hrho)
  · exact hfirst rho (List.mem_of_getElem? (i := k) (by rwa [List.getElem?_take_of_lt hk]))

/-! ### The estimate of a window -/

/-- The order-2 estimate is the point of the unit circle whose real part is the correlation (R195, R199). -/
theorem estimateBpsk_real {num : Numeric} {v : NumVal → ℝ} (h : num.IsReal v) {ref window : List NumVal}
    (hlen : window.length = ref.length) :
    let c := realNcorr (window.map v) (ref.map v)
    v (estimateBpsk num ref window).1.re = c ∧ v (estimateBpsk num ref window).1.im = Real.sqrt (1 - c ^ 2) := by
  intro c
  have value : v (ncorr num window ref).1 = c := h.ncorr_fst window ref
  obtain ⟨lo, hi⟩ : -1 ≤ c ∧ c ≤ 1 := abs_le.1 (abs_realNcorr_le_one (by simpa using hlen))
  have clamped : num.clampUnit (ncorr num window ref).1 = (ncorr num window ref).1 :=
    h.clampUnit (value ▸ lo) (value ▸ hi)
  have angle : v (.arccos (ncorr num window ref).1) = Real.arccos c := by
    rw [h.arccos _ (value ▸ lo) (value ▸ hi), value]
  rw [estimateBpsk, clamped, unitPoint, h.cos, h.sin, angle]
  exact ⟨Real.cos_arccos lo hi, Real.sin_arccos c⟩

/-- The reference of order 2 is that of the symbol assigned to the bit 1 (R192, R195). -/
theorem estimate_bpsk (p : Params) (n : Nat) (amp : NumVal) (window : List NumVal) :
    estimate p 0 n amp window = estimateBpsk p.num (reference 0 n amp (assign p 0 1)) window := rfl

/-- Settles O37: over the reals the clamp changes nothing, and the point is that of the angle `arccos c`. -/
theorem bpskEstimateOverTheReals : Obligations.BpskEstimateOverTheReals := by
  intro p v n amp window h _ hlen
  obtain ⟨hre, him⟩ := estimateBpsk_real (ref := reference 0 n amp (assign p 0 1)) h (by simpa [reference] using hlen)
  simp only [estimate_bpsk]
  exact ⟨hre, him, him ▸ Real.sqrt_nonneg _, h.ncorr_snd window _⟩

/-- The first of `m` candidates whose coefficient is the maximum is selected (R196, R197). -/
theorem selectMax_candidates {num : Numeric} {v : NumVal → ℝ} (h : num.IsReal v) {m : Nat} (hm : 0 < m)
    (coefficient : Nat → NumVal) :
    let k := selectMax num ((List.range m).map coefficient)
    k < m ∧ (∀ j < m, v (coefficient j) ≤ v (coefficient k)) ∧ ∀ j < k, v (coefficient j) < v (coefficient k) := by
  intro k
  have candidate : ∀ j < m, ((List.range m).map coefficient)[j]? = some (coefficient j) := fun j hj => by
    rw [List.getElem?_map, List.getElem?_range hj, Option.map_some]
  obtain ⟨best, hbest, hmax, hfirst⟩ :=
    selectionTakesTheSmallestMaximum num v ((List.range m).map coefficient) h (by simpa using hm.ne')
  have hk : k < m := by simpa using (List.getElem?_eq_some_iff.1 hbest).1
  obtain rfl : coefficient k = best := Option.some.inj ((candidate k hk).symm.trans hbest)
  exact ⟨hk, fun j hj => hmax j _ (candidate j hj), fun j hj => hfirst j _ hj (candidate j (hj.trans hk))⟩

/-- The Pearson coefficients of a window with the `M` references (R196). -/
def candidateCoefficients (num : Numeric) (bps1 : BitVec 2) (n : Nat) (amp : NumVal) (window : List NumVal) :
    List (NumVal × Bool) :=
  (List.range (points bps1)).map fun k => pearson num n window (reference bps1 n amp k)

/-- The estimate for orders 4, 8 and 16 is the point of the selected index, degenerate where a coefficient is. -/
theorem estimate_higher {bps1 : BitVec 2} (horder : bps1 ≠ 0) (p : Params) (n : Nat) (amp : NumVal)
    (window : List NumVal) :
    estimate p bps1 n amp window =
      let rhos := candidateCoefficients p.num bps1 n amp window
      (unitPoint (nominalPhase (points bps1) (selectMax p.num (rhos.map Prod.fst))), rhos.any Prod.snd) :=
  if_neg horder

/-- Settles O38: the estimate is the point of the index selected from the `M` coefficients. -/
theorem higherOrderEstimateOverTheReals : Obligations.HigherOrderEstimateOverTheReals := by
  intro p v bps1 n amp window h horder hn hlen
  have href : ∀ k, (reference bps1 n amp k).length = n := fun k => refSymbol_length ..
  have value : ∀ k, v (pearson p.num n window (reference bps1 n amp k)).1 =
      realPearson (window.map v) ((reference bps1 n amp k).map v) := fun k => h.pearson_fst hn hlen (href k)
  have selected := selectMax_candidates h (points_pos bps1) fun k =>
    (pearson p.num n window (reference bps1 n amp k)).1
  simp only [value] at selected
  obtain ⟨hk, hmax, hfirst⟩ := selected
  simp only [estimate_higher horder, candidateCoefficients, List.map_map]
  have point := h.unitPoint_nominalPhase (points_pos bps1)
  refine ⟨_, hk, hmax, hfirst, (point _).1, (point _).2, ?_⟩
  simp [h.pearson_snd hn hlen (href _)]

end Sys2Proof.Machine
end

section
/-! DETECT and DEMOD (R191, R202, R210): the commands refused and executed. -/

namespace Sys2Proof.Machine

open Sys2Proof.Claims

/-! ### DETECT -/

theorem detectCmd_legal {p : Params} {s : State} (h : waveConfigLegal p s = true) :
    detectCmd p s = detectWindows p s := if_pos h

/-- The configuration is not legal where one of its two conditions fails (R243). -/
theorem waveConfigLegal_eq_false_iff (s : State) :
    waveConfigLegal Config.machine s = false ↔ s.cfgNsps.toNat < 3 ∨ ¬ AmplitudeLegal s := by
  rw [← Bool.not_eq_true, waveConfigLegal_iff, not_and_or, not_le]

/-- DETECT on finite values does what `detectCmd` says (R202). -/
theorem exec_detect {s : State} (hA : FiniteNum s.cfgAmp) (hsig : ∀ x ∈ s.sig, FiniteNum x) :
    exec .detect s = .next (detectCmd Config.machine s) :=
  exec_next_iff.2 ⟨List.forall_mem_cons.2 ⟨hA, hsig⟩, rfl⟩

/-- Step 1 written out by the index of the window: the symbols, DEGEN, and nothing else (R191, R202). -/
theorem detectWindows_eq_windowAt (p : Params) (s : State) :
    let est := fun j => estimate p s.cfgOrder s.cfgNsps.toNat s.cfgAmp (windowAt s j)
    let count := s.sig.length / s.cfgNsps.toNat
    detectWindows p s = { s with
      sym := (List.range count).map fun j => (est j).1
      status := s.status ||| if (List.range count).any fun j => (est j).2 then 8 else 0 } := by
  have each : windows s.cfgNsps.toNat s.sig = (List.range (s.sig.length / s.cfgNsps.toNat)).map (windowAt s) := rfl
  simp only [detectWindows, each, raiseIf_eq, List.map_map, List.any_map]
  rfl

/-- Settles O33: the two clauses are DETECT's two ways to end; each symbol is found by the index of its window. -/
theorem detectEstimatesEveryWindow : Obligations.DetectEstimatesEveryWindow := by
  refine ⟨zeroImmediateOnly (by decide) (by decide), fun s hA hsig => ?_⟩
  simp only [exec_detect hA hsig]
  refine ⟨fun illegal => ?refused, fun hN hAmp => ?executed⟩
  case refused =>
    exact congrArg _ (command_refused (.inr (.inl rfl)) ((waveConfigLegal_eq_false_iff s).2 illegal))
  case executed =>
    rw [detectCmd_legal ((waveConfigLegal_iff s).2 ⟨hN, hAmp⟩), detectWindows_eq_windowAt]
    refine ⟨_, rfl, by simp, fun j hj => ?_⟩
    rw [List.getElem?_map, List.getElem?_range hj, Option.map_some]

/-! ### DEMOD -/

@[simp] theorem detectWindows_cfgNs (p : Params) (s : State) : (detectWindows p s).cfgNs = s.cfgNs :=
  raiseIf_cfgNs ..

@[simp] theorem detectWindows_drawPos (p : Params) (s : State) : (detectWindows p s).drawPos = s.drawPos :=
  raiseIf_drawPos ..

/-- Step 1 does not change whether the noise configuration is legal. -/
@[simp] theorem noiseConfigLegal_detectWindows (p : Params) (s : State) :
    noiseConfigLegal p (detectWindows p s) = noiseConfigLegal p s := by
  rw [noiseConfigLegal, detectWindows_cfgNs, noiseConfigLegal]

/-- Step 1 writes `SYM` and `STATUS` only (R202). -/
theorem detectWindows_frame (p : Params) (s : State) :
    detectWindows p s = { s with sym := (detectWindows p s).sym, status := (detectWindows p s).status } := by
  obtain ⟨_, _, -, detected⟩ := detectWindows_eq p s
  rw [detected, raiseIf_eq]

/-- Steps 3 and 4 write `BITOUT` and `STATUS` only (R209). -/
theorem decideSymbols_frame (p : Params) (s : State) :
    decideSymbols p s = { s with bitout := (decideSymbols p s).bitout, status := (decideSymbols p s).status } := by
  obtain ⟨_, _, _, -, decided⟩ := decideSymbols_eq p s
  rw [decided, raiseIf_eq, raiseIf_eq]

/-- The steps of DEMOD write `SYM`, `BITOUT`, `STATUS` and the position of the stream only (R210). -/
theorem demodSteps_frame (p : Params) (s : State) :
    let c := decideSymbols p (symbolNoise p (detectWindows p s))
    c = { s with sym := c.sym, bitout := c.bitout, status := c.status, drawPos := c.drawPos } := by
  have detected := detectWindows_frame p s
  have decided := decideSymbols_frame p (symbolNoise p (detectWindows p s))
  generalize decideSymbols p (symbolNoise p (detectWindows p s)) = c at decided ⊢
  generalize detectWindows p s = a at decided detected
  rw [decided, symbolNoise_eq, detected]

/-- DECIDE on finite symbols does what `decideSymbols` says (R209). -/
theorem exec_decide {s : State} (hsym : ∀ z ∈ s.sym, FiniteSymbol z) :
    exec .decide s = .next (decideSymbols Config.machine s) :=
  exec_next_iff.2 ⟨finite_symbolParts hsym, rfl⟩

theorem demodCmd_refused {p : Params} {s : State} (h : ¬ (waveConfigLegal p s && noiseConfigLegal p s) = true) :
    demodCmd p s = refuse .cfgerr s := if_neg h

theorem demodCmd_legal {p : Params} {s : State} (hwave : waveConfigLegal p s = true)
    (hnoise : noiseConfigLegal p s = true) :
    demodCmd p s = decideSymbols p (symbolNoise p (detectWindows p s)) := if_pos (by rw [hwave, hnoise]; rfl)

/-- DEMOD does what `demodCmd` says where the strength and DETECT's values are finite, and, unless it is refused, those
of NOISES and of DECIDE on the states these two begin in (R210). -/
theorem exec_demod {s : State} (hns : FiniteNum s.cfgNs) (hdetect : FiniteOperands .detect s)
    (hsteps : (waveConfigLegal Config.machine s && noiseConfigLegal Config.machine s) = true →
      FiniteOperands .noises (detectWindows Config.machine s) ∧
      FiniteOperands .decide (symbolNoise Config.machine (detectWindows Config.machine s))) :
    exec .demod s = .next (demodCmd Config.machine s) := by
  refine exec_next_iff.2 ⟨fun x hx => ?_, rfl⟩
  rw [commandNums, demodNums, List.cons_append, List.mem_cons, List.mem_append, List.mem_filter, List.mem_append] at hx
  rcases hx with rfl | hx | ⟨hx, legal⟩
  · exact hns
  · exact hdetect x hx
  · obtain ⟨hnoises, hdecide⟩ := hsteps legal
    exact hx.elim (hnoises x) (hdecide x)

/-- Settles O45: a refused DEMOD looks at no draw; an executed one runs through the states of its three steps. -/
theorem demodIsItsThreeSteps : Obligations.DemodIsItsThreeSteps := by
  refine ⟨zeroImmediateOnly (by decide) (by decide), fun s hA hns hsig => ?_⟩
  have operands : FiniteOperands .detect s := List.forall_mem_cons.2 ⟨hA, hsig⟩
  refine ⟨fun illegal => ?refused, fun hN hAmp hNs hsym hdraws hnoisy => ?executed⟩
  case refused =>
    have refused : ¬ (waveConfigLegal Config.machine s && noiseConfigLegal Config.machine s) = true := by
      rw [Bool.and_eq_true, waveConfigLegal_iff, noiseConfigLegal_iff]
      rintro ⟨⟨hN, hAmp⟩, hNs⟩
      exact illegal.elim (Nat.not_lt.2 hN) (Or.elim · (· hAmp) (· hNs))
    rw [exec_demod hns operands fun legal => absurd legal refused, demodCmd_refused refused, refuse_cfgerr]
  case executed =>
    have hwave := (waveConfigLegal_iff s).2 ⟨hN, hAmp⟩
    have hnoise := (noiseConfigLegal_iff s).2 hNs
    have noises : noisesCmd Config.machine (detectWindows Config.machine s) =
        symbolNoise Config.machine (detectWindows Config.machine s) := noisesCmd_legal (by simpa using hnoise)
    rw [detectCmd_legal hwave] at hsym hdraws hnoisy
    rw [noises] at hnoisy
    have first : exec .detect s = .next (detectWindows Config.machine s) := by
      rw [exec_detect hA hsig, detectCmd_legal hwave]
    have second : exec .noises (detectWindows Config.machine s) =
        .next (symbolNoise Config.machine (detectWindows Config.machine s)) := by
      rw [exec_noises (by simpa using hns) hsym fun _ => by simpa using hdraws, noises]
    have third := exec_decide hnoisy
    have whole : exec .demod s =
        .next (decideSymbols Config.machine (symbolNoise Config.machine (detectWindows Config.machine s))) := by
      obtain ⟨finiteNoises, -⟩ := exec_next_iff.1 second
      obtain ⟨finiteDecide, -⟩ := exec_next_iff.1 third
      rw [exec_demod hns operands fun _ => ⟨finiteNoises, finiteDecide⟩, demodCmd_legal hwave hnoise]
    exact ⟨_, _, _, first, second, third, whole, demodSteps_frame Config.machine s⟩

end Sys2Proof.Machine
end

section
/-! The control commands (R230 to R232), and that no command but SRST clears a flag (R35). -/

namespace Sys2Proof.Machine

open Sys2Proof.Claims

/-! ### NOP and CLR -/

/-- NOP changes nothing (R230). -/
theorem exec_nop (s : State) : exec .nop s = .next s := exec_next_iff.2 ⟨nofun, rfl⟩

/-- CLR does what `clrCmd` says, on every state (R232). -/
theorem exec_clr (mask : BitVec 4) (s : State) : exec (.clr mask) s = .next (clrCmd mask s) :=
  exec_next_iff.2 ⟨nofun, rfl⟩

/-- Settles O11: the word by its fields, the immediate by the decoder's check. -/
theorem nopChangesNothing : Obligations.NopChangesNothing :=
  ⟨zeroImmediateOnly (by decide) (by decide), (decode_ok_iff _ _).2 (by decide), exec_nop⟩

/-- Settles O14: the state is the one `clrCmd` is written with, the reserved bits are the decoder's check. -/
theorem clrEmptiesTheSelectedBuffers : Obligations.ClrEmptiesTheSelectedBuffers :=
  ⟨reservedImmediateRefused 0x02, exec_clr⟩

/-! ### A flag that is set stays set -/

section
variable {s : State} {f : Flag}

theorem hasFlag_refuse_of_hasFlag {g : Flag} (h : s.hasFlag f = true) : (refuse g s).hasFlag f = true := by
  rw [hasFlag_refuse, h, Bool.true_or]

theorem hasFlag_raiseIf_of_hasFlag {c : Bool} {g : Flag} (h : s.hasFlag f = true) :
    (raiseIf c g s).hasFlag f = true := by
  rw [hasFlag_raiseIf, h, Bool.true_or]

/-- The detector only adds a flag (R202). -/
theorem hasFlag_detectWindows_of_hasFlag (h : s.hasFlag f = true) (p : Params) :
    (detectWindows p s).hasFlag f = true := by
  obtain ⟨_, _, -, detected⟩ := detectWindows_eq p s
  rw [detected]
  exact hasFlag_raiseIf_of_hasFlag h

/-- The decoder only adds flags (R209). -/
theorem hasFlag_decideSymbols_of_hasFlag (h : s.hasFlag f = true) (p : Params) :
    (decideSymbols p s).hasFlag f = true := by
  obtain ⟨_, _, _, -, decided⟩ := decideSymbols_eq p s
  rw [decided]
  exact hasFlag_raiseIf_of_hasFlag (hasFlag_raiseIf_of_hasFlag h)

/-- A command behind a check keeps a flag if its executed branch does: where it is refused it only adds one (R250). -/
theorem hasFlag_checked_of_hasFlag {c : Prop} [Decidable c] {g : Flag} {t : State} (h : s.hasFlag f = true)
    (executed : t.hasFlag f = true) : (if c then t else refuse g s).hasFlag f = true := by
  split
  · exact executed
  · exact hasFlag_refuse_of_hasFlag h

/-- Flags are sticky (R35): a command that is refused adds a flag, an executed one other than SRST writes `STATUS` only
by adding flags. -/
theorem hasFlag_command_of_hasFlag (h : s.hasFlag f = true) (p : Params) {i : Instr} (hi : i ≠ .srst) :
    (command p i s).hasFlag f = true := by
  cases i with
  | nop => exact h
  | srst => exact absurd rfl hi
  | clr mask => exact h
  | enc g => exact hasFlag_checked_of_hasFlag h h
  | dec => exact h
  | decxy => exact hasFlag_raiseIf_of_hasFlag h
  | mod =>
    rw [command]
    obtain ⟨-, refused⟩ | ⟨-, -, refused⟩ | ⟨-, -, executed⟩ := modCmd_cases p s
    · rw [refused]
      exact hasFlag_refuse_of_hasFlag h
    · rw [refused]
      exact hasFlag_refuse_of_hasFlag h
    · rw [executed]
      exact h
  | noisew => exact hasFlag_checked_of_hasFlag h h
  | noises => exact hasFlag_checked_of_hasFlag h h
  | detect => exact hasFlag_checked_of_hasFlag h (hasFlag_detectWindows_of_hasFlag h p)
  | decide => exact hasFlag_decideSymbols_of_hasFlag h p
  | demod =>
    have noisy : (symbolNoise p (detectWindows p s)).hasFlag f = true := hasFlag_detectWindows_of_hasFlag h p
    exact hasFlag_checked_of_hasFlag h (hasFlag_decideSymbols_of_hasFlag noisy p)

/-- No command but SRST clears a flag (R35, R231). -/
theorem hasFlag_of_exec {i : Instr} {t : State} (hi : i ≠ .srst) (ht : exec i s = .next t)
    (h : s.hasFlag f = true) : t.hasFlag f = true := by
  obtain ⟨-, rfl⟩ := exec_next_iff.1 ht
  exact hasFlag_command_of_hasFlag h Config.machine hi

end

/-! ### SRST -/

/-- SRST resets the block and leaves what lies outside it (R231). -/
theorem exec_srst (s : State) : exec .srst s = .next (resetBlock s) := exec_next_iff.2 ⟨nofun, rfl⟩

/-- The hardware reset does the same (R270). -/
theorem step_reset (s : State) : step (acting .reset s) = .next (resetBlock s) := step_acting .reset s

/-- Settles O12: SRST and the hardware reset are both `resetBlock`, whose values are those `State.reset` is written
with; every other command keeps the flags that are set. -/
theorem srstRestoresTheResetState : Obligations.SrstRestoresTheResetState := by
  refine ⟨zeroImmediateOnly (by decide) (by decide), (decode_ok_iff _ _).2 (by decide), fun s =>
    ⟨?reset, ?hardware, ?sticky⟩⟩
  case reset => exact exec_srst s
  case hardware => rw [step_reset, exec_srst]
  case sticky => exact fun _ _ _ => hasFlag_of_exec

end Sys2Proof.Machine
end

section
/-! CFGERR (R243): refused exactly where a configuration value the command needs is not legal, and not raised by
writing one. -/

namespace Sys2Proof.Machine

open Sys2Proof.Claims

/-! ### Legal values in R243's own comparisons -/

/-- `A ≤ 0` is "not `A > 0`" on a finite amplitude. -/
theorem atMost_zero_iff_not_amplitudeLegal {s : State} (hA : FiniteNum s.cfgAmp) :
    Config.num.atMost s.cfgAmp .zero = true ↔ ¬ AmplitudeLegal s := by
  rw [Numeric.atMost_eq hA (Numeric.isFinite_zero _), Bool.not_eq_true', AmplitudeLegal, Bool.not_eq_true]

/-- `NS < 0` is "not `NS ≥ 0`" on a finite strength. -/
theorem less_zero_iff_not_strengthLegal {s : State} (hns : FiniteNum s.cfgNs) :
    Config.num.less s.cfgNs .zero = true ↔ ¬ StrengthLegal s := by
  rw [StrengthLegal, Numeric.atMost_eq (Numeric.isFinite_zero _) hns, Bool.not_eq_true', Bool.not_eq_false]

section
variable {i : Instr} {s : State}

/-- The amplitude is an operand of MOD, DETECT and DEMOD. -/
theorem finiteNum_cfgAmp (h : FiniteOperands i s) (hi : i = .mod ∨ i = .detect ∨ i = .demod) :
    FiniteNum s.cfgAmp := by
  rcases hi with rfl | rfl | rfl <;> exact h _ (by simp [commandNums, modNums, detectNums, demodNums])

/-- The strength is an operand of DEMOD, NOISEW and NOISES. -/
theorem finiteNum_cfgNs (h : FiniteOperands i s) (hi : i = .demod ∨ i = .noisew ∨ i = .noises) :
    FiniteNum s.cfgNs := by
  rcases hi with rfl | rfl | rfl <;> exact h _ (by simp [commandNums, demodNums, noisewNums, noisesNums])

/-- The waveform configuration is not legal exactly where `N < 3` or `A ≤ 0` (R243). -/
theorem waveConfigLegal_eq_false_iff_of_finite (hA : FiniteNum s.cfgAmp) :
    waveConfigLegal Config.machine s = false ↔
      s.cfgNsps.toNat < 3 ∨ Config.num.atMost s.cfgAmp .zero = true := by
  rw [waveConfigLegal_eq_false_iff, atMost_zero_iff_not_amplitudeLegal hA]

/-- The noise configuration is not legal exactly where `NS < 0` (R243). -/
theorem noiseConfigLegal_eq_false_iff_of_finite (hns : FiniteNum s.cfgNs) :
    noiseConfigLegal Config.machine s = false ↔ Config.num.less s.cfgNs .zero = true := by
  rw [less_zero_iff_not_strengthLegal hns, ← noiseConfigLegal_iff, Bool.not_eq_true]

end

/-! ### The refused commands -/

/-- The three commands on the noise strength are refused where it is not legal (R243). -/
theorem command_refused_noise {p : Params} {i : Instr} {s : State} (hi : i = .demod ∨ i = .noisew ∨ i = .noises)
    (h : noiseConfigLegal p s = false) : command p i s = refuse .cfgerr s := by
  rcases hi with rfl | rfl | rfl
  · exact demodCmd_refused (by simp [h])
  · exact noisewCmd_refused (by simp [h])
  · exact noisesCmd_refused (by simp [h])

/-! ### Nothing else raises CFGERR -/

section
variable {f : Flag}

theorem hasFlag_raiseIf_of_ne {c : Bool} {g : Flag} (h : g ≠ f) (s : State) :
    (raiseIf c g s).hasFlag f = s.hasFlag f := by
  rw [hasFlag_raiseIf, decide_eq_false h, Bool.and_false, Bool.or_false]

theorem hasFlag_refuse_of_ne {g : Flag} (h : g ≠ f) (s : State) : (refuse g s).hasFlag f = s.hasFlag f := by
  rw [hasFlag_refuse, decide_eq_false h, Bool.or_false]

/-- After a reset every flag is clear (R35, R45). -/
theorem hasFlag_resetBlock (f : Flag) (s : State) : (resetBlock s).hasFlag f = false := BitVec.getLsbD_zero

/-- The detector raises no flag but DEGEN (R202). -/
theorem hasFlag_detectWindows_of_ne (h : .degen ≠ f) (p : Params) (s : State) :
    (detectWindows p s).hasFlag f = s.hasFlag f := by
  obtain ⟨_, _, -, detected⟩ := detectWindows_eq p s
  rw [detected]
  exact hasFlag_raiseIf_of_ne h _

/-- The decoder raises no flag but ZEROPT and PADERR (R209). -/
theorem hasFlag_decideSymbols_of_ne (hz : .zeropt ≠ f) (hp : .paderr ≠ f) (p : Params) (s : State) :
    (decideSymbols p s).hasFlag f = s.hasFlag f := by
  obtain ⟨_, _, _, -, decided⟩ := decideSymbols_eq p s
  rw [decided, hasFlag_raiseIf_of_ne hp]
  exact hasFlag_raiseIf_of_ne hz _

end

/-- A command other than SRST leaves CFGERR as it is where the configuration values it needs are legal (R243). -/
theorem hasFlag_cfgerr_command {p : Params} {i : Instr} {s : State} (hi : i ≠ .srst)
    (hwave : i = .mod ∨ i = .detect ∨ i = .demod → waveConfigLegal p s = true)
    (hnoise : i = .demod ∨ i = .noisew ∨ i = .noises → noiseConfigLegal p s = true) :
    (command p i s).hasFlag .cfgerr = s.hasFlag .cfgerr := by
  cases i with
  | nop => rfl
  | srst => exact absurd rfl hi
  | clr mask => rfl
  | enc g =>
    rw [command, encCmd]
    split
    · rfl
    · exact hasFlag_refuse_of_ne (by decide) s
  | dec => rfl
  | decxy => exact hasFlag_raiseIf_of_ne (by decide) _
  | mod =>
    rw [command]
    obtain ⟨illegal, -⟩ | ⟨-, -, overflow⟩ | ⟨-, -, executed⟩ := modCmd_cases p s
    · simp [hwave (.inl rfl)] at illegal
    · rw [overflow]
      exact hasFlag_refuse_of_ne (by decide) s
    · rw [executed]
      rfl
  | noisew =>
    rw [command, noisewCmd_legal (hnoise (.inr (.inl rfl)))]
    rfl
  | noises =>
    rw [command, noisesCmd_legal (hnoise (.inr (.inr rfl)))]
    rfl
  | detect =>
    rw [command, detectCmd_legal (hwave (.inr (.inl rfl)))]
    exact hasFlag_detectWindows_of_ne (by decide) p s
  | decide => exact hasFlag_decideSymbols_of_ne (by decide) (by decide) p s
  | demod =>
    rw [command, demodCmd_legal (hwave (.inr (.inr rfl))) (hnoise (.inl rfl))]
    exact (hasFlag_decideSymbols_of_ne (by decide) (by decide) p _).trans (hasFlag_detectWindows_of_ne (by decide) p s)

/-- A command that sets a clear CFGERR needs a configuration value that is not legal (R243). -/
theorem illegal_of_command_raises_cfgerr {p : Params} {i : Instr} {s : State} (hs : s.hasFlag .cfgerr = false)
    (ht : (command p i s).hasFlag .cfgerr = true) :
    ((i = .mod ∨ i = .detect ∨ i = .demod) ∧ waveConfigLegal p s = false) ∨
    ((i = .demod ∨ i = .noisew ∨ i = .noises) ∧ noiseConfigLegal p s = false) := by
  by_contra legal
  simp only [not_or, not_and, Bool.not_eq_false] at legal
  obtain ⟨hwave, hnoise⟩ := legal
  have hi : i ≠ .srst := by
    rintro rfl
    rw [command, srstCmd, hasFlag_resetBlock] at ht
    cases ht
  rw [hasFlag_cfgerr_command hi (by simpa using hwave) (by simpa using hnoise), hs] at ht
  cases ht

/-! ### Writing a configuration register -/

/-- The configuration registers of R62, in the order of their addresses. -/
def Reg.configuration : List Reg := [.cfgOrder, .cfgNsps, .cfgAmp, .cfgPeriod, .cfgNs, .sigPad]

/-- The addresses 0x02 to 0x07 are those of the configuration registers (R62). -/
theorem exists_configuration {addr : BitVec 6} (lo : 0x02 ≤ addr) (hi : addr ≤ 0x07) :
    ∃ r ∈ Reg.configuration, addr = r.addr := by
  revert addr
  decide

/-- A write to a register other than `CMD`, where it completes, does what `writeReg` says (R64). -/
theorem eq_writeReg_of_step {r : Reg} (hr : r ≠ .cmd) {v : PortVal} {s t : State}
    (h : step (acting (.write r.addr v) s) = .next t) : t = writeReg Config.machine v s r := by
  rw [step_cons rfl, actionState_write (regAt_addr r) hr] at h
  exact (guardFinite_next_iff.1 h).2.symm

/-- Writing a configuration register raises nothing (R243). -/
theorem writeReg_configuration_status {r : Reg} (h : r ∈ Reg.configuration) (p : Params) (v : PortVal) (s : State) :
    (writeReg p v s r).status = s.status := by
  fin_cases h <;> rfl

/-- Settles O50: a command with an illegal value is refused, one with legal values leaves CFGERR, and `N < 3`, `A ≤ 0`
and `NS < 0` are the illegal values on finite operands. -/
theorem illegalConfigurationIsRefusedWithCfgerr : Obligations.IllegalConfigurationIsRefusedWithCfgerr := by
  refine ⟨fun i s finite hi illegal => ?wave, fun i s finite hi illegal => ?noise, fun i s t ht clear set => ?only,
    fun addr v s t lo hi ht => ?write⟩
  case wave =>
    exact exec_next_iff.2 ⟨finite,
      command_refused hi ((waveConfigLegal_eq_false_iff_of_finite (finiteNum_cfgAmp finite hi)).2 illegal)⟩
  case noise =>
    exact exec_next_iff.2 ⟨finite,
      command_refused_noise hi ((noiseConfigLegal_eq_false_iff_of_finite (finiteNum_cfgNs finite hi)).2 illegal)⟩
  case only =>
    obtain ⟨finite, rfl⟩ := exec_next_iff.1 ht
    obtain ⟨hi, illegal⟩ | ⟨hi, illegal⟩ := illegal_of_command_raises_cfgerr clear set
    · exact .inl ⟨hi, (waveConfigLegal_eq_false_iff_of_finite (finiteNum_cfgAmp finite hi)).1 illegal⟩
    · exact .inr ⟨hi, (noiseConfigLegal_eq_false_iff_of_finite (finiteNum_cfgNs finite hi)).1 illegal⟩
  case write =>
    obtain ⟨r, hr, rfl⟩ := exists_configuration lo hi
    have hcmd : r ≠ .cmd := by
      rintro rfl
      exact absurd hr (by decide)
    rw [eq_writeReg_of_step hcmd ht]
    exact writeReg_configuration_status hr Config.machine v s

end Sys2Proof.Machine
end

section
/-! The two resets (R270): the reset input and SRST. -/

namespace Sys2Proof.Machine

open Sys2Proof.Claims

/-- A reset leaves the block in its reset state and keeps the draws taken, the host's further actions and the value it
last read, which lie outside it (R270). -/
theorem resetBlock_eq (s : State) :
    resetBlock s = { State.reset with drawPos := s.drawPos, pending := s.pending, readData := s.readData } := rfl

/-- Settles O13: the reset pulse and SRST are both `resetBlock`. -/
theorem hardwareResetEqualsSrst : Obligations.HardwareResetEqualsSrst := by
  refine fun s => ⟨?srst, ?values⟩
  case srst => rw [step_reset, exec_srst]
  case values => rw [step_reset, resetBlock_eq]

end Sys2Proof.Machine
end

section
/-! Decoder and encoder agree (R90 to R93), a word placed for the next command, and the reserved addresses (R63). -/

namespace Sys2Proof

/-- The encoder writes the row of R93, whatever the command. -/
theorem encodedRow (i : Instr) : Laws.EncodedRow.Statement i := by
  cases i with
  | nop => exact Laws.EncodedRow.nop
  | srst => exact Laws.EncodedRow.srst
  | clr mask => exact Laws.EncodedRow.clr mask
  | enc g => exact Laws.EncodedRow.enc g
  | dec => exact Laws.EncodedRow.dec
  | decxy => exact Laws.EncodedRow.decxy
  | mod => exact Laws.EncodedRow.mod
  | noisew => exact Laws.EncodedRow.noisew
  | noises => exact Laws.EncodedRow.noises
  | detect => exact Laws.EncodedRow.detect
  | decide => exact Laws.EncodedRow.decide
  | demod => exact Laws.EncodedRow.demod

/-- Settles O5: a word decodes by its three fields, the encoder's word has the command's, and words with equal fields
are equal. -/
theorem decodeAndEncodeAgree : Obligations.DecodeAndEncodeAgree := fun w i => by
  obtain ⟨hopc, hoperand, hreserved⟩ := encodedRow i
  rw [decode_ok_iff, word_eq_iff, hopc, hoperand, hreserved]

/-- Settles O10: each word is the one the encoder writes. -/
theorem sampleWordsDecode : Obligations.SampleWordsDecode := by
  have encoded {w : Word} {i : Instr} (h : w = encode i) : decode w = .ok i := (decodeAndEncodeAgree w i).2 h
  exact ⟨encoded (by decide), encoded (by decide), encoded (by decide), encoded (by decide), encoded (by decide),
    encoded (by decide)⟩

/-- What the table's decoder reads is what the block's decoder reads from the 32-bit word (R92). -/
theorem decode_of_decodeTableWord {nbits w : Nat} {i : Instr} (h : decodeTableWord nbits w = some i) :
    decode (BitVec.ofNat 32 (w % 2 ^ nbits)) = .ok i := by
  unfold decodeTableWord at h
  split at h
  · next hd => rw [hd, Option.some.inj h]
  · cases h

end Sys2Proof

namespace Sys2Proof.Machine

open Sys2Proof.Claims

/-- Settles O9: the word placed is the host's next write to `CMD`. -/
theorem fetchWordRunsAsTheNextCommand : Obligations.FetchWordRunsAsTheNextCommand := fun s _ _ _ h =>
  step_issuing_ok (decode_of_decodeTableWord h) s

/-- The hole of the register map and the addresses after its last row select no register (R63). -/
theorem regAt_reserved {addr : BitVec 6} (h : addr = 0x0F ∨ 0x1D ≤ addr) : regAt addr = none := by
  revert addr
  decide

/-- Settles O54: an address that selects no register stores nothing and reads as 0. -/
theorem reservedAddressesAreInert : Obligations.ReservedAddressesAreInert := by
  intro addr v s h
  have reserved := regAt_reserved h
  refine ⟨?write, ?read⟩
  case write => rw [step_acting, hostAction, hostWrite, reserved]
  case read =>
    have noNum : readNums addr s = [] := by simp [readNums, reserved]
    rw [step_readAddr (by simp [noNum]), readAddr, reserved]

end Sys2Proof.Machine
end

section
/-! The frame of every command (R22, column "written by"), and the invariants of R46 along every step. -/

namespace Sys2Proof.Machine

open Sys2Proof.Claims

/-! ### What each command can write -/

theorem encCmd_frame (p : Params) (g : BitVec 4) (s : State) : ∃ k v phase flags,
    encCmd p g s = { s with resK := k, resG := v, resPhase := phase, status := flags } := by
  unfold encCmd
  split
  · exact ⟨_, _, _, _, rfl⟩
  · exact ⟨_, _, _, _, rfl⟩

theorem decCmd_frame (p : Params) (s : State) : ∃ k v phase,
    decCmd p s = { s with resK := k, resG := v, resPhase := phase } := ⟨_, _, _, rfl⟩

theorem decxyCmd_frame (p : Params) (s : State) : ∃ k v phase flags,
    decxyCmd p s = { s with resK := k, resG := v, resPhase := phase, status := flags } :=
  ⟨_, _, _, _, raiseIf_eq ..⟩

theorem modCmd_frame (p : Params) (s : State) : ∃ sig pad bits flags,
    modCmd p s = { s with sig := sig, sigPad := pad, bitin := bits, status := flags } := by
  obtain ⟨-, refused⟩ | ⟨-, -, refused⟩ | ⟨-, -, executed⟩ := modCmd_cases p s
  · exact ⟨_, _, _, _, refused⟩
  · exact ⟨_, _, _, _, refused⟩
  · exact ⟨_, _, _, _, executed⟩

theorem noisewCmd_frame (p : Params) (s : State) : ∃ sig flags n,
    noisewCmd p s = { s with sig := sig, status := flags, drawPos := n } := by
  unfold noisewCmd
  split
  · exact ⟨_, _, _, waveformNoise_eq p s⟩
  · exact ⟨_, _, _, rfl⟩

theorem noisesCmd_frame (p : Params) (s : State) : ∃ sym flags n,
    noisesCmd p s = { s with sym := sym, status := flags, drawPos := n } := by
  unfold noisesCmd
  split
  · exact ⟨_, _, _, symbolNoise_eq p s⟩
  · exact ⟨_, _, _, rfl⟩

theorem detectCmd_frame (p : Params) (s : State) : ∃ sym flags,
    detectCmd p s = { s with sym := sym, status := flags } := by
  unfold detectCmd
  split
  · exact ⟨_, _, detectWindows_frame p s⟩
  · exact ⟨_, _, rfl⟩

theorem decideCmd_frame (p : Params) (s : State) : ∃ bits flags,
    decideCmd p s = { s with bitout := bits, status := flags } := ⟨_, _, decideSymbols_frame p s⟩

theorem demodCmd_frame (p : Params) (s : State) : ∃ sym bits flags n,
    demodCmd p s = { s with sym := sym, bitout := bits, status := flags, drawPos := n } := by
  unfold demodCmd
  split
  · exact ⟨_, _, _, _, demodSteps_frame p s⟩
  · exact ⟨_, _, _, _, rfl⟩

/-- Settles O51: every command's frame names the registers it writes; it leaves the others. -/
theorem commandsWriteOnlyTheirOwnRegisters : Obligations.CommandsWriteOnlyTheirOwnRegisters := by
  intro i s t ht hi
  obtain ⟨-, rfl⟩ := exec_next_iff.1 ht
  generalize Config.machine = p
  cases i with
  | nop => simp [command, nopCmd]
  | srst => exact absurd rfl hi
  | clr mask => simp [command]
  | enc g =>
    obtain ⟨_, _, _, _, frame⟩ := encCmd_frame p g s
    simp [command, frame]
  | dec =>
    obtain ⟨_, _, _, frame⟩ := decCmd_frame p s
    simp [command, frame]
  | decxy =>
    obtain ⟨_, _, _, _, frame⟩ := decxyCmd_frame p s
    simp [command, frame]
  | mod =>
    obtain ⟨_, _, _, _, frame⟩ := modCmd_frame p s
    simp [command, frame]
  | noisew =>
    obtain ⟨_, _, _, frame⟩ := noisewCmd_frame p s
    simp [command, frame]
  | noises =>
    obtain ⟨_, _, _, frame⟩ := noisesCmd_frame p s
    simp [command, frame]
  | detect =>
    obtain ⟨_, _, frame⟩ := detectCmd_frame p s
    simp [command, frame]
  | decide =>
    obtain ⟨_, _, frame⟩ := decideCmd_frame p s
    simp [command, frame]
  | demod =>
    obtain ⟨_, _, _, _, frame⟩ := demodCmd_frame p s
    simp [command, frame]

/-! ### What each push can write -/

theorem pushBit_frame (p : Params) (v : Word) (s : State) : ∃ bits flags,
    pushBit p v s = { s with bitin := bits, status := flags } := by
  obtain ⟨-, pushed⟩ | ⟨-, pushed⟩ := pushBit_cases p v s
  · exact ⟨_, _, pushed⟩
  · exact ⟨_, _, pushed⟩

theorem pushSample_frame (p : Params) (x : NumVal) (s : State) : ∃ sig flags,
    pushSample p x s = { s with sig := sig, status := flags } := by
  obtain ⟨-, pushed⟩ | ⟨-, pushed⟩ := pushSample_cases p x s
  · exact ⟨_, _, pushed⟩
  · exact ⟨_, _, pushed⟩

theorem pushSymbol_frame (p : Params) (y : NumVal) (s : State) : ∃ sym flags,
    pushSymbol p y s = { s with sym := sym, status := flags } := by
  obtain ⟨-, pushed⟩ | ⟨-, pushed⟩ := pushSymbol_cases p y s
  · exact ⟨_, _, pushed⟩
  · exact ⟨_, _, pushed⟩

/-! ### Invariants of the step -/

/-- A property of states is kept by every step if it does not depend on the host's actions and on what the host read,
and every command, a refused word, every register write and the reset keep it; a command and a write may count on their
Nums being finite. -/
theorem kept_by_step {P : State → Prop}
    (host : ∀ s pending data, P s → P { s with pending := pending, readData := data })
    (commands : ∀ i s, FiniteOperands i s → P s → P (command Config.machine i s))
    (refused : ∀ s, P s → P (refuse .cmderr s))
    (writes : ∀ r v s, (∀ x ∈ writtenNums v s r, FiniteNum x) → P s → P (writeReg Config.machine v s r))
    (reset : ∀ s, P s → P (resetBlock s)) {s t : State} (hs : P s) (ht : step s = .next t) : P t := by
  obtain ⟨-, rfl⟩ | ⟨x, rest, -, rfl, finite⟩ := step_cases ht
  · exact hs
  have next : P { s with pending := rest } := host s rest s.readData hs
  generalize { s with pending := rest } = u at finite next ⊢
  cases x with
  | read addr => exact host u u.pending _ next
  | reset => exact reset u next
  | write addr v =>
    cases hr : regAt addr with
    | none => simpa only [actionState, hr] using next
    | some r =>
      by_cases hcmd : r = .cmd
      · subst hcmd
        simp only [actionState, actionNums, hr] at finite ⊢
        split at finite
        · next hd => simpa only [hd] using commands _ u finite next
        · next hd => simpa only [hd] using refused u next
      · rw [actionNums_write hr hcmd] at finite
        rw [actionState_write hr hcmd]
        exact writes r v u finite next

/-! ### The buffers -/

/-- The buffers are within their capacities (R9, R46). -/
def BuffersFit (p : Params) (s : State) : Prop :=
  s.bitin.length ≤ p.caps.bitCap ∧ s.sig.length ≤ p.caps.sigCap ∧ s.sym.length ≤ p.caps.symCap ∧
    s.bitout.length ≤ p.caps.bitoutCap

/-- The other invariants of R46 are facts of the types. -/
theorem invariant_iff_buffersFit {p : Params} {s : State} : Invariant p s ↔ BuffersFit p s :=
  ⟨fun h => ⟨h.bitin_fits, h.sig_fits, h.sym_fits, h.bitout_fits⟩,
    fun ⟨hbitin, hsig, hsym, hbitout⟩ => ⟨hbitin, hsig, hsym, hbitout, fun b _ => by cases b <;> simp,
      s.resK.isLt, s.resG.isLt, s.sigPad.isLt, s.cfgOrder.isLt⟩⟩

section
variable {p : Params} {s : State}

theorem BuffersFit.resetBlock (p : Params) (s : State) : BuffersFit p (resetBlock s) :=
  ⟨Nat.zero_le _, Nat.zero_le _, Nat.zero_le _, Nat.zero_le _⟩

theorem BuffersFit.clrCmd (h : BuffersFit p s) (mask : BitVec 4) : BuffersFit p (clrCmd mask s) := by
  have emptied {α : Type} {c : Bool} {buffer : List α} {cap : Nat} (fits : buffer.length ≤ cap) :
      (if c then [] else buffer).length ≤ cap := by
    split
    · exact Nat.zero_le _
    · exact fits
  obtain ⟨hbitin, hsig, hsym, hbitout⟩ := h
  exact ⟨emptied hbitin, emptied hsig, emptied hsym, emptied hbitout⟩

/-- A command behind a check keeps the capacities if its executed branch does. -/
theorem BuffersFit.checked {c : Prop} [Decidable c] {t : State} (h : BuffersFit p s) (executed : c → BuffersFit p t)
    (f : Flag) : BuffersFit p (if c then t else refuse f s) := by
  split
  · next hc => exact executed hc
  · exact h

/-- MOD checks the capacity of `SIG` and empties `BITIN` (R158). -/
theorem BuffersFit.modCmd (h : BuffersFit p s) : BuffersFit p (modCmd p s) := by
  obtain ⟨-, refused⟩ | ⟨-, -, refused⟩ | ⟨-, fits, executed⟩ := modCmd_cases p s
  · rw [refused]
    exact h
  · rw [refused]
    exact h
  · obtain ⟨-, -, hsym, hbitout⟩ := h
    rw [executed]
    exact ⟨Nat.zero_le _, by simpa using fits, hsym, hbitout⟩

theorem BuffersFit.waveformNoise (h : BuffersFit p s) : BuffersFit p (waveformNoise p s) := by
  obtain ⟨hbitin, hsig, hsym, hbitout⟩ := h
  exact ⟨hbitin, (addWaveformNoise_length ..).trans_le hsig, hsym, hbitout⟩

theorem BuffersFit.symbolNoise (h : BuffersFit p s) : BuffersFit p (symbolNoise p s) := by
  obtain ⟨hbitin, hsig, hsym, hbitout⟩ := h
  exact ⟨hbitin, hsig, (addSymbolNoise_length ..).trans_le hsym, hbitout⟩

/-- The windows of a full `SIG` fit `SYM`, since `N ≥ 3` (R9, R202). -/
theorem BuffersFit.detectWindows (h : BuffersFit p s) (legal : waveConfigLegal p s = true) :
    BuffersFit p (detectWindows p s) := by
  obtain ⟨hbitin, hsig, -, hbitout⟩ := h
  obtain ⟨sym, c, hlen, detected⟩ := detectWindows_eq p s
  rw [detected, raiseIf_eq]
  exact ⟨hbitin, hsig, hlen.trans_le (windows_fit p (three_le_of_waveConfigLegal legal) hsig), hbitout⟩

/-- The bits of a full `SYM`, at most four a symbol, fit `BITOUT` (R9, R209). -/
theorem BuffersFit.decideSymbols (h : BuffersFit p s) : BuffersFit p (decideSymbols p s) := by
  obtain ⟨hbitin, hsig, hsym, -⟩ := h
  obtain ⟨bits, c, d, hlen, decided⟩ := decideSymbols_eq p s
  have width_le : width s.cfgOrder ≤ 4 := s.cfgOrder.isLt
  have recovered_le : width s.cfgOrder * s.sym.length ≤ 4 * p.caps.symCap := Nat.mul_le_mul width_le hsym
  rw [decided, raiseIf_eq, raiseIf_eq]
  refine ⟨hbitin, hsig, hsym, ?_⟩
  calc bits.length ≤ width s.cfgOrder * s.sym.length := hlen.trans_le (Nat.sub_le _ _)
    _ ≤ 4 * p.caps.symCap := recovered_le
    _ ≤ p.caps.bitoutCap := p.caps.bitout_fits

/-- Every command keeps the buffers within their capacities (R46). -/
theorem BuffersFit.command (h : BuffersFit p s) (i : Instr) : BuffersFit p (command p i s) := by
  cases i with
  | nop => exact h
  | srst => exact .resetBlock p s
  | clr mask => exact h.clrCmd mask
  | enc g =>
    obtain ⟨_, _, _, _, frame⟩ := encCmd_frame p g s
    rw [Machine.command, frame]
    exact h
  | dec => exact h
  | decxy =>
    rw [Machine.command, decxyCmd, raiseIf_eq]
    exact h
  | mod => exact h.modCmd
  | noisew => exact h.checked (fun _ => h.waveformNoise) .cfgerr
  | noises => exact h.checked (fun _ => h.symbolNoise) .cfgerr
  | detect => exact h.checked h.detectWindows .cfgerr
  | decide => exact h.decideSymbols
  | demod =>
    refine h.checked (fun legal => ?_) .cfgerr
    obtain ⟨hwave, -⟩ := Bool.and_eq_true_iff.1 legal
    exact (h.detectWindows hwave).symbolNoise.decideSymbols

/-- A push appends only to a buffer that is not full, every other write leaves the buffers (R69). -/
theorem BuffersFit.writeReg (h : BuffersFit p s) (v : PortVal) (r : Reg) : BuffersFit p (writeReg p v s r) := by
  have ⟨hbitin, hsig, hsym, hbitout⟩ := h
  have appended {α : Type} {buffer : List α} {x : α} {cap : Nat} (fits : buffer.length ≤ cap)
      (room : buffer.length ≠ cap) : (buffer ++ [x]).length ≤ cap := by
    rw [List.length_append, List.length_singleton]
    omega
  cases r with
  | bitinPush =>
    obtain ⟨-, full⟩ | ⟨room, pushed⟩ := pushBit_cases p (v.asWord p) s
    · rw [Machine.writeReg, full]
      exact h
    · rw [Machine.writeReg, pushed]
      exact ⟨appended hbitin room, hsig, hsym, hbitout⟩
  | sigPush =>
    obtain ⟨-, full⟩ | ⟨room, pushed⟩ := pushSample_cases p v.asNum s
    · rw [Machine.writeReg, full]
      exact h
    · rw [Machine.writeReg, pushed]
      exact ⟨hbitin, appended hsig room, hsym, hbitout⟩
  | symImPush =>
    obtain ⟨-, full⟩ | ⟨room, pushed⟩ := pushSymbol_cases p v.asNum s
    · rw [Machine.writeReg, full]
      exact h
    · rw [Machine.writeReg, pushed]
      exact ⟨hbitin, hsig, appended hsym room, hbitout⟩
  | _ => exact h

end

/-! ### The Num registers of the host -/

/-- After a reset the registers hold the Num 0, which is finite (R45; log entry 11). -/
theorem hostNumsFinite_resetBlock (s : State) : HostNumsFinite (resetBlock s) := by
  have zero : FiniteNum .zero := Config.num.isFinite_zero
  exact ⟨zero, zero, zero, zero, zero, zero, zero⟩

/-- A command other than SRST leaves the registers, SRST resets them. -/
theorem hostNumsFinite_command {i : Instr} {s : State} (operands : FiniteOperands i s) (h : HostNumsFinite s) :
    HostNumsFinite (command Config.machine i s) := by
  by_cases hi : i = .srst
  · subst hi
    exact hostNumsFinite_resetBlock s
  · obtain ⟨⟨-, -, hAmp, hPeriod, hNs, -, hPhase, hX, hY, hLatch, -, -⟩, -⟩ :=
      commandsWriteOnlyTheirOwnRegisters i s _ (exec_next_iff.2 ⟨operands, rfl⟩) hi
    rwa [HostNumsFinite, hAmp, hPeriod, hNs, hPhase, hX, hY, hLatch]

/-- A write stores a Num in one of the registers only if the Num is finite (U5). -/
theorem hostNumsFinite_writeReg {r : Reg} {v : PortVal} {s : State} (finite : ∀ x ∈ writtenNums v s r, FiniteNum x)
    (h : HostNumsFinite s) : HostNumsFinite (writeReg Config.machine v s r) := by
  have ⟨hAmp, hPeriod, hNs, hPhase, hX, hY, hLatch⟩ := h
  have stored (only : writtenNums v s r = [v.asNum]) : FiniteNum v.asNum := finite _ (by simp [only])
  cases r with
  | cfgAmp => exact ⟨stored rfl, hPeriod, hNs, hPhase, hX, hY, hLatch⟩
  | cfgPeriod => exact ⟨hAmp, stored rfl, hNs, hPhase, hX, hY, hLatch⟩
  | cfgNs => exact ⟨hAmp, hPeriod, stored rfl, hPhase, hX, hY, hLatch⟩
  | phaseIn => exact ⟨hAmp, hPeriod, hNs, stored rfl, hX, hY, hLatch⟩
  | xIn => exact ⟨hAmp, hPeriod, hNs, hPhase, stored rfl, hY, hLatch⟩
  | yIn => exact ⟨hAmp, hPeriod, hNs, hPhase, hX, stored rfl, hLatch⟩
  | symRePush => exact ⟨hAmp, hPeriod, hNs, hPhase, hX, hY, stored rfl⟩
  | bitinPush =>
    obtain ⟨_, _, pushed⟩ := pushBit_frame Config.machine (v.asWord Config.machine) s
    rw [writeReg, pushed]
    exact h
  | sigPush =>
    obtain ⟨_, _, pushed⟩ := pushSample_frame Config.machine v.asNum s
    rw [writeReg, pushed]
    exact h
  | symImPush =>
    obtain ⟨_, _, pushed⟩ := pushSymbol_frame Config.machine v.asNum s
    rw [writeReg, pushed]
    exact h
  | _ => exact h

/-- Settles O2: the reset state is a state that a reset leaves. -/
theorem resetMeetsTheInvariant : Obligations.ResetMeetsTheInvariant :=
  ⟨invariant_iff_buffersFit.2 (.resetBlock Config.machine State.reset), hostNumsFinite_resetBlock State.reset⟩

/-- Settles O3: the capacities and the finite registers are two properties that commands, writes and resets keep. -/
theorem everyStepKeepsTheInvariant : Obligations.EveryStepKeepsTheInvariant := by
  refine ⟨fun s t hs ht => ?buffers, fun s t hs ht => ?nums⟩
  case buffers =>
    rw [invariant_iff_buffersFit] at hs ⊢
    exact kept_by_step (fun _ _ _ h => h) (fun i _ _ h => h.command i) (fun _ h => h) (fun r v _ _ h => h.writeReg v r)
      (fun u _ => .resetBlock _ u) hs ht
  case nums =>
    exact kept_by_step (fun _ _ _ h => h) (fun _ _ => hostNumsFinite_command) (fun _ h => h)
      (fun _ _ _ => hostNumsFinite_writeReg) (fun u _ => hostNumsFinite_resetBlock u) hs ht

end Sys2Proof.Machine
end

section
/-! What no command depends on: the symbol period, `IDX`, the latch and `STATUS` (R22, column "read by"; R35). -/

namespace Sys2Proof.Machine

open Sys2Proof.Claims

/-- The state with other values in the registers that no command reads. -/
def State.withUnread (period latch : NumVal) (idx : BitVec 32) (status : BitVec 6) (s : State) : State :=
  { s with cfgPeriod := period, idx := idx, symReLatch := latch, status := status }

/-- An operation depends on none of the unread registers of `s`: other values in them stay as they are, and the flags
it adds to `STATUS` are the same. -/
def IgnoresUnread (f : State → State) (s : State) : Prop :=
  ∃ flags : BitVec 6, ∀ period latch idx status,
    f (s.withUnread period latch idx status) = (f s).withUnread period latch idx (status ||| flags)

section
variable {s : State} {f g : State → State}

theorem ignoresUnread_of_no_flag (h : ∀ period latch idx status,
    f (s.withUnread period latch idx status) = (f s).withUnread period latch idx status) : IgnoresUnread f s :=
  ⟨0, fun _ _ _ _ => by simp [h]⟩

theorem ignoresUnread_refuse (flag : Flag) (s : State) : IgnoresUnread (refuse flag) s :=
  ⟨flag.mask, fun _ _ _ _ => rfl⟩

theorem IgnoresUnread.comp (hg : IgnoresUnread g (f s)) (hf : IgnoresUnread f s) :
    IgnoresUnread (fun s => g (f s)) s := by
  obtain ⟨first, hf⟩ := hf
  obtain ⟨second, hg⟩ := hg
  exact ⟨first ||| second, fun _ _ _ _ => by simp only [hf, hg, BitVec.or_assoc]⟩

/-- A check that reads none of the registers, before an operation that ignores them. -/
theorem IgnoresUnread.checked {c : State → Bool} (hf : IgnoresUnread f s) (flag : Flag)
    (hc : ∀ period latch idx status, c (s.withUnread period latch idx status) = c s) :
    IgnoresUnread (fun s => if c s then f s else refuse flag s) s := by
  unfold IgnoresUnread
  simp only [hc]
  split
  · exact hf
  · exact ignoresUnread_refuse flag s

/-- A flag raised on a condition that reads none of the registers, after an operation that ignores them. -/
theorem IgnoresUnread.raiseIf {c : State → Bool} (hf : IgnoresUnread f s) (flag : Flag)
    (hc : ∀ period latch idx status, c (s.withUnread period latch idx status) = c s) :
    IgnoresUnread (fun s => raiseIf (c s) flag (f s)) s := by
  have raised : IgnoresUnread (Machine.raiseIf (c s) flag) (f s) :=
    ⟨if c s then flag.mask else 0, fun _ _ _ _ => by rw [raiseIf_eq, raiseIf_eq]; rfl⟩
  obtain ⟨flags, both⟩ := raised.comp hf
  exact ⟨flags, fun _ _ _ _ => by simp only [hc, both]⟩

/-- An operation that ignores the registers writes `STATUS` only by adding flags, and none of the others. -/
theorem IgnoresUnread.exists_flags (hf : IgnoresUnread f s) : ∃ flags, (f s).status = s.status ||| flags ∧
    (f s).cfgPeriod = s.cfgPeriod ∧ (f s).symReLatch = s.symReLatch ∧ (f s).idx = s.idx ∧
    ∀ period latch idx status,
      f (s.withUnread period latch idx status) = (f s).withUnread period latch idx (status ||| flags) := by
  obtain ⟨flags, hf⟩ := hf
  have own : f s = (f s).withUnread s.cfgPeriod s.symReLatch s.idx (s.status ||| flags) := hf ..
  exact ⟨flags, congrArg State.status own, (congrArg State.cfgPeriod own :), (congrArg State.symReLatch own :),
    (congrArg State.idx own :), hf⟩

end

theorem ignoresUnread_encCmd (p : Params) (g : BitVec 4) (s : State) : IgnoresUnread (encCmd p g) s :=
  IgnoresUnread.checked (c := fun s => (Instr.enc g).wellFormed s.cfgOrder)
    (ignoresUnread_of_no_flag fun _ _ _ _ => rfl) .cmderr fun _ _ _ _ => rfl

theorem ignoresUnread_decxyCmd (p : Params) (s : State) : IgnoresUnread (decxyCmd p) s :=
  (ignoresUnread_of_no_flag fun _ _ _ _ => rfl).raiseIf .zeropt fun _ _ _ _ => rfl

theorem ignoresUnread_modCmd (p : Params) (s : State) : IgnoresUnread (modCmd p) s := by
  obtain ⟨hc, refused⟩ | ⟨hc, full, refused⟩ | ⟨hc, fits, executed⟩ := modCmd_cases p s
  · rw [IgnoresUnread, refused]
    exact ⟨Flag.cfgerr.mask, fun _ _ _ _ => command_refused (i := .mod) (.inl rfl) hc⟩
  · rw [IgnoresUnread, refused]
    exact ⟨Flag.ovf.mask, fun _ _ _ _ => modCmd_overflow hc full⟩
  · refine ignoresUnread_of_no_flag fun _ _ _ _ => ?_
    rw [executed]
    exact modCmd_fits hc fits

theorem ignoresUnread_symbolNoise (p : Params) (s : State) : IgnoresUnread (symbolNoise p) s :=
  ignoresUnread_of_no_flag fun _ _ _ _ => rfl

theorem ignoresUnread_detectWindows (p : Params) (s : State) : IgnoresUnread (detectWindows p) s :=
  (ignoresUnread_of_no_flag fun _ _ _ _ => rfl).raiseIf .degen fun _ _ _ _ => rfl

theorem ignoresUnread_decideSymbols (p : Params) (s : State) : IgnoresUnread (decideSymbols p) s :=
  ((ignoresUnread_of_no_flag fun _ _ _ _ => rfl).raiseIf .zeropt fun _ _ _ _ => rfl).raiseIf .paderr
    fun _ _ _ _ => rfl

theorem ignoresUnread_command (p : Params) {i : Instr} (hi : i ≠ .srst) (s : State) :
    IgnoresUnread (command p i) s := by
  cases i with
  | nop => exact ignoresUnread_of_no_flag fun _ _ _ _ => rfl
  | srst => exact absurd rfl hi
  | clr mask => exact ignoresUnread_of_no_flag fun _ _ _ _ => rfl
  | enc g => exact ignoresUnread_encCmd p g s
  | dec => exact ignoresUnread_of_no_flag fun _ _ _ _ => rfl
  | decxy => exact ignoresUnread_decxyCmd p s
  | mod => exact ignoresUnread_modCmd p s
  | noisew =>
    exact IgnoresUnread.checked (f := waveformNoise p) (c := noiseConfigLegal p)
      (ignoresUnread_of_no_flag fun _ _ _ _ => rfl) .cfgerr fun _ _ _ _ => rfl
  | noises => exact (ignoresUnread_symbolNoise p s).checked (c := noiseConfigLegal p) .cfgerr fun _ _ _ _ => rfl
  | detect => exact (ignoresUnread_detectWindows p s).checked (c := waveConfigLegal p) .cfgerr fun _ _ _ _ => rfl
  | decide => exact ignoresUnread_decideSymbols p s
  | demod =>
    have steps := (ignoresUnread_decideSymbols p _).comp
      ((ignoresUnread_symbolNoise p _).comp (ignoresUnread_detectWindows p s))
    exact steps.checked (c := fun s => waveConfigLegal p s && noiseConfigLegal p s) .cfgerr fun _ _ _ _ => rfl

/-- The Nums a command looks at do not depend on the registers. -/
theorem commandNums_withUnread (p : Params) (i : Instr) (s : State) (period latch : NumVal) (idx : BitVec 32)
    (status : BitVec 6) : commandNums p i (s.withUnread period latch idx status) = commandNums p i s := by
  cases i with
  | demod =>
    obtain ⟨flags, detected⟩ := ignoresUnread_detectWindows p s
    simp only [commandNums, demodNums, detected]
    rfl
  | _ => rfl

/-- A command on other values of the registers ends where it ends on the present ones. -/
theorem exec_withUnread {i : Instr} {s t : State} (ht : exec i s = .next t) (period latch : NumVal) (idx : BitVec 32)
    (status : BitVec 6) : exec i (s.withUnread period latch idx status) =
      .next (command Config.machine i (s.withUnread period latch idx status)) := by
  obtain ⟨finite, -⟩ := exec_next_iff.1 ht
  exact exec_next_iff.2 ⟨by rwa [commandNums_withUnread], rfl⟩

/-- Settles O52: the three registers are among those that every command but SRST ignores. -/
theorem noCommandReadsPeriodIndexOrLatch : Obligations.NoCommandReadsPeriodIndexOrLatch := by
  intro i s t period latch idx hi ht
  obtain ⟨flags, hStatus, -, -, -, ignores⟩ := (ignoresUnread_command Config.machine hi s).exists_flags
  have ran := exec_withUnread ht period latch idx s.status
  rw [ignores, ← hStatus, (exec_next_iff.1 ht).2] at ran
  exact ran

/-- No command's effect on the rest depends on `STATUS` (R35): SRST overwrites it, every other command adds to it. -/
theorem exec_ignores_status {i : Instr} {s t : State} (ht : exec i s = .next t) (status : BitVec 6) :
    ∃ status', exec i { s with status := status } = .next { t with status := status' } := by
  by_cases hi : i = .srst
  · subst hi
    obtain ⟨-, rfl⟩ := exec_next_iff.1 ht
    exact ⟨_, exec_srst _⟩
  · obtain ⟨flags, -, hPeriod, hLatch, hIdx, ignores⟩ := (ignoresUnread_command Config.machine hi s).exists_flags
    have ran := exec_withUnread ht s.cfgPeriod s.symReLatch s.idx status
    rw [ignores, (exec_next_iff.1 ht).2] at ran
    rw [(exec_next_iff.1 ht).2] at hPeriod hLatch hIdx
    refine ⟨status ||| flags, ran.trans ?_⟩
    rw [State.withUnread, hPeriod.symm, hLatch.symm, hIdx.symm]

/-- Settles O48: commands only add flags, a write of ones clears exactly those bits, and no command reads `STATUS`. -/
theorem statusFlagsAreStickyAndWriteOneToClear : Obligations.StatusFlagsAreStickyAndWriteOneToClear := by
  refine ⟨fun _ _ _ _ => hasFlag_of_exec, fun v s => ?clear, fun s => ?read, fun _ _ _ st ht => ?unread, rfl⟩
  case clear => exact ⟨_, step_write_noNum (r := .status) nofun rfl, fun k hk => clearFlags_getLsbD v s hk⟩
  case read => exact step_read (r := .status) nofun rfl
  case unread => exact exec_ignores_status ht st

end Sys2Proof.Machine
end

section
/-! The flags each command can raise (R242 to R247), and the draws it takes (R171). -/

namespace Sys2Proof.Machine

open Sys2Proof.Claims

/-! ### Flags -/

section
variable {s : State} {f : Flag}

theorem eq_of_refuse_raises {g : Flag} (clear : s.hasFlag f = false) (set : (refuse g s).hasFlag f = true) :
    f = g := by
  rw [hasFlag_refuse, clear, Bool.false_or, decide_eq_true_iff] at set
  exact set.symm

theorem eq_of_raiseIf_raises {c : Bool} {g : Flag} {t : State} (set : (raiseIf c g t).hasFlag f = true) :
    t.hasFlag f = true ∨ c = true ∧ f = g := by
  rw [hasFlag_raiseIf, Bool.or_eq_true, Bool.and_eq_true, decide_eq_true_iff] at set
  exact set.imp_right fun ⟨hc, hg⟩ => ⟨hc, hg.symm⟩

/-- A command behind a check raises the check's flag where it is refused, else those of its executed branch. -/
theorem eq_of_checked_raises {c : Prop} [Decidable c] {g : Flag} {t : State} (clear : s.hasFlag f = false)
    (set : (if c then t else refuse g s).hasFlag f = true) : ¬ c ∧ f = g ∨ c ∧ t.hasFlag f = true := by
  split at set
  · next hc => exact .inr ⟨hc, set⟩
  · next hc => exact .inl ⟨hc, eq_of_refuse_raises clear set⟩

/-- The detector raises DEGEN only (R202). -/
theorem eq_of_detectWindows_raises {p : Params} (clear : s.hasFlag f = false)
    (set : (detectWindows p s).hasFlag f = true) : f = .degen := by
  by_contra other
  rw [hasFlag_detectWindows_of_ne (Ne.symm other), clear] at set
  cases set

/-- The decoder raises PADERR, and ZEROPT at orders 4, 8 and 16 (R209). -/
theorem eq_of_decideSymbols_raises {p : Params} (set : (decideSymbols p s).hasFlag f = true) :
    s.hasFlag f = true ∨ f = .paderr ∨ f = .zeropt ∧ s.cfgOrder ≠ 0 := by
  rcases eq_of_raiseIf_raises set with set | ⟨-, hf⟩
  · rcases eq_of_raiseIf_raises set with set | ⟨horder, hf⟩
    · exact .inl set
    · rw [Bool.and_eq_true, decide_eq_true_iff] at horder
      exact .inr (.inr ⟨hf, horder.1⟩)
  · exact .inr (.inl hf)

/-- MOD raises CFGERR or OVF (R158). -/
theorem eq_of_modCmd_raises {p : Params} (clear : s.hasFlag f = false) (set : (modCmd p s).hasFlag f = true) :
    f = .cfgerr ∨ f = .ovf := by
  obtain ⟨-, refused⟩ | ⟨-, -, refused⟩ | ⟨-, -, executed⟩ := modCmd_cases p s
  · rw [refused] at set
    exact .inl (eq_of_refuse_raises clear set)
  · rw [refused] at set
    exact .inr (eq_of_refuse_raises clear set)
  · rw [executed] at set
    exact absurd (clear.symm.trans set) Bool.false_ne_true

/-- Every flag of DEMOD is CFGERR, where it is refused, or one of its three steps' (R210). -/
theorem eq_of_demodCmd_raises {p : Params} (clear : s.hasFlag f = false) (set : (demodCmd p s).hasFlag f = true) :
    f = .cfgerr ∨ f = .degen ∨ f = .paderr ∨ f = .zeropt ∧ s.cfgOrder ≠ 0 := by
  obtain ⟨-, hf⟩ | ⟨-, set⟩ := eq_of_checked_raises clear set
  · exact .inl hf
  · have order : (detectWindows p s).cfgOrder = s.cfgOrder := raiseIf_cfgOrder ..
    obtain set | decided := eq_of_decideSymbols_raises set
    · exact .inr (.inl (eq_of_detectWindows_raises clear set))
    · exact .inr (.inr (order ▸ decided))

end

/-- Settles O49: the flags of each command are those of its checks and of its steps. -/
theorem flagsAreRaisedOnlyByTheirOwnCommands : Obligations.FlagsAreRaisedOnlyByTheirOwnCommands := by
  intro p i s f clear set
  have unchanged {t : State} (same : t.hasFlag f = s.hasFlag f) (set : t.hasFlag f = true) : False :=
    Bool.false_ne_true (clear.symm.trans (same.symm.trans set))
  cases i with
  | nop => exact (unchanged rfl set).elim
  | srst => exact absurd ((hasFlag_resetBlock f s).symm.trans set) Bool.false_ne_true
  | clr mask => exact (unchanged rfl set).elim
  | enc g =>
    obtain ⟨illegal, rfl⟩ | ⟨-, set⟩ := eq_of_checked_raises clear set
    · rw [wellFormed_enc, not_lt] at illegal
      simp [illegal]
    · exact (unchanged rfl set).elim
  | dec => exact (unchanged rfl set).elim
  | decxy =>
    obtain set | ⟨-, rfl⟩ := eq_of_raiseIf_raises set
    · exact (unchanged rfl set).elim
    · simp
  | mod => obtain rfl | rfl := eq_of_modCmd_raises clear set <;> simp
  | noisew =>
    obtain ⟨-, rfl⟩ | ⟨-, set⟩ := eq_of_checked_raises clear set
    · simp
    · exact (unchanged rfl set).elim
  | noises =>
    obtain ⟨-, rfl⟩ | ⟨-, set⟩ := eq_of_checked_raises clear set
    · simp
    · exact (unchanged rfl set).elim
  | detect =>
    obtain ⟨-, rfl⟩ | ⟨-, set⟩ := eq_of_checked_raises clear set
    · simp
    · obtain rfl := eq_of_detectWindows_raises clear set
      simp
  | decide =>
    obtain set | rfl | ⟨rfl, horder⟩ := eq_of_decideSymbols_raises set
    · exact (unchanged rfl set).elim
    · simp
    · simpa using horder
  | demod => obtain rfl | rfl | rfl | ⟨rfl, horder⟩ := eq_of_demodCmd_raises clear set <;> simp_all

/-! ### Draws -/

/-- An executed DEMOD takes two draws for each whole window (R171, R210). -/
theorem demodCmd_drawPos {p : Params} {s : State} (hwave : waveConfigLegal p s = true)
    (hnoise : noiseConfigLegal p s = true) :
    (demodCmd p s).drawPos = s.drawPos + 2 * (s.sig.length / s.cfgNsps.toNat) := by
  obtain ⟨sym, c, hlen, detected⟩ := detectWindows_eq p s
  rw [demodCmd_legal hwave hnoise, decideSymbols_frame, symbolNoise_eq, detected]
  simp [hlen]

/-- Only the three commands on the noise strength take draws (R171). -/
theorem command_drawPos {p : Params} {i : Instr} (hi : ¬ (i = .demod ∨ i = .noisew ∨ i = .noises)) (s : State) :
    (command p i s).drawPos = s.drawPos := by
  cases i with
  | noisew => exact absurd (.inr (.inl rfl)) hi
  | noises => exact absurd (.inr (.inr rfl)) hi
  | demod => exact absurd (.inl rfl) hi
  | enc g =>
    obtain ⟨_, _, _, _, frame⟩ := encCmd_frame p g s
    rw [command, frame]
  | decxy =>
    obtain ⟨_, _, _, _, frame⟩ := decxyCmd_frame p s
    rw [command, frame]
  | mod =>
    obtain ⟨_, _, _, _, frame⟩ := modCmd_frame p s
    rw [command, frame]
  | detect =>
    obtain ⟨_, _, frame⟩ := detectCmd_frame p s
    rw [command, frame]
  | decide =>
    obtain ⟨_, _, frame⟩ := decideCmd_frame p s
    rw [command, frame]
  | _ => rfl

/-- No register write takes a draw. -/
theorem writeReg_drawPos (p : Params) (v : PortVal) (s : State) (r : Reg) :
    (writeReg p v s r).drawPos = s.drawPos := by
  cases r with
  | bitinPush =>
    obtain ⟨_, _, pushed⟩ := pushBit_frame p (v.asWord p) s
    rw [writeReg, pushed]
  | sigPush =>
    obtain ⟨_, _, pushed⟩ := pushSample_frame p v.asNum s
    rw [writeReg, pushed]
  | symImPush =>
    obtain ⟨_, _, pushed⟩ := pushSymbol_frame p v.asNum s
    rw [writeReg, pushed]
  | _ => rfl

/-- No host action but a write to `CMD` takes a draw (R171). -/
theorem actionState_drawPos {p : Params} {x : Txn} (hx : ∀ v, x ≠ .write 0x00 v) (s : State) :
    (actionState p x s).drawPos = s.drawPos := by
  cases x with
  | read addr => rfl
  | reset => rfl
  | write addr v =>
    cases hr : regAt addr with
    | none => simp only [actionState, hr]
    | some r =>
      have hcmd : r ≠ .cmd := by
        rintro rfl
        exact hx v (by rw [← addr_of_regAt hr]; rfl)
      rw [actionState_write hr hcmd, writeReg_drawPos]

/-- Settles O30: the executed branch of a noise command counts its draws, every other branch and action leaves the
position of the stream. -/
theorem drawsAreTakenOnlyByNoiseCommands : Obligations.DrawsAreTakenOnlyByNoiseCommands := by
  refine ⟨fun i s t ht => ?commands, fun x s t hx ht => ?actions⟩
  case commands =>
    obtain ⟨-, rfl⟩ := exec_next_iff.1 ht
    refine ⟨?noisew, ?noises, ?demod, fun hi illegal => ?refusedNoise, ?refusedWave, fun hw hs hd => ?other⟩
    case noisew =>
      rintro rfl legal
      rw [command, noisewCmd_legal ((noiseConfigLegal_iff s).2 legal), waveformNoise_eq]
    case noises =>
      rintro rfl legal
      rw [command, noisesCmd_legal ((noiseConfigLegal_iff s).2 legal), symbolNoise_eq]
    case demod =>
      rintro rfl hN hAmp hNs
      exact demodCmd_drawPos ((waveConfigLegal_iff s).2 ⟨hN, hAmp⟩) ((noiseConfigLegal_iff s).2 hNs)
    case refusedNoise =>
      rw [← noiseConfigLegal_iff, Bool.not_eq_true] at illegal
      rw [command_refused_noise (by tauto) illegal, refuse_drawPos]
    case refusedWave =>
      rintro rfl illegal
      rw [command_refused (.inr (.inr rfl)) ((waveConfigLegal_eq_false_iff s).2 illegal), refuse_drawPos]
    case other => exact command_drawPos (by tauto) s
  case actions =>
    rw [step_cons rfl] at ht
    obtain ⟨-, rfl⟩ := guardFinite_next_iff.1 ht
    exact actionState_drawPos hx _

end Sys2Proof.Machine
end

section
/-! A command or a step ends in a next state unless it meets a Num that is not finite (U5, R254, R259). -/

namespace Sys2Proof.Machine

open Sys2Proof.Claims

/-- A step in which the host acts is guarded by the Nums of the action. -/
theorem stepWith_acting (p : Params) (x : Txn) (s : State) :
    stepWith p (acting x s) = guardFinite p.num (actionNums p x s) (actionState p x s) := stepWith_eq p (acting x s)

/-- A guarded outcome is a next state or the fault, nothing else. -/
theorem guardFinite_next_or_fault (num : Numeric) (xs : List NumVal) (t : State) :
    (∃ u, guardFinite num xs t = .next u) ∨ guardFinite num xs t = .fault .nonFinite := by
  unfold guardFinite
  split
  · exact .inl ⟨t, rfl⟩
  · exact .inr rfl

/-- Every step on given parameters is an idle one or a guarded action. -/
theorem stepWith_cases (p : Params) (s : State) :
    stepWith p s = .next s ∨ ∃ xs t, stepWith p s = guardFinite p.num xs t := by
  rw [stepWith_eq]
  cases s.pending with
  | nil => exact .inl rfl
  | cons x rest => exact .inr ⟨_, _, rfl⟩

section
variable {p : Params} {s : State} {x : NumVal} (hx : p.num.isFinite x = false)
include hx

/-- A command stops at a Num it looks at. -/
theorem outcome_fault {i : Instr} (mem : x ∈ commandNums p i s) : outcome p i s = .fault .nonFinite :=
  guardFinite_fault_iff.2 ⟨x, mem, hx⟩

/-- A host action stops at a Num it stores or computes with. -/
theorem stepWith_fault {t : Txn} (mem : x ∈ actionNums p t s) : stepWith p (acting t s) = .fault .nonFinite :=
  (stepWith_acting p t s).trans (guardFinite_fault_iff.2 ⟨x, mem, hx⟩)

/-- A register write stops at a Num it stores. -/
theorem stepWith_write_fault {r : Reg} (hr : r ≠ .cmd) {v : PortVal} (mem : x ∈ writtenNums v s r) :
    stepWith p (acting (.write r.addr v) s) = .fault .nonFinite :=
  stepWith_fault hx (by rwa [actionNums_write (regAt_addr r) hr])

end

/-- A draw that a legal noise command takes is among the Nums it looks at (R171). -/
theorem draw_mem_noiseNums {p : Params} {s : State} (data : List NumVal) {n k : Nat} (hk : k < n)
    (legal : noiseConfigLegal p s = true) :
    p.gauss (s.drawPos + k) ∈ s.cfgNs :: data ++ (nextDraws p s n).filter fun _ => noiseConfigLegal p s :=
  List.mem_append_right _ (List.mem_filter.2 ⟨mem_nextDraws.2 ⟨k, hk, rfl⟩, legal⟩)

/-- An executed DEMOD looks at two draws for each whole window (R171, R210). -/
theorem draw_mem_demodNums {p : Params} {s : State} {k : Nat} (hk : k < 2 * (s.sig.length / s.cfgNsps.toNat))
    (hwave : waveConfigLegal p s = true) (hnoise : noiseConfigLegal p s = true) :
    p.gauss (s.drawPos + k) ∈ demodNums p s := by
  have symbols : (detectWindows p s).sym.length = s.sig.length / s.cfgNsps.toNat := by
    obtain ⟨sym, c, hlen, detected⟩ := detectWindows_eq p s
    rw [detected, raiseIf_sym, hlen]
  have noises : p.gauss (s.drawPos + k) ∈ noisesNums p (detectWindows p s) := by
    rw [← detectWindows_drawPos p s]
    exact draw_mem_noiseNums _ (by rwa [symbols]) (by rwa [noiseConfigLegal_detectWindows])
  exact List.mem_append_right _ (List.mem_filter.2 ⟨List.mem_append_left _ noises, by rw [hwave, hnoise]; rfl⟩)

/-- The Num registers and the push ports of Nums, in the order of their addresses. -/
def Reg.storesNum : List Reg := [.cfgAmp, .cfgPeriod, .cfgNs, .phaseIn, .xIn, .yIn, .sigPush, .symRePush, .symImPush]

/-- A write to such a register looks at the Num written (U5). -/
theorem asNum_mem_writtenNums {r : Reg} (h : r ∈ Reg.storesNum) (v : PortVal) (s : State) :
    r ≠ .cmd ∧ v.asNum ∈ writtenNums v s r := by
  fin_cases h <;> exact ⟨nofun, by simp [writtenNums]⟩

/-- Settles O4: an outcome is its guard, and each place is one of the Nums the guard looks at. -/
theorem stepsCompleteUnlessANumIsNotFinite : Obligations.StepsCompleteUnlessANumIsNotFinite := by
  refine ⟨fun _ _ operands => exec_next_iff.2 ⟨operands, rfl⟩, exec_eq, step_eq, fun p s x hx => ?stops,
    fun p s => ?complete, fun p v s h => ?reals⟩
  case stops =>
    refine ⟨?dec, ?decxy, ?amplitude, ?strength, ?samples, ?symbols, ?drawNoisew, ?drawNoises, ?drawDemod, ?period,
      ?written, ?latch⟩
    case dec =>
      rintro rfl
      exact outcome_fault hx (by simp [commandNums, decNums])
    case decxy => exact fun h => outcome_fault hx (by simpa [commandNums, decxyNums] using h)
    case amplitude =>
      rintro i rfl (rfl | rfl | rfl) <;>
        exact outcome_fault hx (by simp [commandNums, modNums, detectNums, demodNums])
    case strength =>
      rintro i rfl (rfl | rfl | rfl) <;>
        exact outcome_fault hx (by simp [commandNums, noisewNums, noisesNums, demodNums])
    case samples =>
      rintro i mem (rfl | rfl | rfl) <;>
        exact outcome_fault hx (by simp [commandNums, noisewNums, detectNums, demodNums, mem])
    case symbols =>
      intro i z hz part hi
      have mem : x ∈ symbolParts s.sym := mem_symbolParts.2 ⟨z, hz, part⟩
      rcases hi with rfl | rfl
      · exact outcome_fault hx (List.mem_append_left _ (List.mem_cons_of_mem _ mem))
      · exact outcome_fault hx mem
    case drawNoisew =>
      rintro k hk legal rfl
      exact outcome_fault hx (draw_mem_noiseNums s.sig hk legal)
    case drawNoises =>
      rintro k hk legal rfl
      exact outcome_fault hx (draw_mem_noiseNums (symbolParts s.sym) hk legal)
    case drawDemod =>
      rintro k hk hN hAmp hNs rfl
      have hwave : waveConfigLegal p s = true := by simp [waveConfigLegal, hN, hAmp]
      exact outcome_fault hx (draw_mem_demodNums hk hwave hNs)
    case period =>
      rintro hi hn rfl
      have mem : s.cfgPeriod ∈ timeNums s := by simp [timeNums, hi, hn]
      exact stepWith_fault hx mem
    case written =>
      rintro addr v rfl haddr
      obtain ⟨r, hr, rfl⟩ : ∃ r ∈ Reg.storesNum, r.addr = addr := List.mem_map.1 haddr
      obtain ⟨hcmd, mem⟩ := asNum_mem_writtenNums hr v s
      exact stepWith_write_fault hx hcmd mem
    case latch =>
      rintro v rfl
      exact stepWith_write_fault (r := .symImPush) hx nofun (List.mem_cons_self ..)
  case complete =>
    obtain idle | ⟨xs, t, acts⟩ := stepWith_cases p s
    · exact .inl ⟨s, idle⟩
    · rw [acts]
      exact guardFinite_next_or_fault p.num xs t
  case reals =>
    obtain idle | ⟨xs, t, acts⟩ := stepWith_cases p s
    · exact ⟨s, idle⟩
    · exact ⟨t, acts.trans (guardFinite_next (fun x _ => h.isFinite x) t)⟩

end Sys2Proof.Machine
end

section
/-! The region of a phase and of a point over the reals (R123 to R127), and what DEC, DECXY and DECIDE write of it. -/

namespace Sys2Proof

open Sys2Proof.Machine Sys2Proof.Claims

/-! ### Regions -/

/-- Every angle of the circle has its region (R123). -/
theorem exists_inRegion {m : Nat} {a : ℝ} (hm : 0 < m) (lo : 0 ≤ a) (hi : a < 2 * Real.pi) :
    ∃ k, InRegion m k a := by
  have hm' : (0 : ℝ) < m := by exact_mod_cast hm
  have quotient : (0 : ℝ) ≤ m * a / (2 * Real.pi) := by positivity
  have below := Nat.floor_le quotient
  have above := Nat.lt_floor_add_one (m * a / (2 * Real.pi))
  rw [le_div_iff₀ Real.two_pi_pos] at below
  rw [div_lt_iff₀ Real.two_pi_pos] at above
  refine ⟨⌊m * a / (2 * Real.pi)⌋₊, lo, hi, ?_, ?_⟩
  · rw [div_le_iff₀ hm']
    linarith
  · rw [lt_div_iff₀ hm']
    linarith

/-- A nominal phase lies inside its own region (R120, R123). -/
theorem inRegion_theta {m k : Nat} (hk : k < m) : InRegion m k (theta m k) := by
  have hm : (0 : ℝ) < m := by exact_mod_cast Nat.zero_lt_of_lt hk
  have hkm : (k : ℝ) + 1 ≤ m := by exact_mod_cast hk
  have hpi := Real.pi_pos
  unfold theta
  refine ⟨by positivity, ?_, ?_, ?_⟩
  · rw [div_lt_iff₀ hm]
    nlinarith
  · rw [div_le_div_iff_of_pos_right hm]
    linarith
  · rw [div_lt_div_iff_of_pos_right hm]
    linarith

/-! ### The polar angle of a point -/

/-- The angle of a point in `[0, 2π)`, 0 for the origin (R126). -/
noncomputable def polarAngle (x y : ℝ) : ℝ :=
  if Complex.arg ⟨x, y⟩ < 0 then Complex.arg ⟨x, y⟩ + 2 * Real.pi else Complex.arg ⟨x, y⟩

theorem polarAngle_nonneg (x y : ℝ) : 0 ≤ polarAngle x y := by
  have := Complex.neg_pi_lt_arg ⟨x, y⟩
  have := Real.pi_pos
  unfold polarAngle
  split <;> linarith

theorem polarAngle_lt (x y : ℝ) : polarAngle x y < 2 * Real.pi := by
  have := Complex.arg_le_pi ⟨x, y⟩
  have := Real.pi_pos
  unfold polarAngle
  split <;> linarith

@[simp] theorem polarAngle_zero : polarAngle 0 0 = 0 := by
  have origin : (⟨0, 0⟩ : ℂ) = 0 := rfl
  simp [polarAngle, origin]

/-- The whole turn that is added does not move the point. -/
theorem cos_sin_polarAngle (x y : ℝ) : Real.cos (polarAngle x y) = Real.cos (Complex.arg ⟨x, y⟩) ∧
    Real.sin (polarAngle x y) = Real.sin (Complex.arg ⟨x, y⟩) := by
  unfold polarAngle
  split
  · exact ⟨Real.cos_add_two_pi _, Real.sin_add_two_pi _⟩
  · exact ⟨rfl, rfl⟩

/-- The polar coordinates of a point. -/
theorem eq_norm_mul_polarAngle (x y : ℝ) :
    x = ‖(⟨x, y⟩ : ℂ)‖ * Real.cos (polarAngle x y) ∧
      y = ‖(⟨x, y⟩ : ℂ)‖ * Real.sin (polarAngle x y) := by
  rw [(cos_sin_polarAngle x y).1, (cos_sin_polarAngle x y).2, Complex.norm_mul_cos_arg, Complex.norm_mul_sin_arg]
  exact ⟨rfl, rfl⟩

/-- The modulus does not matter to the angle. -/
theorem polarAngle_mul {c : ℝ} (hc : 0 < c) (x y : ℝ) : polarAngle (c * x) (c * y) = polarAngle x y := by
  have scaled : (⟨c * x, c * y⟩ : ℂ) = c * ⟨x, y⟩ := by apply Complex.ext <;> simp
  rw [polarAngle, scaled, Complex.arg_real_mul _ hc, polarAngle]

/-- A point of the unit circle has the angle it is written with. -/
theorem polarAngle_cos_sin {a : ℝ} (lo : 0 ≤ a) (hi : a < 2 * Real.pi) :
    polarAngle (Real.cos a) (Real.sin a) = a := by
  have point (b : ℝ) : (⟨Real.cos b, Real.sin b⟩ : ℂ) = Complex.cos b + Complex.sin b * Complex.I := by
    apply Complex.ext <;> simp [← Complex.ofReal_cos, ← Complex.ofReal_sin]
  have hpi := Real.pi_pos
  by_cases upper : a ≤ Real.pi
  · have arg : Complex.arg ⟨Real.cos a, Real.sin a⟩ = a := by
      rw [point, Complex.arg_cos_add_sin_mul_I ⟨by linarith, upper⟩]
    rw [polarAngle, arg, if_neg (not_lt.2 lo)]
  · have arg : Complex.arg ⟨Real.cos a, Real.sin a⟩ = a - 2 * Real.pi := by
      rw [← Real.cos_sub_two_pi, ← Real.sin_sub_two_pi, point,
        Complex.arg_cos_add_sin_mul_I ⟨by linarith, by linarith⟩]
    rw [polarAngle, arg, if_pos (by linarith)]
    ring

section IsReal
variable {num : Numeric} {v : NumVal → ℝ} (h : num.IsReal v)
include h

/-- The region computed for an angle of the circle contains it (R125). -/
theorem Numeric.IsReal.inRegion_regionOf {m : Nat} {a : NumVal} (hm : 0 < m) (lo : 0 ≤ v a) (hi : v a < 2 * Real.pi) :
    InRegion m (regionOf num m a) (v a) := by
  obtain ⟨k, hk⟩ := exists_inRegion hm lo hi
  rwa [h.regionOf_eq hm hk]

/-- The angle of a point is its polar angle (R126). -/
theorem Numeric.IsReal.angleOf (z : Cplx) : v (angleOf num z) = polarAngle (v z.re) (v z.im) := by
  unfold Machine.angleOf
  split
  · next origin =>
    obtain ⟨hre, him⟩ := (h.isOrigin_iff z).1 origin
    rw [h.zero, hre, him, polarAngle_zero]
  · next origin =>
    have nonzero : v z.re ≠ 0 ∨ v z.im ≠ 0 := by
      rw [h.isOrigin_iff] at origin
      tauto
    have arg := h.atan2 z.im z.re nonzero
    have test : num.less (.atan2 z.im z.re) .zero = true ↔ Complex.arg ⟨v z.re, v z.im⟩ < 0 := by
      rw [h.less_iff, arg, h.zero]
    simp only [test, polarAngle]
    split
    · rw [h.add, arg, h.twoPi]
    · exact arg

/-- The region of a point is that of its polar angle. -/
theorem Numeric.IsReal.inRegion_point {m : Nat} (hm : 0 < m) (z : Cplx) :
    InRegion m (regionOf num m (Machine.angleOf num z)) (polarAngle (v z.re) (v z.im)) := by
  have angle := h.angleOf z
  rw [← angle]
  exact h.inRegion_regionOf hm (angle ▸ polarAngle_nonneg _ _) (angle ▸ polarAngle_lt _ _)

/-- The region of a point whose polar angle lies in a region. -/
theorem Numeric.IsReal.regionOf_point {m k : Nat} (hm : 0 < m) {z : Cplx}
    (hk : InRegion m k (polarAngle (v z.re) (v z.im))) : regionOf num m (Machine.angleOf num z) = k :=
  h.regionOf_eq hm (by rwa [h.angleOf])

end IsReal

end Sys2Proof

namespace Sys2Proof.Machine

open Sys2Proof.Claims

/-! ### DEC -/

/-- DEC on a finite phase does what `decCmd` says (R131). -/
theorem exec_dec {s : State} (hphase : FiniteNum s.phaseIn) : exec .dec s = .next (decCmd Config.machine s) :=
  exec_next_iff.2 ⟨List.forall_mem_singleton.2 hphase, rfl⟩

/-- Settles O19: the three registers are those `setDecoded` writes. -/
theorem decWritesTheRegionOfThePhase : Obligations.DecWritesTheRegionOfThePhase :=
  ⟨zeroImmediateOnly (by decide) (by decide), fun _ hphase => exec_dec hphase⟩

/-- The group value DEC and DECXY write is that of the phase index they write (R131, R132). -/
theorem setDecoded_resG (p : Params) {k : Nat} {s : State} (hk : k < points s.cfgOrder) :
    (setDecoded p k s).resG.toNat = unassign p s.cfgOrder (setDecoded p k s).resK.toNat := by
  have index : (setDecoded p k s).resK.toNat = k := toResult_toNat hk
  rw [index]
  exact toResult_toNat (unassign_lt p s.cfgOrder k)

/-- DEC's group value is that of its phase index. -/
theorem decCmd_resG (p : Params) (s : State) :
    (decCmd p s).resG.toNat = unassign p s.cfgOrder (decCmd p s).resK.toNat :=
  setDecoded_resG p (regionOf_lt p.num (points_pos s.cfgOrder) _)

/-- Settles O21: the reduced phase is an angle of the circle, and its region contains it. -/
theorem decOverTheReals : Obligations.DecOverTheReals := by
  intro p v s h t
  have hm := points_pos s.cfgOrder
  obtain ⟨turns, lo, hi⟩ := h.modTwoPi s.phaseIn
  have index : t.resK.toNat = regionOf p.num (points s.cfgOrder) (.modTwoPi s.phaseIn) := decCmd_resK p s
  refine ⟨⟨⌊v s.phaseIn / (2 * Real.pi)⌋, ?region⟩, ?below, decCmd_resG p s, ?phase⟩
  case region =>
    rw [← turns, index]
    exact h.inRegion_regionOf hm lo hi
  case below =>
    rw [index]
    exact regionOf_lt p.num hm _
  case phase =>
    rw [index]
    exact h.nominalPhase hm _

/-- Settles O24: the nominal phase lies in its own region, so DEC answers its index, whose group value is `g`. -/
theorem encThenDecIsTheIdentity : Obligations.EncThenDecIsTheIdentity := by
  intro p v g s h hg t u
  have encoded : t = setResult (assign p s.cfgOrder g.toNat) g.toNat
      (nominalPhase (points s.cfgOrder) (assign p s.cfgOrder g.toNat)) s :=
    if_pos ((wellFormed_enc g s.cfgOrder).2 hg)
  have order : t.cfgOrder = s.cfgOrder := by rw [encoded, setResult_cfgOrder]
  have index : t.resK.toNat = assign p s.cfgOrder g.toNat := by
    rw [encoded]
    exact toResult_toNat (assign_lt p s.cfgOrder g.toNat)
  have decoded : u.resK.toNat = assign p s.cfgOrder g.toNat := by
    refine decCmd_resK_of_inRegion h (turns := 0) ?_
    have phase : v t.resPhase = theta (points s.cfgOrder) (assign p s.cfgOrder g.toNat) := by
      rw [encoded]
      exact h.nominalPhase (points_pos s.cfgOrder) _
    simpa [order, phase] using inRegion_theta (assign_lt p s.cfgOrder g.toNat)
  refine ⟨BitVec.eq_of_toNat_eq ?group, BitVec.eq_of_toNat_eq (decoded.trans index.symm)⟩
  case group =>
    have group : u.resG.toNat = unassign p t.cfgOrder u.resK.toNat := decCmd_resG p _
    rw [group, decoded, order, unassign_assign p hg]

/-! ### DECXY -/

/-- DECXY on finite coordinates does what `decxyCmd` says (R132). -/
theorem exec_decxy {s : State} (hx : FiniteNum s.xIn) (hy : FiniteNum s.yIn) :
    exec .decxy s = .next (decxyCmd Config.machine s) :=
  exec_next_iff.2 ⟨List.forall_mem_cons.2 ⟨hx, List.forall_mem_singleton.2 hy⟩, rfl⟩

/-- ZEROPT is bit 5 of `STATUS` (R35). -/
theorem raiseIf_zeropt (c : Bool) (s : State) :
    raiseIf c .zeropt s = { s with status := if c then s.status ||| 32 else s.status } := by
  cases c <;> rfl

/-- Settles O20: the three registers are those `setDecoded` writes, and ZEROPT is raised for the origin. -/
theorem decxyWritesTheRegionOfThePoint : Obligations.DecxyWritesTheRegionOfThePoint := by
  refine ⟨zeroImmediateOnly (by decide) (by decide), fun s hx hy => ?_⟩
  rw [exec_decxy hx hy, decxyCmd, raiseIf_zeropt]
  rfl

/-- DECXY's phase index is the region of the angle of the point (R132). -/
theorem decxyCmd_resK (p : Params) (s : State) :
    (decxyCmd p s).resK.toNat = regionOf p.num (points s.cfgOrder) (angleOf p.num ⟨s.xIn, s.yIn⟩) := by
  rw [decxyCmd, raiseIf_resK]
  exact toResult_toNat (regionOf_lt p.num (points_pos s.cfgOrder) _)

/-- DECXY's group value is that of its phase index. -/
theorem decxyCmd_resG (p : Params) (s : State) :
    (decxyCmd p s).resG.toNat = unassign p s.cfgOrder (decxyCmd p s).resK.toNat := by
  rw [decxyCmd, raiseIf_resG, raiseIf_resK]
  exact setDecoded_resG p (regionOf_lt p.num (points_pos s.cfgOrder) _)

/-- DECXY changes `STATUS` for the origin only. -/
theorem decxyCmd_status (p : Params) (s : State) :
    (decxyCmd p s).status = if p.num.isOrigin ⟨s.xIn, s.yIn⟩ then s.status ||| 32 else s.status := by
  rw [decxyCmd, raiseIf_zeropt]
  rfl

/-- Settles O22: the region computed is that of the polar angle, which is 0 for the origin. -/
theorem decxyOverTheReals : Obligations.DecxyOverTheReals := by
  intro p v s h t
  have hm := points_pos s.cfgOrder
  have origin := h.isOrigin_iff ⟨s.xIn, s.yIn⟩
  have region := h.inRegion_point hm ⟨s.xIn, s.yIn⟩
  rw [← decxyCmd_resK] at region
  refine ⟨fun hx hy => ⟨BitVec.eq_of_toNat_eq ?_, ?_⟩, fun nonzero => ⟨?_, ?polar⟩, decxyCmd_resG p s⟩
  · have angle : InRegion (points s.cfgOrder) 0 (polarAngle (v s.xIn) (v s.yIn)) := by
      simpa [hx, hy] using inRegion_boundary hm
    exact (decxyCmd_resK p s).trans (h.regionOf_point hm angle)
  · rw [decxyCmd_status, if_pos (origin.2 ⟨hx, hy⟩)]
  · rw [decxyCmd_status, if_neg (mt origin.1 (by tauto))]
  case polar =>
    obtain ⟨hx, hy⟩ := eq_norm_mul_polarAngle (v s.xIn) (v s.yIn)
    refine ⟨_, _, norm_pos_iff.2 fun zero => ?_, hx, hy, region⟩
    have parts : v s.xIn = 0 ∧ v s.yIn = 0 := by simpa [Complex.ext_iff] using zero
    tauto

/-- Settles O25: the two points have the same polar angle, and are both the origin or both not. -/
theorem decxyIgnoresTheModulus : Obligations.DecxyIgnoresTheModulus := by
  intro p v s x y c h hc hx hy t u
  have hm := points_pos s.cfgOrder
  have region := h.inRegion_point hm ⟨s.xIn, s.yIn⟩
  rw [← polarAngle_mul hc, ← hx, ← hy] at region
  have index : u.resK = t.resK := BitVec.eq_of_toNat_eq <| by
    rw [decxyCmd_resK, decxyCmd_resK]
    exact h.regionOf_point hm region
  have origin : p.num.isOrigin ⟨x, y⟩ = p.num.isOrigin ⟨s.xIn, s.yIn⟩ := by
    rw [Bool.eq_iff_iff, h.isOrigin_iff, h.isOrigin_iff]
    simp [hx, hy, hc.ne']
  refine ⟨index, BitVec.eq_of_toNat_eq ?_, ?_⟩
  · rw [decxyCmd_resG, decxyCmd_resG, index]
  · rw [decxyCmd_status, decxyCmd_status, origin]

/-! ### DECIDE -/

/-- Settles O44: both take the group value of the region of the point's angle. -/
theorem decideAgreesWithDecxy : Obligations.DecideAgreesWithDecxy := by
  intro p s z horder
  rw [decxyCmd_resG, decxyCmd_resK, decideSymbol, if_neg horder, bitsOf_eq_bitsMsbFirst]
  rfl

/-- The bits of a symbol (R204, R205) are those of the claims. -/
theorem decideSymbol_eq (p : Params) (b : BitVec 2) : decideSymbol p b = symbolBits p b := by
  funext z
  rw [decideSymbol, bitsOf_eq_bitsMsbFirst]
  rfl

/-- Settles O43: the bits are those of the symbols in order; the two flags are added in the other order. -/
theorem decideRecoversAndTrimsTheBits : Obligations.DecideRecoversAndTrimsTheBits := by
  refine ⟨zeroImmediateOnly (by decide) (by decide), fun s hsym => ?_⟩
  rw [exec_decide hsym, ← decideSymbol_eq]
  intro all pad padWrong zero
  have asked : (decide (s.cfgOrder ≠ 0) && s.sym.any Config.machine.num.isOrigin) = zero := by
    simp only [zero, Bool.decide_and, List.any_eq]
    rfl
  have decided : decideSymbols Config.machine s = raiseIf padWrong .paderr
      (raiseIf zero .zeropt { s with bitout := all.take (all.length - min pad all.length) }) := by
    rw [← asked]
    rfl
  rw [decided, raiseIf_eq, raiseIf_eq, BitVec.or_assoc, BitVec.or_comm (if zero then _ else _), ← BitVec.or_assoc]
  exact ⟨rfl, recovered_length Config.machine s⟩

end Sys2Proof.Machine
end

section
/-! The bit count along the chain (R151, R156, R159, R219): MOD records it, DECIDE and DEMOD restore it. -/

namespace Sys2Proof.Machine

open Sys2Proof.Claims

/-- The number of symbols of an order (R151), as R159 writes it. -/
theorem symbolCount_width (b : BitVec 2) (len : Nat) :
    symbolCount (width b) len = (len + b.toNat) / (b.toNat + 1) := symbolCount_eq (width_pos b) len

/-- A padding count fits `SIG_PAD` (R28). -/
theorem padCount_toNat (b : BitVec 2) (len : Nat) :
    (BitVec.ofNat 2 (padCount (width b) len)).toNat = padCount (width b) len := by
  have below := padCount_lt (width_pos b) len
  have width_le : width b ≤ 4 := b.isLt
  rw [BitVec.toNat_ofNat, Nat.mod_eq_of_lt (by omega)]

/-- `N ≥ 3` and `A > 0` make the waveform configuration legal (R243). -/
theorem waveConfigLegal_of {p : Params} {s : State} (hN : 3 ≤ s.cfgNsps.toNat)
    (hAmp : p.num.less .zero s.cfgAmp = true) : waveConfigLegal p s = true := by
  rw [waveConfigLegal, hAmp, decide_eq_true hN, Bool.true_and]

/-- The state an executed MOD leaves (R158). -/
def modulated (p : Params) (s : State) : State :=
  { s with
    sig := synthesize (points s.cfgOrder) s.cfgNsps.toNat s.cfgAmp (phaseIndices p s.cfgOrder s.bitin)
    sigPad := BitVec.ofNat 2 (padCount (width s.cfgOrder) s.bitin.length)
    bitin := [] }

/-- MOD runs where the configuration is legal and the samples, counted as R159 does, fit. -/
theorem modCmd_eq_modulated {p : Params} {s : State} (hwave : waveConfigLegal p s = true)
    (fits : (s.bitin.length + s.cfgOrder.toNat) / (s.cfgOrder.toNat + 1) * s.cfgNsps.toNat ≤ p.caps.sigCap) :
    modCmd p s = modulated p s := by
  rw [← symbolCount_width] at fits
  exact modCmd_fits hwave fits

/-- The Signal holds `N` samples a symbol (R155). -/
theorem modulated_sig_length (p : Params) (s : State) :
    (modulated p s).sig.length = symbolCount (width s.cfgOrder) s.bitin.length * s.cfgNsps.toNat := by
  rw [modulated, synthesize_length, phaseIndices_length]

theorem modulated_sigPad (p : Params) (s : State) :
    (modulated p s).sigPad.toNat = padCount (width s.cfgOrder) s.bitin.length := padCount_toNat ..

/-- Settles O27: the Signal holds `S` symbols, and `S·w` is the number of bits and padding bits. -/
theorem modRecordsTheBitCount : Obligations.ModRecordsTheBitCount := by
  intro p s hN hAmp symbols fits t
  have hw := width_pos s.cfgOrder
  have count : symbolCount (width s.cfgOrder) s.bitin.length = symbols := symbolCount_width ..
  have executed : t = modulated p s := modCmd_eq_modulated (waveConfigLegal_of hN hAmp) fits
  have hsig : t.sig.length = symbols * s.cfgNsps.toNat := by rw [executed, modulated_sig_length, count]
  have hpad : t.sigPad.toNat = padCount (width s.cfgOrder) s.bitin.length := by rw [executed, modulated_sigPad]
  have horder : t.cfgOrder = s.cfgOrder := by rw [executed, modulated]
  have hnsps : t.cfgNsps = s.cfgNsps := by rw [executed, modulated]
  refine ⟨hsig, ?whole, ?padding, fun empty => ⟨?noSample, BitVec.eq_of_toNat_eq ?noPadding⟩⟩
  case whole =>
    rw [hsig, hpad, horder, hnsps, Nat.mul_div_cancel _ (by omega), len_add_padCount hw, count]
    rfl
  case padding =>
    rw [hpad, horder]
    exact padCount_lt hw _
  case noSample =>
    have none : symbols = 0 := by simp [symbols, empty, Nat.div_eq_of_lt]
    rw [← List.length_eq_zero_iff, hsig, none, Nat.zero_mul]
  case noPadding => simp [hpad, empty, padCount]

/-- The bits an executed DEMOD leaves: `w` a whole window, less the padding (R208, R210). -/
theorem demodCmd_bitout_length {p : Params} {s : State} (hwave : waveConfigLegal p s = true)
    (hnoise : noiseConfigLegal p s = true) :
    let all := width s.cfgOrder * (s.sig.length / s.cfgNsps.toNat)
    (demodCmd p s).bitout.length = all - min s.sigPad.toNat all := by
  obtain ⟨sym, c, hsym, detected⟩ := detectWindows_eq p s
  obtain ⟨bits, c', d', hbits, decided⟩ := decideSymbols_eq p (symbolNoise p (detectWindows p s))
  rw [demodCmd_legal hwave hnoise, decided, raiseIf_bitout, raiseIf_bitout]
  simpa [symbolNoise_eq, detected, hsym] using hbits

/-- DEMOD gives back as many bits as the Signal and its padding count stand for. -/
theorem demodCmd_recovers_length {p : Params} {s : State} {len : Nat} (hwave : waveConfigLegal p s = true)
    (hnoise : noiseConfigLegal p s = true)
    (hsig : s.sig.length = symbolCount (width s.cfgOrder) len * s.cfgNsps.toNat)
    (hpad : s.sigPad.toNat = padCount (width s.cfgOrder) len) : (demodCmd p s).bitout.length = len := by
  have hN := three_le_of_waveConfigLegal hwave
  have padded := len_add_padCount (width_pos s.cfgOrder) len
  rw [demodCmd_bitout_length hwave hnoise, hsig, hpad, Nat.mul_div_cancel _ (by omega), Nat.mul_comm, ← padded]
  omega

/-- Settles O47: NOISEW changes neither the number of samples nor the padding count that MOD leaves. -/
theorem recoveredLengthIsTheOriginalLength : Obligations.RecoveredLengthIsTheOriginalLength := by
  intro p s hN hAmp hNs fits
  have hwave := waveConfigLegal_of hN hAmp
  have hsig := modulated_sig_length p s
  have hpad := modulated_sigPad p s
  simp only [command, modCmd_eq_modulated hwave fits]
  constructor
  · exact demodCmd_recovers_length hwave hNs hsig hpad
  · have noisy : noisewCmd p (modulated p s) = waveformNoise p (modulated p s) := noisewCmd_legal hNs
    rw [noisy]
    exact demodCmd_recovers_length hwave hNs ((addWaveformNoise_length ..).trans hsig) hpad

end Sys2Proof.Machine
end

section
/-! The channel over the reals (R172 to R178): zero strength, and the laws of the noise under GAUSS_IID. -/

namespace Sys2Proof

open Sys2Proof.Machine

section IsReal
variable {num : Numeric} {v : NumVal → ℝ} (h : num.IsReal v)
include h

/-- The scale of the symbol noise (R175). -/
theorem Numeric.IsReal.symbolSigma {ns : NumVal} (hns : 0 ≤ v ns) : v (symbolSigma ns) = Real.sqrt (v ns / 2) := by
  have half : v (.div ns (.ofNat 2)) = v ns / 2 := by
    rw [h.div _ _ (by simp [h.ofNat]), h.ofNat]
    rfl
  rw [Machine.symbolSigma, h.sqrt _ (by rw [half]; positivity), half]

/-- A value with a scaled draw added. -/
theorem Numeric.IsReal.add_scaled (a scale draw : NumVal) :
    v (.add a (.mul scale draw)) = v a + v scale * v draw := by
  rw [h.add, h.mul]

/-- Zero strength adds 0 to every sample (R178). -/
theorem Numeric.IsReal.addWaveformNoise_zero {ns : NumVal} (hns : v ns = 0) (draw : Nat → NumVal)
    (samples : List NumVal) : (addWaveformNoise ns draw samples).map v = samples.map v := by
  apply List.ext_getElem?
  simp [addWaveformNoise, Function.comp_def, h.add_scaled, hns]

/-- Zero strength adds 0 to both parts of every symbol (R178). -/
theorem Numeric.IsReal.addSymbolNoise_zero {ns : NumVal} (hns : v ns = 0) (draw : Nat → NumVal)
    (symbols : List Cplx) : (addSymbolNoise ns draw symbols).map (fun z => (v z.re, v z.im)) =
      symbols.map (fun z => (v z.re, v z.im)) := by
  have sigma : v (Machine.symbolSigma ns) = 0 := by rw [h.symbolSigma hns.ge, hns, zero_div, Real.sqrt_zero]
  apply List.ext_getElem?
  simp [addSymbolNoise, Function.comp_def, h.add_scaled, sigma]

end IsReal

end Sys2Proof

namespace Sys2Proof.Machine

open Sys2Proof.Claims

/-- Over the reals a strength of at least 0 is legal (R27). -/
theorem noiseConfigLegal_of_nonneg {p : Params} {v : NumVal → ℝ} (h : p.num.IsReal v) {s : State}
    (hns : 0 ≤ v s.cfgNs) : noiseConfigLegal p s = true := by
  rwa [noiseConfigLegal, h.atMost_iff, h.zero]

/-- Settles O31: a strength of 0 is legal, and scales every draw to 0. -/
theorem zeroStrengthLeavesTheData : Obligations.ZeroStrengthLeavesTheData := by
  intro p v s h hns
  have legal := noiseConfigLegal_of_nonneg h hns.ge
  rw [noisewCmd_legal legal, noisesCmd_legal legal]
  exact ⟨h.addWaveformNoise_zero hns _ _, rfl, h.addSymbolNoise_zero hns _ _, rfl⟩

/-! ### The laws of the noise -/

section Gaussian
open MeasureTheory ProbabilityTheory

/-- Draws scaled and added to fixed values, each draw once, are normal with these values as means and independent. -/
theorem GaussIid.affine {Ω ι : Type} [MeasurableSpace Ω] {μ : Measure Ω} {draw : Nat → Ω → ℝ} (h : GaussIid μ draw)
    {g : ι → Nat} (hg : g.Injective) (mean : ι → ℝ) (scale : ℝ) :
    (∀ i, HasLaw (fun ω => mean i + scale * draw (g i) ω) (gaussianReal (mean i) (scale ^ 2).toNNReal) μ) ∧
      iIndepFun (fun i ω => mean i + scale * draw (g i) ω) μ := by
  constructor
  · intro i
    have law := gaussianReal_const_add (gaussianReal_const_mul (h.standard_normal (g i)) scale) (mean i)
    rwa [mul_zero, zero_add, mul_one, ← Real.toNNReal_of_nonneg (sq_nonneg scale)] at law
  · exact (h.independent.precomp hg).comp (fun i x => mean i + scale * x) fun i => by fun_prop

/-- The draws of the parts of the symbols: the real part of symbol `j` takes draw `2j`, its imaginary part the next
(R171). -/
def partDraw {n : Nat} (k : Fin n × Bool) : Nat := 2 * k.1 + k.2.toNat

theorem partDraw_injective {n : Nat} : (partDraw : Fin n × Bool → Nat).Injective := by
  rintro ⟨i, a⟩ ⟨j, b⟩ same
  have draws : 2 * (i : Nat) + a.toNat = 2 * j + b.toNat := same
  have ha := a.toNat_le
  have hb := b.toNat_le
  have index : (i : Nat) = j := by omega
  have part : a = b := by cases a <;> cases b <;> simp_all
  rw [Fin.ext index, part]

/-- A sample after a legal NOISEW, over the reals (R173). -/
theorem noisewCmd_sample {p : Params} {v : NumVal → ℝ} (h : p.num.IsReal v) {s : State} (hns : 0 ≤ v s.cfgNs) {i : Nat}
    {x : NumVal} (hx : s.sig[i]? = some x) : v ((noisewCmd p s).sig.getD i .zero) =
      v x + v s.cfgNs * v (p.gauss (s.drawPos + i)) := by
  rw [noisewCmd_legal (noiseConfigLegal_of_nonneg h hns), waveformNoise_eq, List.getD_eq_getElem?_getD,
    addWaveformNoise_getElem? hx, Option.getD_some, h.add_scaled, nextDraw]

/-- The parts of a symbol after a legal NOISES, over the reals (R175). -/
theorem noisesCmd_symbol {p : Params} {v : NumVal → ℝ} (h : p.num.IsReal v) {s : State} (hns : 0 ≤ v s.cfgNs) {j : Nat}
    {z : Cplx} (hz : s.sym[j]? = some z) :
    let noisy := (noisesCmd p s).sym.getD j ⟨.zero, .zero⟩
    v noisy.re = v z.re + Real.sqrt (v s.cfgNs / 2) * v (p.gauss (s.drawPos + 2 * j)) ∧
    v noisy.im = v z.im + Real.sqrt (v s.cfgNs / 2) * v (p.gauss (s.drawPos + (2 * j + 1))) := by
  rw [noisesCmd_legal (noiseConfigLegal_of_nonneg h hns), symbolNoise_eq, List.getD_eq_getElem?_getD,
    addSymbolNoise_getElem? hz, Option.getD_some, ← h.symbolSigma hns]
  exact ⟨h.add_scaled _ _ _, h.add_scaled _ _ _⟩

/-- Settles O32: each value is its old value plus a scaled draw of its own. -/
theorem noiseIsGaussianOnTwoScales : Obligations.NoiseIsGaussianOnTwoScales := by
  intro Ω _ μ _ p v s ns x re im h draws hns strength hsig hsym sample part
  have legal (ω : Ω) : 0 ≤ v ω s.cfgNs := (strength ω).symm ▸ hns
  have samples : sample = fun (i : Fin s.sig.length) ω => x i + ns * v ω ((p ω).gauss (s.drawPos + i)) := by
    funext i ω
    have old : s.sig[(i : Nat)]? = some s.sig[i] := List.getElem?_eq_getElem i.isLt
    rw [← hsig i _ old ω, ← strength ω]
    exact noisewCmd_sample (h ω) (legal ω) old
  have parts : part = fun k ω => (if k.2 then im k.1 else re k.1) +
      Real.sqrt (ns / 2) * v ω ((p ω).gauss (s.drawPos + partDraw k)) := by
    funext ⟨j, imaginary⟩ ω
    have old : s.sym[(j : Nat)]? = some s.sym[j] := List.getElem?_eq_getElem j.isLt
    obtain ⟨hre, him⟩ := noisesCmd_symbol (h ω) (legal ω) old
    rw [(hsym j _ old ω).1, strength ω] at hre
    rw [(hsym j _ old ω).2, strength ω] at him
    cases imaginary
    · exact hre
    · exact him
  rw [samples, parts]
  obtain ⟨sampleLaws, samplesIndependent⟩ := draws.affine Fin.val_injective (fun i : Fin s.sig.length => x i) ns
  obtain ⟨partLaws, partsIndependent⟩ := draws.affine partDraw_injective
    (fun k : Fin s.sym.length × Bool => if k.2 then im k.1 else re k.1) (Real.sqrt (ns / 2))
  rw [Real.sq_sqrt (by positivity)] at partLaws
  exact ⟨sampleLaws, samplesIndependent, partLaws, partsIndependent⟩

end Gaussian

end Sys2Proof.Machine
end

section
/-! Windows (R191): the ragged remainder, and the windows that are degenerate (R198). -/

namespace Sys2Proof.Machine

open Sys2Proof.Claims

/-- The windows of the whole windows alone are those of all samples (R191). -/
theorem windows_take_whole (n : Nat) (samples : List NumVal) :
    windows n (samples.take (samples.length / n * n)) = windows n samples := by
  have kept : (samples.take (samples.length / n * n)).length = samples.length / n * n := by
    rw [List.length_take, Nat.min_eq_left (Nat.div_mul_le_self ..)]
  have count : samples.length / n * n / n = samples.length / n := by
    rcases Nat.eq_zero_or_pos n with rfl | hn
    · rw [Nat.div_zero, Nat.div_zero]
    · exact Nat.mul_div_cancel _ hn
  unfold windows
  rw [kept, count]
  refine List.map_congr_left fun j hj => ?_
  have inside : (j + 1) * n ≤ samples.length / n * n := Nat.mul_le_mul_right n (List.mem_range.1 hj)
  rw [Nat.succ_mul] at inside
  rw [List.drop_take, List.take_take, Nat.min_eq_left (by omega)]

/-- DETECT on the whole windows alone leaves what it leaves on all samples, but for the samples. -/
theorem detectCmd_whole (p : Params) (s : State) :
    let whole := s.sig.take (s.sig.length / s.cfgNsps.toNat * s.cfgNsps.toNat)
    detectCmd p { s with sig := whole } = { detectCmd p s with sig := whole } := by
  intro whole
  have same : windows s.cfgNsps.toNat whole = windows s.cfgNsps.toNat s.sig := windows_take_whole ..
  have config : waveConfigLegal p { s with sig := whole } = waveConfigLegal p s := rfl
  unfold detectCmd
  rw [config]
  split
  · simp only [detectWindows, same, raiseIf_eq]
  · rfl

/-- Settles O34: the whole windows are finite with the rest, and their windows are the same. -/
theorem windowsIgnoreTheRaggedRemainder : Obligations.WindowsIgnoreTheRaggedRemainder := by
  intro s t ht whole
  obtain ⟨finite, rfl⟩ := exec_next_iff.1 ht
  obtain ⟨hAmp, hsig⟩ := List.forall_mem_cons.1 finite
  exact exec_next_iff.2 ⟨List.forall_mem_cons.2 ⟨hAmp, fun x hx => hsig x (List.mem_of_mem_take hx)⟩,
    detectCmd_whole Config.machine s⟩

/-! ### Degenerate windows -/

theorem realDot_eq_zero {x : List ℝ} (hx : ∀ a ∈ x, a = 0) (y : List ℝ) : realDot x y = 0 := by
  induction x generalizing y with
  | nil => rfl
  | cons a x ih =>
    obtain ⟨ha, hx⟩ := List.forall_mem_cons.1 hx
    cases y with
    | nil => rfl
    | cons b y =>
      have tail : (List.zipWith (· * ·) x y).sum = 0 := ih hx y
      simp [realDot, ha, tail]

/-- A sequence of zeros has no norm. -/
theorem normProduct_eq_zero {x : List ℝ} (hx : ∀ a ∈ x, a = 0) (y : List ℝ) : normProduct x y = 0 := by
  rw [normProduct, realDot_eq_zero hx, zero_mul, Real.sqrt_zero]

/-- A coefficient whose denominator is 0 is 0 (R198). -/
theorem realNcorr_eq_zero {x y : List ℝ} (h : normProduct x y = 0) : realNcorr x y = 0 := if_pos h

/-- A sequence of equal values is 0 once its mean is removed. -/
theorem realCentred_eq_zero {x : List ℝ} {c : ℝ} (hx : ∀ a ∈ x, a = c) : ∀ a ∈ realCentred x, a = 0 := by
  intro a ha
  obtain ⟨b, hb, rfl⟩ := List.mem_map.1 ha
  have filled : (x.length : ℝ) ≠ 0 := by exact_mod_cast (List.length_pos_of_mem hb).ne'
  rw [List.sum_eq_card_nsmul x c hx, hx b hb, nsmul_eq_mul]
  field_simp
  ring

/-- Settles O39: the denominators of a window without norm are 0, so the coefficients are, and the first index is
selected. -/
theorem degenerateWindowsTakeTheFallback : Obligations.DegenerateWindowsTakeTheFallback := by
  intro p v n amp window h hn hlen
  refine ⟨fun zeros => ?bpsk, fun bps1 c horder equal => ?higher⟩
  case bpsk =>
    intro est
    have zeros' : ∀ a ∈ window.map v, a = 0 := List.forall_mem_map.2 zeros
    have norm := normProduct_eq_zero zeros' ((reference 0 n amp (assign p 0 1)).map v)
    obtain ⟨hre, him, -, degenerate⟩ := bpskEstimateOverTheReals p v n amp window h hn hlen
    rw [realNcorr_eq_zero norm] at hre him
    have bit : p.num.less .zero est.1.re = false := by
      rw [← Bool.not_eq_true, h.less_iff, h.zero, hre]
      exact lt_irrefl 0
    refine ⟨degenerate.2 norm, hre, him.trans (by simp), ?_⟩
    rw [symbolBits, if_pos rfl, bit]
  case higher =>
    intro est
    have centred : ∀ a ∈ realCentred (window.map v), a = 0 := realCentred_eq_zero (List.forall_mem_map.2 equal)
    have norm := normProduct_eq_zero centred
    obtain ⟨k, -, -, first, hre, him, degenerate⟩ :=
      higherOrderEstimateOverTheReals p v bps1 n amp window h horder hn hlen
    obtain rfl : k = 0 := by
      by_contra hk
      have below := first 0 (Nat.pos_of_ne_zero hk)
      simp [realPearson, realNcorr_eq_zero (norm _)] at below
    exact ⟨degenerate.2 ⟨0, points_pos bps1, norm _⟩, hre, him⟩

end Sys2Proof.Machine
end

section
/-! The references over the reals (R153, R192): their correlations are cosines (R200), and a clean symbol is detected
as itself (R201). -/

namespace Sys2Proof

open Sys2Proof.Machine Sys2Proof.Claims

/-! ### Sums over a whole number of turns -/

/-- The cosine summed over `n` equal steps that make up `m` turns is 0, unless each step is a whole turn. -/
theorem sum_cos_turns {n m : Nat} (hn : n ≠ 0) (hm : ¬ n ∣ m) (c : ℝ) :
    ∑ i ∈ Finset.range n, Real.cos (m * (i / n * (2 * Real.pi)) + c) = 0 := by
  have root := Complex.isPrimitiveRoot_exp n hn
  have step : Complex.exp (2 * Real.pi * Complex.I / n) ^ m ≠ 1 := mt (root.pow_eq_one_iff_dvd m).1 hm
  have closed : (Complex.exp (2 * Real.pi * Complex.I / n) ^ m) ^ n = 1 := by
    rw [pow_right_comm, root.pow_eq_one, one_pow]
  have turns : ∑ i ∈ Finset.range n, (Complex.exp (2 * Real.pi * Complex.I / n) ^ m) ^ i = 0 := by
    rw [geom_sum_eq step, closed, sub_self, zero_div]
  have term (i : Nat) : Real.cos (m * (i / n * (2 * Real.pi)) + c) =
      (Complex.exp (c * Complex.I) * (Complex.exp (2 * Real.pi * Complex.I / n) ^ m) ^ i).re := by
    rw [← Complex.exp_nat_mul, ← Complex.exp_nat_mul, ← Complex.exp_add, ← Complex.exp_ofReal_mul_I_re]
    congr 2
    push_cast
    ring
  rw [Finset.sum_congr rfl fun i _ => term i, ← Complex.re_sum, ← Finset.mul_sum, turns, mul_zero, Complex.zero_re]

/-- The sine summed over a whole turn. -/
theorem sum_sin_turn {n : Nat} (hn : 2 ≤ n) (a : ℝ) :
    ∑ i ∈ Finset.range n, Real.sin (i / n * (2 * Real.pi) + a) = 0 := by
  have shifted (i : Nat) : Real.sin (i / n * (2 * Real.pi) + a) =
      Real.cos ((1 : Nat) * (i / n * (2 * Real.pi)) + (a - Real.pi / 2)) := by
    rw [← Real.cos_sub_pi_div_two]
    congr 1
    push_cast
    ring
  rw [Finset.sum_congr rfl fun i _ => shifted i]
  exact sum_cos_turns (by omega) (Nat.not_dvd_of_pos_of_lt one_pos (by omega)) _

/-- Two sines of one frequency over a whole turn: half the cosine of the phase difference, for each step. -/
theorem sum_sin_mul_sin_turn {n : Nat} (hn : 3 ≤ n) (a b : ℝ) :
    ∑ i ∈ Finset.range n, Real.sin (i / n * (2 * Real.pi) + a) * Real.sin (i / n * (2 * Real.pi) + b) =
      n / 2 * Real.cos (a - b) := by
  have product (i : Nat) : Real.sin (i / n * (2 * Real.pi) + a) * Real.sin (i / n * (2 * Real.pi) + b) =
      Real.cos (a - b) / 2 - Real.cos ((2 : Nat) * (i / n * (2 * Real.pi)) + (a + b)) / 2 := by
    have difference : a - b = (i / n * (2 * Real.pi) + a) - (i / n * (2 * Real.pi) + b) := by ring
    have sum : ((2 : Nat) : ℝ) * (i / n * (2 * Real.pi)) + (a + b) =
        (i / n * (2 * Real.pi) + a) + (i / n * (2 * Real.pi) + b) := by
      push_cast
      ring
    rw [difference, sum, ← sub_div, ← Real.two_mul_sin_mul_sin]
    ring
  have doubled := sum_cos_turns (m := 2) (by omega) (Nat.not_dvd_of_pos_of_lt two_pos (by omega : 2 < n)) (a + b)
  rw [Finset.sum_congr rfl fun i _ => product i, Finset.sum_sub_distrib, ← Finset.sum_div, ← Finset.sum_div, doubled,
    Finset.sum_const, Finset.card_range, nsmul_eq_mul]
  ring

/-! ### References -/

/-- The samples of a symbol as real numbers (R153). -/
noncomputable def realReference (n : Nat) (amp phase : ℝ) : List ℝ :=
  (List.range n).map fun i : Nat => amp * Real.sin (i / n * (2 * Real.pi) + phase)

@[simp] theorem realReference_length (n : Nat) (amp phase : ℝ) : (realReference n amp phase).length = n := by
  simp [realReference]

/-- A reference has the mean 0, so centring leaves it (R200). -/
theorem realCentred_realReference {n : Nat} (hn : 2 ≤ n) (amp phase : ℝ) :
    realCentred (realReference n amp phase) = realReference n amp phase := by
  have terms : (realReference n amp phase).sum =
      ∑ i ∈ Finset.range n, amp * Real.sin (i / n * (2 * Real.pi) + phase) := rfl
  have sum : (realReference n amp phase).sum = 0 := by rw [terms, ← Finset.mul_sum, sum_sin_turn hn, mul_zero]
  simp [realCentred, sum]

/-- The dot product of two references (R200). -/
theorem realDot_realReference {n : Nat} (hn : 3 ≤ n) (amp a b : ℝ) :
    realDot (realReference n amp a) (realReference n amp b) = amp ^ 2 * (n / 2 * Real.cos (a - b)) := by
  have entry {i : Nat} (hi : i < n) (phase : ℝ) : (realReference n amp phase).getD i 0 =
      amp * Real.sin (i / n * (2 * Real.pi) + phase) := by
    simp [realReference, hi]
  rw [realDot_eq_sum (realReference_length ..) (realReference_length ..), ← sum_sin_mul_sin_turn hn, Finset.mul_sum]
  refine Finset.sum_congr rfl fun i hi => ?_
  rw [entry (Finset.mem_range.1 hi), entry (Finset.mem_range.1 hi)]
  ring

/-- The product of the norms of two references. -/
theorem normProduct_realReference {n : Nat} (hn : 3 ≤ n) (amp a b : ℝ) :
    normProduct (realReference n amp a) (realReference n amp b) = amp ^ 2 * (n / 2) := by
  rw [normProduct, realDot_realReference hn, realDot_realReference hn, sub_self, sub_self, Real.cos_zero, mul_one]
  exact Real.sqrt_mul_self (by positivity)

/-- Two references correlate as the cosine of their phase difference (R200). -/
theorem realNcorr_realReference {n : Nat} (hn : 3 ≤ n) {amp : ℝ} (hamp : 0 < amp) (a b : ℝ) :
    normProduct (realReference n amp a) (realReference n amp b) ≠ 0 ∧
      realNcorr (realReference n amp a) (realReference n amp b) = Real.cos (a - b) := by
  have hn' : (0 : ℝ) < n := by exact_mod_cast (by omega : 0 < n)
  have norm : normProduct (realReference n amp a) (realReference n amp b) ≠ 0 := by
    rw [normProduct_realReference hn]
    positivity
  refine ⟨norm, ?_⟩
  rw [realNcorr, if_neg norm, realDot_realReference hn, normProduct_realReference hn]
  field_simp

section IsReal
variable {num : Numeric} {v : NumVal → ℝ} (h : num.IsReal v)
include h

/-- The real values of a reference (R153, R192). -/
theorem Numeric.IsReal.map_reference (bps1 : BitVec 2) (n : Nat) (amp : NumVal) (k : Nat) :
    (reference bps1 n amp k).map v = realReference n (v amp) (theta (points bps1) k) := by
  rw [reference, refSymbol, realReference, List.map_map]
  refine List.map_congr_left fun i hi => ?_
  have steps : v (.ofNat n) ≠ 0 := by
    rw [h.ofNat]
    exact_mod_cast (Nat.zero_lt_of_lt (List.mem_range.1 hi)).ne'
  rw [Function.comp_apply, sampleAt, h.mul, h.sin, h.add, h.mul, h.div _ _ steps, h.ofNat, h.ofNat, h.twoPi,
    h.nominalPhase (points_pos bps1)]

end IsReal

end Sys2Proof

namespace Sys2Proof.Machine

open Sys2Proof.Claims

@[simp] theorem reference_length (bps1 : BitVec 2) (n : Nat) (amp : NumVal) (k : Nat) :
    (reference bps1 n amp k).length = n := refSymbol_length ..

/-- Settles O40: the dot products are sums over one turn, and centring leaves the references. -/
theorem referencesCorrelateAsCosines : Obligations.ReferencesCorrelateAsCosines := by
  intro p v bps1 n amp j k h hn hamp u w
  have hpos : 0 < n := by omega
  have hu : u.length = n := reference_length ..
  have hw : w.length = n := reference_length ..
  obtain ⟨norm, value⟩ :=
    realNcorr_realReference hn hamp (theta (points bps1) j) (theta (points bps1) k)
  have centred (a : ℝ) := realCentred_realReference (by omega : 2 ≤ n) (v amp) a
  have plain := h.ncorr_snd u w
  have pearsons := h.pearson_snd hpos hu hw
  rw [h.ncorr_fst, h.pearson_fst hpos hu hw, realPearson]
  rw [h.map_reference, h.map_reference] at plain pearsons ⊢
  rw [centred, centred] at pearsons ⊢
  exact ⟨value, value, Bool.eq_false_iff.2 (mt plain.1 norm), Bool.eq_false_iff.2 (mt pearsons.1 norm)⟩

/-- Two nominal phases of one order that differ by no more than whole turns are the same. -/
theorem eq_of_cos_theta_sub {m j k : Nat} (hj : j < m) (hk : k < m) (h : Real.cos (theta m j - theta m k) = 1) :
    j = k := by
  obtain ⟨jlo, jhi, -, -⟩ := inRegion_theta hj
  obtain ⟨klo, khi, -, -⟩ := inRegion_theta hk
  have equal := sub_eq_zero.1 ((Real.cos_eq_one_iff_of_lt_of_lt (by linarith) (by linarith)).1 h)
  have hm : (m : ℝ) ≠ 0 := by exact_mod_cast (Nat.zero_lt_of_lt hk).ne'
  rw [theta, theta, div_left_inj' hm, mul_left_inj' Real.pi_ne_zero] at equal
  have same : (j : ℝ) = k := by linarith
  exact_mod_cast same

/-- The two phases of order 2 are opposite. -/
theorem cos_theta_sub_of_ne {j k : Nat} (hj : j < 2) (hk : k < 2) (h : j ≠ k) :
    Real.cos (theta 2 j - theta 2 k) = -1 := by
  have difference : theta 2 j - theta 2 k = (j - k) * Real.pi := by
    unfold theta
    push_cast
    ring
  obtain ⟨rfl, rfl⟩ | ⟨rfl, rfl⟩ : j = 0 ∧ k = 1 ∨ j = 1 ∧ k = 0 := by omega
  · simp [difference]
  · simp [difference]

section
variable {p : Params} {v : NumVal → ℝ} (h : p.num.IsReal v) {n : Nat} {amp : NumVal} (hn : 3 ≤ n) (hamp : 0 < v amp)
include h hn hamp

/-- A clean symbol of order 2 (R201). -/
theorem estimate_reference_bpsk {k : Nat} (hk : k < points 0) :
    let est := estimate p 0 n amp (reference 0 n amp k)
    est.2 = false ∧ v est.1.re = (if k = assign p 0 1 then 1 else -1) ∧ v est.1.im = 0 := by
  obtain ⟨norm, value⟩ := realNcorr_realReference hn hamp (theta (points 0) k) (theta (points 0) (assign p 0 1))
  have sign : Real.cos (theta (points 0) k - theta (points 0) (assign p 0 1)) =
      if k = assign p 0 1 then 1 else -1 := by
    split
    · next same => rw [same, sub_self, Real.cos_zero]
    · next other => exact cos_theta_sub_of_ne hk (assign_lt p 0 1) other
  obtain ⟨hre, him, -, degenerate⟩ :=
    bpskEstimateOverTheReals p v n amp _ h (by omega) (reference_length 0 n amp k)
  rw [h.map_reference, h.map_reference, value, sign] at hre him
  rw [h.map_reference, h.map_reference] at degenerate
  refine ⟨Bool.eq_false_iff.2 (mt degenerate.1 norm), hre, him.trans ?_⟩
  split <;> simp

/-- A clean symbol of order 4, 8 or 16 (R200). -/
theorem estimate_reference_higher {bps1 : BitVec 2} (horder : bps1 ≠ 0) {k : Nat} (hk : k < points bps1) :
    let est := estimate p bps1 n amp (reference bps1 n amp k)
    est.2 = false ∧ v est.1.re = Real.cos (theta (points bps1) k) ∧
      v est.1.im = Real.sin (theta (points bps1) k) := by
  have centred (j : Nat) : realCentred ((reference bps1 n amp j).map v) =
      realReference n (v amp) (theta (points bps1) j) := by
    rw [h.map_reference, realCentred_realReference (by omega)]
  have coefficient (j : Nat) := realNcorr_realReference hn hamp (theta (points bps1) k) (theta (points bps1) j)
  obtain ⟨j, hj, max, -, hre, him, degenerate⟩ :=
    higherOrderEstimateOverTheReals p v bps1 n amp _ h horder (by omega) (reference_length bps1 n amp k)
  have own := max k hk
  simp only [realPearson, centred, (coefficient _).2, sub_self, Real.cos_zero] at own
  obtain rfl := eq_of_cos_theta_sub hk hj (le_antisymm (Real.cos_le_one _) own)
  refine ⟨Bool.eq_false_iff.2 (mt degenerate.1 ?_), hre, him⟩
  rintro ⟨i, -, zero⟩
  rw [centred, centred] at zero
  exact (coefficient i).1 zero

end

/-- Settles O41: the coefficient of a symbol with a reference is the cosine of their phase difference, which is 1 for
its own reference only. -/
theorem cleanSymbolsAreDetected : Obligations.CleanSymbolsAreDetected := by
  intro p v bps1 n amp k h hn hamp hk
  by_cases horder : bps1 = 0
  · subst horder
    obtain ⟨clean, point⟩ := estimate_reference_bpsk h hn hamp hk
    exact ⟨clean, fun _ => point, fun higher => absurd rfl higher⟩
  · obtain ⟨clean, point⟩ := estimate_reference_higher h hn hamp horder hk
    exact ⟨clean, fun bpsk => absurd bpsk horder, fun _ => point⟩

end Sys2Proof.Machine
end

section
/-! What the demodulator's results depend on over the reals: the points that the symbols are (R203 to R207), not the
amplitude of the references (R212). -/

namespace Sys2Proof

open Sys2Proof.Machine Sys2Proof.Claims

/-! ### A scaled sequence correlates the same -/

theorem realDot_comm (x y : List ℝ) : realDot x y = realDot y x := by
  rw [realDot, realDot, List.zipWith_comm]
  simp only [mul_comm]

theorem sum_map_const_mul (x : List ℝ) (c : ℝ) : (x.map (c * ·)).sum = c * x.sum := by
  rw [List.sum_map_mul_left, List.map_id']

theorem realDot_map_mul (x y : List ℝ) (c : ℝ) : realDot x (y.map (c * ·)) = c * realDot x y := by
  rw [realDot, realDot, List.zipWith_map_right, ← sum_map_const_mul, List.map_zipWith]
  simp only [mul_left_comm]

theorem normProduct_map_mul (x y : List ℝ) {c : ℝ} (hc : 0 ≤ c) :
    normProduct x (y.map (c * ·)) = c * normProduct x y := by
  have square : realDot (y.map (c * ·)) (y.map (c * ·)) = c ^ 2 * realDot y y := by
    rw [realDot_map_mul, realDot_comm, realDot_map_mul]
    ring
  rw [normProduct, normProduct, square, mul_left_comm, Real.sqrt_mul (sq_nonneg c), Real.sqrt_sq hc]

theorem realNcorr_map_mul (x y : List ℝ) {c : ℝ} (hc : 0 < c) : realNcorr x (y.map (c * ·)) = realNcorr x y := by
  unfold realNcorr
  rw [normProduct_map_mul x y hc.le, realDot_map_mul, mul_div_mul_left _ _ hc.ne']
  simp only [mul_eq_zero, hc.ne', false_or]

theorem realCentred_map_mul (y : List ℝ) (c : ℝ) : realCentred (y.map (c * ·)) = (realCentred y).map (c * ·) := by
  simp only [realCentred, List.map_map, List.length_map]
  refine List.map_congr_left fun a _ => ?_
  simp only [Function.comp_apply, sum_map_const_mul]
  ring

section IsReal
variable {num : Numeric} {v : NumVal → ℝ} (h : num.IsReal v)
include h

/-- The references of two amplitudes are multiples of each other. -/
theorem Numeric.IsReal.map_reference_amp (bps1 : BitVec 2) (n : Nat) {amp amp' : NumVal} (hamp : 0 < v amp) (k : Nat) :
    (reference bps1 n amp' k).map v = ((reference bps1 n amp k).map v).map (v amp' / v amp * ·) := by
  rw [h.map_reference, h.map_reference, realReference, realReference, List.map_map]
  refine List.map_congr_left fun i _ => ?_
  rw [Function.comp_apply]
  field_simp

end IsReal

end Sys2Proof

namespace Sys2Proof.Machine

open Sys2Proof.Claims

/-- The point of the plane that a symbol is. -/
def realPoint (v : NumVal → ℝ) (z : Cplx) : ℝ × ℝ := (v z.re, v z.im)

/-! ### Estimates -/

section
variable {p : Params} {v : NumVal → ℝ} (h : p.num.IsReal v) {n : Nat} {amp amp' : NumVal} {window : List NumVal}
  (hn : 0 < n) (hamp : 0 < v amp) (hamp' : 0 < v amp') (hlen : window.length = n)
include h hn hamp hamp' hlen

/-- The order-2 estimate does not depend on the amplitude. -/
theorem estimate_bpsk_amp : realPoint v (estimate p 0 n amp' window).1 = realPoint v (estimate p 0 n amp window).1 ∧
    (estimate p 0 n amp' window).2 = (estimate p 0 n amp window).2 := by
  have hc : 0 < v amp' / v amp := div_pos hamp' hamp
  obtain ⟨hre, him, -, degenerate⟩ := bpskEstimateOverTheReals p v n amp window h hn hlen
  obtain ⟨hre', him', -, degenerate'⟩ := bpskEstimateOverTheReals p v n amp' window h hn hlen
  rw [h.map_reference_amp 0 n hamp, realNcorr_map_mul _ _ hc] at hre' him'
  rw [h.map_reference_amp 0 n hamp, normProduct_map_mul _ _ hc.le, mul_eq_zero, or_iff_right hc.ne'] at degenerate'
  exact ⟨Prod.ext (hre'.trans hre.symm) (him'.trans him.symm), Bool.eq_iff_iff.2 (degenerate'.trans degenerate.symm)⟩

/-- The estimate of order 4, 8 or 16 does not depend on the amplitude: the first maximum is one index. -/
theorem estimate_higher_amp {bps1 : BitVec 2} (horder : bps1 ≠ 0) :
    realPoint v (estimate p bps1 n amp' window).1 = realPoint v (estimate p bps1 n amp window).1 ∧
      (estimate p bps1 n amp' window).2 = (estimate p bps1 n amp window).2 := by
  have hc : 0 < v amp' / v amp := div_pos hamp' hamp
  obtain ⟨k, hk, max, first, hre, him, degenerate⟩ :=
    higherOrderEstimateOverTheReals p v bps1 n amp window h horder hn hlen
  obtain ⟨k', hk', max', first', hre', him', degenerate'⟩ :=
    higherOrderEstimateOverTheReals p v bps1 n amp' window h horder hn hlen
  simp only [h.map_reference_amp (amp' := amp') bps1 n hamp, realPearson, realCentred_map_mul, realNcorr_map_mul _ _ hc,
    normProduct_map_mul _ _ hc.le, mul_eq_zero, hc.ne', false_or] at max' first' degenerate'
  obtain rfl : k' = k := by
    rcases lt_trichotomy k' k with below | same | above
    · exact absurd (first k' below) (not_lt.2 (max' k hk))
    · exact same
    · exact absurd (first' k above) (not_lt.2 (max k' hk'))
  exact ⟨Prod.ext (hre'.trans hre.symm) (him'.trans him.symm), Bool.eq_iff_iff.2 (degenerate'.trans degenerate.symm)⟩

/-- The estimate of a window does not depend on the amplitude (R212). -/
theorem estimate_amp (bps1 : BitVec 2) :
    (realPoint v (estimate p bps1 n amp' window).1, (estimate p bps1 n amp' window).2) =
      (realPoint v (estimate p bps1 n amp window).1, (estimate p bps1 n amp window).2) := by
  by_cases horder : bps1 = 0
  · subst horder
    exact Prod.ext_iff.2 (estimate_bpsk_amp h hn hamp hamp' hlen)
  · exact Prod.ext_iff.2 (estimate_higher_amp h hn hamp hamp' hlen horder)

end

/-- A window is a whole one (R191). -/
theorem length_of_mem_windows {n : Nat} {samples window : List NumVal} (hw : window ∈ windows n samples) :
    window.length = n := by
  obtain ⟨j, hj, rfl⟩ := List.mem_map.1 hw
  have inside : (j + 1) * n ≤ samples.length :=
    (Nat.mul_le_mul_right n (List.mem_range.1 hj)).trans (Nat.div_mul_le_self ..)
  rw [Nat.succ_mul] at inside
  rw [List.length_take, List.length_drop]
  omega

/-- The detector finds the same points and the same degenerate windows at every amplitude (R212). -/
theorem detectWindows_amp {p : Params} {v : NumVal → ℝ} (h : p.num.IsReal v) {s : State} {amp : NumVal}
    (hN : 3 ≤ s.cfgNsps.toNat) (hamp : 0 < v s.cfgAmp) (hamp' : 0 < v amp) :
    (detectWindows p { s with cfgAmp := amp }).sym.map (realPoint v) = (detectWindows p s).sym.map (realPoint v) ∧
    (detectWindows p { s with cfgAmp := amp }).status = (detectWindows p s).status := by
  have each (w) (hw : w ∈ windows s.cfgNsps.toNat s.sig) :=
    estimate_amp h (by omega) hamp hamp' (length_of_mem_windows hw) s.cfgOrder
  have points := List.map_congr_left fun w hw => congrArg Prod.fst (each w hw)
  have flags := List.map_congr_left fun w hw => congrArg Prod.snd (each w hw)
  have degenerate := congrArg (List.any · id) flags
  simp only [List.any_map, Function.id_comp] at degenerate
  simp only [detectWindows, raiseIf_sym, raiseIf_status, List.map_map, List.any_map, Function.comp_def] at degenerate ⊢
  exact ⟨points, by rw [degenerate]⟩

/-! ### Decisions -/

/-- Lists whose elements agree in pairs are mapped to the same concatenation. -/
theorem flatMap_eq_of_map_eq {α β γ δ : Type} {f : α → γ} {f' : β → γ} {g : α → List δ} {g' : β → List δ}
    {xs : List α} {ys : List β} (same : xs.map f = ys.map f') (hg : ∀ x, ∀ y ∈ ys, f x = f' y → g x = g' y) :
    xs.flatMap g = ys.flatMap g' := by
  induction ys generalizing xs with
  | nil => rw [List.map_eq_nil_iff.1 same, List.flatMap_nil, List.flatMap_nil]
  | cons y ys ih =>
    obtain ⟨x, xs, rfl, hx, hxs⟩ := List.map_eq_cons_iff.1 same
    obtain ⟨head, tail⟩ := List.forall_mem_cons.1 fun b hb x => hg x b hb
    rw [List.flatMap_cons, List.flatMap_cons, head x hx, ih hxs fun x b hb => tail b hb x]

section
variable {p : Params} {v : NumVal → ℝ} (h : p.num.IsReal v)
include h

/-- The bits of a symbol depend on its point only (R204, R205). -/
theorem decideSymbol_congr (bps1 : BitVec 2) {z z' : Cplx} (same : realPoint v z = realPoint v z') :
    decideSymbol p bps1 z = decideSymbol p bps1 z' := by
  obtain ⟨hre, him⟩ : v z.re = v z'.re ∧ v z.im = v z'.im := Prod.ext_iff.1 same
  have sign : p.num.less .zero z.re = p.num.less .zero z'.re := by
    rw [Bool.eq_iff_iff, h.less_iff, h.less_iff, hre]
  have region : regionOf p.num (points bps1) (angleOf p.num z) = regionOf p.num (points bps1) (angleOf p.num z') := by
    have inside := h.inRegion_point (points_pos bps1) z'
    rw [← hre, ← him] at inside
    exact h.regionOf_point (points_pos bps1) inside
  rw [decideSymbol, decideSymbol, sign, region]

/-- The recovered bits depend on the order and on the points of the symbols only (R207). -/
theorem recovered_congr {s t : State} (order : s.cfgOrder = t.cfgOrder)
    (same : s.sym.map (realPoint v) = t.sym.map (realPoint v)) : recovered p s = recovered p t := by
  rw [recovered, recovered, order]
  exact flatMap_eq_of_map_eq same fun _ _ _ => decideSymbol_congr h t.cfgOrder

/-- The points after the symbol noise depend on the points before it only (R175). -/
theorem addSymbolNoise_points (ns : NumVal) (draw : Nat → NumVal) (symbols : List Cplx) :
    (addSymbolNoise ns draw symbols).map (realPoint v) =
      (symbols.map (realPoint v)).mapIdx fun j z => (z.1 + v (symbolSigma ns) * v (draw (2 * j)),
        z.2 + v (symbolSigma ns) * v (draw (2 * j + 1))) := by
  apply List.ext_getElem?
  simp [addSymbolNoise, Function.comp_def, realPoint, h.add_scaled]

end

/-- What the decoder writes to `BITOUT` (R208). -/
theorem decideSymbols_bitout (p : Params) (s : State) : (decideSymbols p s).bitout =
    (recovered p s).take ((recovered p s).length - min s.sigPad.toNat (recovered p s).length) := by
  rw [decideSymbols, raiseIf_bitout, raiseIf_bitout]

@[simp] theorem detectWindows_cfgOrder (p : Params) (s : State) : (detectWindows p s).cfgOrder = s.cfgOrder :=
  raiseIf_cfgOrder ..

@[simp] theorem detectWindows_sigPad (p : Params) (s : State) : (detectWindows p s).sigPad = s.sigPad :=
  raiseIf_sigPad ..

/-- The noise step after the detector takes the draws from where the stream stands. -/
theorem symbolNoise_detectWindows_sym (p : Params) (s : State) : (symbolNoise p (detectWindows p s)).sym =
    addSymbolNoise s.cfgNs (fun i => p.gauss (s.drawPos + i)) (detectWindows p s).sym := by
  rw [symbolNoise_eq, detectWindows_cfgNs]
  unfold nextDraw
  rw [detectWindows_drawPos]

/-- Over the reals `N ≥ 3` and a positive amplitude are legal (R243). -/
theorem waveConfigLegal_of_pos {p : Params} {v : NumVal → ℝ} (h : p.num.IsReal v) {s : State}
    (hN : 3 ≤ s.cfgNsps.toNat) (hamp : 0 < v s.cfgAmp) : waveConfigLegal p s = true :=
  waveConfigLegal_of hN (by rwa [h.less_iff, h.zero])

/-- Settles O42: both amplitudes are legal, the points detected are the same, and so are the bits. -/
theorem amplitudeDoesNotMatter : Obligations.AmplitudeDoesNotMatter := by
  intro p v s amp h hN hamp hamp'
  have legal := waveConfigLegal_of_pos h hN hamp
  have legal' : waveConfigLegal p { s with cfgAmp := amp } = true := waveConfigLegal_of_pos h hN hamp'
  obtain ⟨points, flags⟩ := detectWindows_amp h hN hamp hamp'
  rw [detectCmd_legal legal, detectCmd_legal legal']
  refine ⟨points, flags, ?bits⟩
  case bits =>
    by_cases hnoise : noiseConfigLegal p s = true
    · have hnoise' : noiseConfigLegal p { s with cfgAmp := amp } = true := hnoise
      rw [demodCmd_legal legal hnoise, demodCmd_legal legal' hnoise', decideSymbols_bitout, decideSymbols_bitout]
      have same : recovered p (symbolNoise p (detectWindows p { s with cfgAmp := amp })) =
          recovered p (symbolNoise p (detectWindows p s)) := by
        refine recovered_congr h (by simp [symbolNoise_eq]) ?_
        rw [symbolNoise_detectWindows_sym, symbolNoise_detectWindows_sym, addSymbolNoise_points h,
          addSymbolNoise_points h, points]
      rw [same]
      simp [symbolNoise_eq]
    · have refused : ¬ (waveConfigLegal p s && noiseConfigLegal p s) = true := by simp [hnoise]
      have refused' : ¬ (waveConfigLegal p { s with cfgAmp := amp } &&
        noiseConfigLegal p { s with cfgAmp := amp }) = true := by
        rw [legal']
        exact hnoise
      rw [demodCmd_refused refused, demodCmd_refused refused', refuse_bitout, refuse_bitout]

end Sys2Proof.Machine
end

section
/-! The round trip (R218): the detector finds the symbols that MOD synthesized, and their bits are the padded bits. -/

namespace Sys2Proof.Machine

open Sys2Proof.Claims

/-! ### Bits and group values -/

theorem groupValue_lt (group : List Bit) : groupValue group < 2 ^ group.length := by
  induction group using List.reverseRecOn with
  | nil => simp [groupValue]
  | append_singleton bits b ih =>
    have bit : b.toNat ≤ 1 := b.toNat_le
    rw [groupValue_concat, List.length_append, List.length_singleton, pow_succ]
    omega

/-- The bits of the value of a group are the group (R100). -/
theorem bitsMsbFirst_groupValue (group : List Bit) : bitsMsbFirst group.length (groupValue group) = group := by
  induction group using List.reverseRecOn with
  | nil => rfl
  | append_singleton bits b ih =>
    have half : (2 * groupValue bits + b.toNat) / 2 = groupValue bits := by
      have bit : b.toNat ≤ 1 := b.toNat_le
      omega
    have last : (2 * groupValue bits + b.toNat).testBit 0 = b := by cases b <;> simp [Nat.testBit_zero]
    rw [List.length_append, List.length_singleton, groupValue_concat, bitsMsbFirst_succ, half, last, ih]

/-- The groups of a sequence, one after the other, are the sequence as far as they reach. -/
theorem flatMap_groups (w count : Nat) (bits : List Bit) :
    ((List.range count).flatMap fun j => (bits.drop (j * w)).take w) = bits.take (count * w) := by
  induction count with
  | zero => simp
  | succ count ih =>
    rw [List.range_succ, List.flatMap_append, ih, List.flatMap_singleton, Nat.succ_mul, List.take_add]

/-- The bits of the group values are the padded bits (R151). -/
theorem flatMap_groupValues {w : Nat} (hw : 0 < w) (bits : List Bit) :
    (groupValues w bits).flatMap (bitsOf w) = padBits w bits := by
  have group {j : Nat} (hj : j ∈ List.range (symbolCount w bits.length)) :
      bitsOf w (groupValue (((padBits w bits).drop (j * w)).take w)) = ((padBits w bits).drop (j * w)).take w := by
    have inverse := bitsMsbFirst_groupValue (((padBits w bits).drop (j * w)).take w)
    rwa [group_length hw (List.mem_range.1 hj), ← bitsOf_eq_bitsMsbFirst] at inverse
  rw [groupValues, List.flatMap_map, List.flatMap_congr fun j hj => group hj, flatMap_groups, ← padBits_length hw,
    List.take_length]

/-- Every group value is below `M` (R151). -/
theorem lt_of_mem_groupValues {b : BitVec 2} {bits : List Bit} {g : Nat} (hg : g ∈ groupValues (width b) bits) :
    g < points b := by
  obtain ⟨j, hj, rfl⟩ := List.mem_map.1 hg
  have below := groupValue_lt (((padBits (width b) bits).drop (j * width b)).take (width b))
  rwa [group_length (width_pos b) (List.mem_range.1 hj)] at below

/-- The bits of the phase indices, decoded by the table's inverse, are the padded bits (R8, R152). -/
theorem flatMap_phaseIndices (p : Params) (b : BitVec 2) (bits : List Bit) :
    (phaseIndices p b bits).flatMap (fun k => bitsOf (width b) (unassign p b k)) = padBits (width b) bits := by
  rw [phaseIndices, List.flatMap_map, List.flatMap_congr fun g hg => ?_, flatMap_groupValues (width_pos b)]
  rw [unassign_assign p (lt_of_mem_groupValues hg)]

theorem lt_of_mem_phaseIndices {p : Params} {b : BitVec 2} {bits : List Bit} {k : Nat}
    (hk : k ∈ phaseIndices p b bits) : k < points b := by
  obtain ⟨g, -, rfl⟩ := List.mem_map.1 hk
  exact assign_lt p b g

/-- The one bit of a group value of order 2. -/
theorem testBit_zero_of_lt_two {g : Nat} (hg : g < 2) : g.testBit 0 = decide (g = 1) := by
  interval_cases g <;> rfl

/-- Taking the padding off leaves the bits (R208). -/
theorem take_padBits (w : Nat) (bits : List Bit) :
    (padBits w bits).take ((padBits w bits).length - min (padCount w bits.length) (padBits w bits).length) = bits := by
  refine List.take_left' ?_
  rw [padBits, List.length_append, List.length_replicate]
  omega

/-! ### The windows of a waveform -/

/-- The first window is the first `N` samples, and the others are those of the rest. -/
theorem windows_append {n : Nat} (hn : 0 < n) {first : List NumVal} (hfirst : first.length = n) (rest : List NumVal) :
    windows n (first ++ rest) = first :: windows n rest := by
  have count : (first ++ rest).length / n = rest.length / n + 1 := by
    rw [List.length_append, hfirst, Nat.add_comm, Nat.add_div_right _ hn]
  have next (j : Nat) : (first ++ rest).drop ((j + 1) * n) = rest.drop (j * n) := by
    rw [Nat.succ_mul, Nat.add_comm, ← List.drop_drop, List.drop_left' hfirst]
  rw [windows, count, List.range_succ_eq_map, List.map_cons, List.map_map, windows]
  congr 1
  · rw [Nat.zero_mul, List.drop_zero, List.take_left' hfirst]
  · exact List.map_congr_left fun j _ => by rw [Function.comp_apply, Nat.succ_eq_add_one, next]

/-- The windows of a synthesized waveform are its symbols (R155, R191). -/
theorem windows_synthesize {n : Nat} (hn : 0 < n) (b : BitVec 2) (amp : NumVal) (ks : List Nat) :
    windows n (synthesize (points b) n amp ks) = ks.map (reference b n amp) := by
  induction ks with
  | nil => simp [synthesize, windows]
  | cons k ks ih =>
    rw [synthesize_cons, windows_append hn (refSymbol_length ..), ih]
    rfl

/-! ### Clean symbols -/

/-- The point that a clean symbol is detected as (R200, R201). -/
noncomputable def cleanPoint (p : Params) (b : BitVec 2) (k : Nat) : ℝ × ℝ :=
  if b = 0 then (if k = assign p 0 1 then 1 else -1, 0)
  else (Real.cos (theta (points b) k), Real.sin (theta (points b) k))

/-- No clean symbol is the origin. -/
theorem cleanPoint_ne_zero (p : Params) (b : BitVec 2) (k : Nat) : cleanPoint p b k ≠ (0, 0) := by
  unfold cleanPoint
  split
  · split <;> simp
  · intro zero
    obtain ⟨hcos, hsin⟩ := Prod.ext_iff.1 zero
    have circle := Real.sin_sq_add_cos_sq (theta (points b) k)
    rw [show Real.cos (theta (points b) k) = 0 from hcos, show Real.sin (theta (points b) k) = 0 from hsin] at circle
    norm_num at circle

section
variable {p : Params} {v : NumVal → ℝ} (h : p.num.IsReal v)
include h

/-- A clean symbol is detected as its point, and is not degenerate. -/
theorem estimate_reference (b : BitVec 2) {n : Nat} (hn : 3 ≤ n) {amp : NumVal} (hamp : 0 < v amp) {k : Nat}
    (hk : k < points b) : realPoint v (estimate p b n amp (reference b n amp k)).1 = cleanPoint p b k ∧
      (estimate p b n amp (reference b n amp k)).2 = false := by
  obtain ⟨clean, bpsk, higher⟩ := cleanSymbolsAreDetected p v b n amp k h hn hamp hk
  unfold cleanPoint
  split
  · next horder => exact ⟨Prod.ext_iff.2 (bpsk horder), clean⟩
  · next horder => exact ⟨Prod.ext_iff.2 (higher horder), clean⟩

/-- At order 2 the sign of the real part tells the symbol of the bit 1 from the other (R205). -/
theorem decideSymbol_bpsk {k : Nat} (hk : k < points 0) {z : Cplx}
    (hz : v z.re = if k = assign p 0 1 then 1 else -1) : decideSymbol p 0 z = bitsOf (width 0) (unassign p 0 k) := by
  have sign : p.num.less .zero z.re = true ↔ k = assign p 0 1 := by
    rw [h.less_iff, h.zero, hz]
    split
    · next one => exact iff_of_true one_pos one
    · next other => exact iff_of_false (by norm_num) other
  have inverse : k = assign p 0 1 ↔ unassign p 0 k = 1 :=
    ⟨fun same => by rw [same, unassign_assign p (by decide)], fun one => by rw [← one, assign_unassign p hk]⟩
  have bit : p.num.less .zero z.re = (unassign p 0 k).testBit 0 := by
    rw [testBit_zero_of_lt_two (unassign_lt p 0 k), Bool.eq_iff_iff, decide_eq_true_iff, sign, inverse]
  rw [decideSymbol, if_pos rfl, bit]
  rfl

/-- At orders 4, 8 and 16 a constellation point lies in the region of its own phase (R204). -/
theorem decideSymbol_higher {b : BitVec 2} (horder : b ≠ 0) {k : Nat} (hk : k < points b) {z : Cplx}
    (hre : v z.re = Real.cos (theta (points b) k)) (him : v z.im = Real.sin (theta (points b) k)) :
    decideSymbol p b z = bitsOf (width b) (unassign p b k) := by
  have inside := inRegion_theta hk
  have ⟨lo, hi, _, _⟩ := inside
  have region : regionOf p.num (points b) (angleOf p.num z) = k :=
    h.regionOf_point (points_pos b) (by rwa [hre, him, polarAngle_cos_sin lo hi])
  rw [decideSymbol, if_neg horder, region]

/-- A clean point decides as the bits of its symbol. -/
theorem decideSymbol_cleanPoint (b : BitVec 2) {k : Nat} (hk : k < points b) {z : Cplx}
    (hz : realPoint v z = cleanPoint p b k) : decideSymbol p b z = bitsOf (width b) (unassign p b k) := by
  unfold cleanPoint at hz
  obtain ⟨hre, him⟩ := Prod.ext_iff.1 hz
  split at hre
  · next horder =>
    subst horder
    exact decideSymbol_bpsk h hk hre
  · next horder =>
    rw [if_neg horder] at him
    exact decideSymbol_higher h horder hk hre him

/-- The detector finds the symbols of a synthesized waveform and raises nothing (R200 to R202). -/
theorem detectWindows_modulated {s : State} (hN : 3 ≤ s.cfgNsps.toNat) (hamp : 0 < v s.cfgAmp) :
    (detectWindows p (modulated p s)).sym.map (realPoint v) =
        (phaseIndices p s.cfgOrder s.bitin).map (cleanPoint p s.cfgOrder) ∧
      (detectWindows p (modulated p s)).status = s.status := by
  have each (k) (hk : k ∈ phaseIndices p s.cfgOrder s.bitin) :=
    estimate_reference h s.cfgOrder hN hamp (lt_of_mem_phaseIndices hk)
  have symbols : windows (modulated p s).cfgNsps.toNat (modulated p s).sig =
      (phaseIndices p s.cfgOrder s.bitin).map (reference s.cfgOrder s.cfgNsps.toNat s.cfgAmp) :=
    windows_synthesize (n := s.cfgNsps.toNat) (by omega) s.cfgOrder s.cfgAmp _
  have clean : (((phaseIndices p s.cfgOrder s.bitin).map (reference s.cfgOrder s.cfgNsps.toNat s.cfgAmp)).map
      (estimate p s.cfgOrder s.cfgNsps.toNat s.cfgAmp)).any Prod.snd = false := by
    rw [List.any_map, List.any_map, List.any_eq_false]
    exact fun k hk => by simp [(each k hk).2]
  rw [detectWindows, symbols]
  constructor
  · rw [raiseIf_sym, List.map_map, List.map_map, List.map_map]
    exact List.map_congr_left fun k hk => (each k hk).1
  · rw [raiseIf_status]
    exact if_neg (Bool.not_eq_true _ ▸ clean)

/-- The symbols that DEMOD decides after MOD, with noise of strength 0, are the clean points of the phase indices. -/
theorem demodSymbols_points {s : State} (hN : 3 ≤ s.cfgNsps.toNat) (hamp : 0 < v s.cfgAmp) (hns : v s.cfgNs = 0) :
    (symbolNoise p (detectWindows p (modulated p s))).sym.map (realPoint v) =
      (phaseIndices p s.cfgOrder s.bitin).map (cleanPoint p s.cfgOrder) := by
  have silent : v (modulated p s).cfgNs = 0 := hns
  rw [symbolNoise_detectWindows_sym, ← (detectWindows_modulated h hN hamp).1]
  exact h.addSymbolNoise_zero silent _ _

/-- Symbols at clean points are recovered as the padded bits. -/
theorem recovered_of_cleanPoints {s : State} {bits : List Bit}
    (points : s.sym.map (realPoint v) = (phaseIndices p s.cfgOrder bits).map (cleanPoint p s.cfgOrder)) :
    recovered p s = padBits (width s.cfgOrder) bits := by
  rw [recovered, ← flatMap_phaseIndices p]
  exact flatMap_eq_of_map_eq points fun z k hk => decideSymbol_cleanPoint h s.cfgOrder (lt_of_mem_phaseIndices hk)

/-- No symbol at a clean point asks for the angle of the origin (R126). -/
theorem isOrigin_of_cleanPoints {b : BitVec 2} {symbols : List Cplx} {ks : List Nat}
    (points : symbols.map (realPoint v) = ks.map (cleanPoint p b)) : ∀ z ∈ symbols, p.num.isOrigin z = false := by
  intro z hz
  obtain ⟨k, -, hk⟩ := List.mem_map.1 (points ▸ List.mem_map_of_mem (f := realPoint v) hz)
  rw [← Bool.not_eq_true, h.isOrigin_iff]
  exact fun origin => cleanPoint_ne_zero p b k (hk.trans (Prod.ext_iff.2 origin))

end

/-- The decoder raises nothing where the padding count is possible and no symbol is the origin (R208, R209). -/
theorem decideSymbols_status {p : Params} {s : State} (pad : s.sigPad.toNat < width s.cfgOrder)
    (fits : s.sigPad.toNat ≤ (recovered p s).length) (points : ∀ z ∈ s.sym, p.num.isOrigin z = false) :
    (decideSymbols p s).status = s.status := by
  have possible : padImpossible s.cfgOrder s.sigPad.toNat (recovered p s).length = false :=
    decide_eq_false (not_or.2 ⟨not_le.2 pad, not_lt.2 fits⟩)
  have asked : s.sym.any p.num.isOrigin = false := List.any_eq_false.2 fun z hz => by simp [points z hz]
  rw [decideSymbols, possible, asked, Bool.and_false]
  rfl

/-- Symbols at the clean points of some bits, with their padding count, decide as the bits, and nothing is raised. -/
theorem decideSymbols_of_cleanPoints {p : Params} {v : NumVal → ℝ} (h : p.num.IsReal v) {s : State} {bits : List Bit}
    (points : s.sym.map (realPoint v) = (phaseIndices p s.cfgOrder bits).map (cleanPoint p s.cfgOrder))
    (pad : s.sigPad.toNat = padCount (width s.cfgOrder) bits.length) :
    (decideSymbols p s).bitout = bits ∧ (decideSymbols p s).status = s.status := by
  have padded := recovered_of_cleanPoints h points
  have below : s.sigPad.toNat < width s.cfgOrder := pad ▸ padCount_lt (width_pos s.cfgOrder) bits.length
  have fits : s.sigPad.toNat ≤ (recovered p s).length := by
    rw [padded, pad, padBits, List.length_append, List.length_replicate]
    omega
  refine ⟨?_, decideSymbols_status below fits (isOrigin_of_cleanPoints h points)⟩
  rw [decideSymbols_bitout, padded, pad, take_padBits]

/-- Settles O46: the symbols decided are the clean ones, noise of strength 0 leaves their points, and the padding taken
off is what MOD added. -/
theorem roundTripWithoutNoise : Obligations.RoundTripWithoutNoise := by
  intro p v s h hN hamp hns fits
  have hwave := waveConfigLegal_of_pos h hN hamp
  have executed : demodCmd p (modulated p s) =
      decideSymbols p (symbolNoise p (detectWindows p (modulated p s))) :=
    demodCmd_legal hwave (noiseConfigLegal_of_nonneg h hns.ge)
  have order : (symbolNoise p (detectWindows p (modulated p s))).cfgOrder = s.cfgOrder :=
    detectWindows_cfgOrder p (modulated p s)
  have pad : (symbolNoise p (detectWindows p (modulated p s))).sigPad = (modulated p s).sigPad :=
    detectWindows_sigPad p (modulated p s)
  obtain ⟨bits, flags⟩ := decideSymbols_of_cleanPoints h (bits := s.bitin)
    (order.symm ▸ demodSymbols_points h hN hamp hns) (by rw [pad, order, modulated_sigPad])
  rw [modCmd_eq_modulated hwave fits, executed]
  exact ⟨bits, flags.trans (detectWindows_modulated h hN hamp).2⟩

end Sys2Proof.Machine
end

section
/-! Transactions one after the other (R73, R104): a register written is read back, and PUSHBITS appends its bits. -/

namespace Sys2Proof.Machine

open Sys2Proof.Claims

/-! ### Write, then read -/

/-- A register write does not look at the host's further actions. -/
theorem writeReg_acting (p : Params) (v : PortVal) (t : Txn) (s : State) (r : Reg) :
    writeReg p v (acting t s) r = acting t (writeReg p v s r) := by
  cases r with
  | bitinPush =>
    rw [writeReg, writeReg, pushBit, pushBit, apply_ite (acting t)]
    rfl
  | sigPush =>
    rw [writeReg, writeReg, pushSample, pushSample, apply_ite (acting t)]
    rfl
  | symImPush =>
    rw [writeReg, writeReg, pushSymbol, pushSymbol, apply_ite (acting t)]
    rfl
  | _ => rfl

/-- Nor do the Nums it stores depend on them. -/
theorem writtenNums_acting (v : PortVal) (t : Txn) (s : State) (r : Reg) :
    writtenNums v (acting t s) r = writtenNums v s r := by
  cases r <;> rfl

/-- Two steps that write a register other than `CMD` and read it return what the register then holds (R73). -/
theorem run_write_read {r : Reg} (hcmd : r ≠ .cmd) (htime : r ≠ .timeRd) (v : PortVal) (s : State)
    (finite : ∀ x ∈ writtenNums v s r, FiniteNum x) :
    Host.Core.run Sys2Proof.core 2 (acting (.write r.addr v) (acting (.read r.addr) s)) =
      .next { writeReg Config.machine v s r with readData := readReg (writeReg Config.machine v s r) r } := by
  have written : step (acting (.write r.addr v) (acting (.read r.addr) s)) =
      .next (acting (.read r.addr) (writeReg Config.machine v s r)) := by
    rw [step_write hcmd (by rwa [writtenNums_acting]), writeReg_acting]
  rw [run_succ written, run_succ (step_read htime rfl)]
  rfl

/-- A field zero-extended again is the word's low bits. -/
theorem setWidth_setWidth_eq_and {k : Nat} (hk : k ≤ 32) (v : Word) :
    (v.setWidth k).setWidth 32 = v &&& BitVec.ofNat 32 (2 ^ k - 1) := by
  have fits : 2 ^ k ≤ 2 ^ 32 := Nat.pow_le_pow_right two_pos hk
  have pos := Nat.two_pow_pos k
  have small := Nat.mod_lt v.toNat pos
  apply BitVec.eq_of_toNat_eq
  rw [BitVec.toNat_setWidth, BitVec.toNat_setWidth, BitVec.toNat_and, BitVec.toNat_ofNat,
    Nat.mod_eq_of_lt (by omega : 2 ^ k - 1 < 2 ^ 32), Nat.and_two_pow_sub_one_eq_mod, Nat.mod_eq_of_lt (by omega)]

/-- The read-write Num registers of R62, in the order of their addresses. -/
def Reg.readWriteNum : List Reg := [.cfgAmp, .cfgPeriod, .cfgNs, .phaseIn, .xIn, .yIn]

/-- Settles O56: each register holds what was written, an integer register the field's bits of it. -/
theorem writtenRegistersReadBack : Obligations.WrittenRegistersReadBack := by
  intro s rest
  refine ⟨fun addr mask v haddr => ?integer, fun addr x hx haddr => ?num⟩
  case integer =>
    simp only [List.mem_cons, Prod.mk.injEq, List.not_mem_nil, or_false] at haddr
    have field {k : Nat} (hk : k ≤ 32) := congrArg PortVal.word (setWidth_setWidth_eq_and hk v)
    rcases haddr with ⟨rfl, rfl⟩ | ⟨rfl, rfl⟩ | ⟨rfl, rfl⟩ | ⟨rfl, rfl⟩
    · exact ⟨_, run_write_read (r := .cfgOrder) nofun nofun (.word v) { s with pending := rest } nofun,
        field (by decide : 2 ≤ 32), rfl⟩
    · exact ⟨_, run_write_read (r := .cfgNsps) nofun nofun (.word v) { s with pending := rest } nofun,
        field (by decide : 16 ≤ 32), rfl⟩
    · exact ⟨_, run_write_read (r := .sigPad) nofun nofun (.word v) { s with pending := rest } nofun,
        field (by decide : 2 ≤ 32), rfl⟩
    · exact ⟨_, run_write_read (r := .idx) nofun nofun (.word v) { s with pending := rest } nofun,
        congrArg PortVal.word BitVec.and_allOnes.symm, rfl⟩
  case num =>
    obtain ⟨r, hr, rfl⟩ : ∃ r ∈ Reg.readWriteNum, r.addr = addr := List.mem_map.1 haddr
    have stored : r ≠ .cmd ∧ r ≠ .timeRd ∧ writtenNums (.num x) { s with pending := rest } r = [x] ∧
        readReg (writeReg Config.machine (.num x) { s with pending := rest } r) r = .num x ∧
        (writeReg Config.machine (.num x) { s with pending := rest } r).pending = rest := by
      fin_cases hr <;> exact ⟨nofun, nofun, rfl, rfl, rfl⟩
    obtain ⟨hcmd, htime, only, value, host⟩ := stored
    exact ⟨_, run_write_read hcmd htime (.num x) { s with pending := rest } (by simpa [only] using hx), value, host⟩

/-! ### PUSHBITS -/

theorem runSteps_succ {p : Params} {s t : State} (h : stepWith p s = .next t) (n : Nat) :
    runSteps p (n + 1) s = runSteps p n t := by
  rw [runSteps, h]

/-- A bit pushed into a buffer with room is appended (R69, R104). -/
theorem stepWith_pushBit {p : Params} {s : State} (room : s.bitin.length ≠ p.caps.bitCap) (b : Bit) :
    stepWith p (acting (wr .bitinPush ((BitVec.ofBool b).setWidth 32)) s) =
      .next { s with bitin := s.bitin ++ [b] } := by
  have bit : ((BitVec.ofBool b).setWidth 32).getLsbD 0 = b := by cases b <;> rfl
  rw [stepWith_acting, wr, actionState_write (regAt_addr .bitinPush) nofun,
    actionNums_write (regAt_addr .bitinPush) nofun, writtenNums, guardFinite_nil, writeReg, PortVal.asWord,
    pushBit_room room, bit]

/-- Settles O60: by induction over the bits, each of which finds room. -/
theorem pushBitsScriptAppendsInOrder : Obligations.PushBitsScriptAppendsInOrder := by
  intro p s bits rest fits
  induction bits generalizing s with
  | nil => simp [runSteps, pushBits]
  | cons b bits ih =>
    rw [List.length_cons] at fits ⊢
    have pushed : stepWith p { s with pending := pushBits (b :: bits) ++ rest } =
        .next { s with pending := pushBits bits ++ rest, bitin := s.bitin ++ [b] } :=
      stepWith_pushBit (s := { s with pending := pushBits bits ++ rest }) (by dsimp only; omega) b
    have shorter : (s.bitin ++ [b]).length + bits.length ≤ p.caps.bitCap := by
      rw [List.length_append, List.length_singleton]
      omega
    rw [runSteps_succ pushed]
    simpa using ih { s with bitin := s.bitin ++ [b] } shorter

end Sys2Proof.Machine
end
